-- ==== Sys2Proof/Word.lean ====
section
/-! DEFINITION. The words the spec measures values in (spec/00_scope.md R6, R10). -/

namespace Sys2Proof

/-- The addressable unit, 8 bits (20_memory.md R61). -/
abbrev Byte := BitVec 8

/-- A 16-bit word, the data of one bus cycle (20_memory.md R65). -/
abbrev Word := BitVec 16

/-- A 32-bit value, the widest a transaction carries (30_encoding.md R91). -/
abbrev Long := BitVec 32

/-- A 24-bit bus address (20_memory.md R60). -/
abbrev Addr := BitVec 24

/-- A pen, 0 to 15 (00_scope.md R13). -/
abbrev Pen := BitVec 4

end Sys2Proof
end

