-- ==== Sys2Proof/Config.lean ====
section
/-! DEFINITION. What an implementation fixes: the map entry and the variant record (spec/30_encoding.md R97,
spec/00_scope.md R7), and the free values of everything the spec leaves unspecified. A free value is an opaque
constant: nothing in Lean can evaluate it or prove a value of it. -/

namespace Sys2Proof

/-- The six byte arrays behind the bus (20_memory.md R60). -/
inductive Region where
  | rom | bankrom | wram | vram | sprram | palram
  deriving DecidableEq, Repr, Inhabited

/-- Three 5-bit colour channels, the value of PAL_FIELDS (30_encoding.md R112). -/
structure Rgb5 where
  r : BitVec 5
  g : BitVec 5
  b : BitVec 5
  deriving DecidableEq, Repr, Inhabited

/-- An RGB triple of 8 bits a channel, an entry of PALRGB (10_state.md R37). -/
structure Rgb where
  r : Byte
  g : Byte
  b : Byte
  deriving DecidableEq, Repr, Inhabited

/-- An entry of the tile decode cache (10_state.md R39). -/
structure TileEntry where
  tile : BitVec 12
  colour : BitVec 4
  deriving DecidableEq, Repr, Inhabited

/-- A map entry (30_encoding.md R97). The kind is kept as its raw 8-bit code, because a variant may hold a reserved
one, which CONFIG then rejects (R98). R97 says that arg0, arg1 and base are 0 for a kind that does not use them and CONFIG
has no check of it (42_frame_compositor.md R190): that a session is built with others, which nothing reads, is the
model's choice (DESIGN CHOICE, log 24). -/
structure MapEntry where
  start : Addr
  stop : Addr
  kind : BitVec 8
  arg0 : BitVec 8
  arg1 : BitVec 8
  base : BitVec 24
  deriving DecidableEq, Repr, Inhabited

/-- TILE_DECODE, a closed set (00_scope.md R7). -/
inductive TileDecode where
  | a | b | c
  deriving DecidableEq, Repr

/-- SPR_FLIP_MODE, a closed set (00_scope.md R7, 30_encoding.md R110). -/
inductive SprFlipMode where
  | twoBit | oneBit
  deriving DecidableEq, Repr

/-- CELL_POS, a function from cell numbers to positions (00_scope.md R7): the reference's column-major order with a
number of rows, a table (cells past its end at (0, 0)), or any other function, free (log 2). -/
inductive CellLayout where
  | columnMajor (rows : Nat)
  | table (positions : List (Nat × Nat))
  | other (k : Nat)
  deriving DecidableEq, Repr

/-- PAL_FIELDS: the reference layout (30_encoding.md R112), the candidate of 93_implementation_defined.md U6, or any
other function that meets the two examples of R112, free but for them (log 2). Of another layout rField marks the bits
of the R field; no bits marked stands for all sixteen. -/
inductive PalLayout where
  | fields555
  | fields444low
  | other (k : Nat) (rField : Word)
  deriving DecidableEq, Repr

/-- SPR_POS: the reference fields (30_encoding.md R111), or any other function, free (log 2). -/
inductive SprPosLayout where
  | reference
  | other (k : Nat)
  deriving DecidableEq, Repr

/-- ROT_PLACE: the reference placement (30_encoding.md R117), or any other function, free (log 2). -/
inductive RotPlacement where
  | reference
  | other (k : Nat)
  deriving DecidableEq, Repr

/-- ROTLO_PACK: the reference packing (30_encoding.md R117), or any other function, free (log 2). -/
inductive RotloPacking where
  | reference
  | other (k : Nat)
  deriving DecidableEq, Repr

/-- VIS, the clip rectangle, both ends inclusive (00_scope.md R7). -/
structure Clip where
  x0 : Nat
  x1 : Nat
  y0 : Nat
  y1 : Nat
  deriving DecidableEq, Repr

/-- The variant record V (00_scope.md R7), one field per row of its table. N_ROMBANKS is the length of bankBase. R7 types
the sizes romBytes, wramBytes, bankromBytes and the offsets bankBase as even and CONFIG has no check of it (R190): that a
session is built with odd ones too is the model's choice (DESIGN CHOICE, log 21). -/
structure Variant where
  rmap : List MapEntry
  wmap : List MapEntry
  openBusByte : Byte
  romBytes : Nat
  wramBytes : Nat
  bankromBytes : Nat
  bankBase : List Nat
  tileDecode : TileDecode
  nCells : Nat
  cellPos : CellLayout
  tileW : Nat
  tileH : Nat
  tileCount : Nat
  tilePalBase : Nat
  tileTransparentPen : Pen
  nColors : Nat
  palFields : PalLayout
  nBanks : Nat
  bankOrder : List Nat
  bankTileOfs : List Nat
  pvisBanks : List Nat
  sprFlipMode : SprFlipMode
  sprTileMax : Nat
  sprPos : SprPosLayout
  sprPalBase : Nat
  sprTransparentPen : Pen
  transparentSlot : Nat
  fbW : Nat
  fbH : Nat
  vis : Clip
  nPorts : Nat
  rotPlace : RotPlacement
  rotloPack : RotloPacking
  deriving DecidableEq, Repr

namespace Config

/-- The byte a region holds at an offset that nothing has written since draw k of unspecified contents
(10_state.md R48, R9; log 3, log 5). -/
opaque launchByte : Region → Nat → Nat → Byte

/-- The triple PALRGB holds at an index no palette write has touched since draw k (10_state.md R48; log 4). -/
opaque launchRgb : Nat → Nat → Rgb

/-- The entry TCACHE holds for a cell not decoded since draw k (10_state.md R48; log 4). -/
opaque launchTile : Nat → Nat → TileEntry

/-- What LAYER holds at a place after draw k, before the next frame (10_state.md R48; log 4). -/
opaque launchLayer : Nat → Nat → Option Nat

/-- What FB holds at a place after draw k, before the next frame (10_state.md R48; log 4). -/
opaque launchPixel : Nat → Nat → Nat

/-- What SNDLATCH holds after draw k (10_state.md R26, R48; log 4). -/
opaque launchLatch : Nat → Byte

/-- The value the host gives an input port at session start (10_state.md R44; log 6). -/
opaque hostPort : Nat → Nat → Byte

/-- The value the sound side gives SNDSTAT at session start (10_state.md R44; log 6). -/
opaque hostSndStat : Word

/-- Pen of a pixel of the tile graphics asset that nothing lists (10_state.md R45; log 5). -/
opaque tilePen : Nat → Nat → Pen

/-- Pen of a pixel of the sprite graphics asset that nothing lists (10_state.md R45; log 5). -/
opaque sprPen : Nat → Nat → Pen

/-- Pen-usage mask of a sprite tile that nothing lists (10_state.md R45; log 5). -/
opaque penUseMask : Nat → Nat → BitVec 16

/-- CELL_POS of a variant the spec does not write out (00_scope.md R7; log 2). -/
opaque cellPos : Nat → Nat → Nat × Nat

/-- PAL_FIELDS of a variant the spec does not write out, where the examples of 30_encoding.md R112 leave it open
(log 2). -/
opaque palFields : Nat → Word → Rgb5

/-- SPR_POS of a variant the spec does not write out (30_encoding.md R111; log 2). -/
opaque sprPos : Nat → Word → Word → Nat × Nat

/-- ROT_PLACE of a variant the spec does not write out (30_encoding.md R117; log 2). -/
opaque rotPlace : Nat → BitVec 12 → Word

/-- ROTLO_PACK of a variant the spec does not write out (30_encoding.md R117; log 2). -/
opaque rotloPack : Nat → BitVec 12 → BitVec 12 → Word

end Config

end Sys2Proof
end

