-- ==== Sys2Proof/Syntax.lean ====
section
/-! DEFINITION. The operations of the block, one constructor per row of spec/opcode_table.json (spec/30_encoding.md
R121), and the two encoded forms a word of it can take: a transaction word (R91) or a micro-sequence code (R102). -/

namespace Sys2Proof

/-- The widths of a transaction, exactly 8, 16 and 32 bits (30_encoding.md R92). -/
inductive Width where
  | w8 | w16 | w32
  deriving DecidableEq, Repr

/-- The operations. A read has a width and a bus address; a write has also a value, right-justified in 32 bits
(30_encoding.md R91, R93). The map entry is not an operand: the address selects it (20_memory.md R67). -/
inductive Instr where
  | rdOpen (w : Width) (a : Addr)
  | rdRom (w : Width) (a : Addr)
  | rdRam (w : Width) (a : Addr)
  | rdBankrom (w : Width) (a : Addr)
  | rdVideo (w : Width) (a : Addr)
  | rdSprite (w : Width) (a : Addr)
  | rdPalette (w : Width) (a : Addr)
  | rdCtrl (w : Width) (a : Addr)
  | rdDip (w : Width) (a : Addr)
  | rdSndbusy (w : Width) (a : Addr)
  | rdRot (w : Width) (a : Addr)
  | rdRotlo (w : Width) (a : Addr)
  | rdProtr (w : Width) (a : Addr)
  | wrOpen (w : Width) (a : Addr) (v : Long)
  | wrRom (w : Width) (a : Addr) (v : Long)
  | wrRam (w : Width) (a : Addr) (v : Long)
  | wrBankrom (w : Width) (a : Addr) (v : Long)
  | wrVideo (w : Width) (a : Addr) (v : Long)
  | wrSprite (w : Width) (a : Addr) (v : Long)
  | wrPalette (w : Width) (a : Addr) (v : Long)
  | wrSndkick (w : Width) (a : Addr) (v : Long)
  | wrFlip (w : Width) (a : Addr) (v : Long)
  | wrProtw (w : Width) (a : Addr) (v : Long)
  | frame
  | reset
  | tcupd
  | pvis
  | pchg
  | trend
  | srend
  | comp
  deriving DecidableEq, Repr

/-- An encoded operation: a 64-bit transaction word, which the host issues (30_encoding.md R91), or a 4-bit
micro-sequence code, which only the compositor's own sequencer selects (R102). -/
inductive Encoded where
  | tw (word : BitVec 64)
  | useq (code : BitVec 4)
  deriving DecidableEq, Repr

end Sys2Proof
end

