-- ==== Sys2Proof/Machine/AddressMap.lean ====
section
/-! DEFINITION. Kinds of map entries and the map lookup (spec/30_encoding.md R96 to R98, spec/20_memory.md R63 to R69). -/

namespace Sys2Proof.Machine

/-- The kinds of 30_encoding.md R96. -/
inductive Kind where
  | openBus | rom | ram | bankrom | video | sprite | palette
  | ctrl | dip | sndbusy | rot | rotlo | protr
  | sndkick | flip | protw
  deriving DecidableEq, Repr

/-- The code K of a kind (30_encoding.md R96). -/
def kindCode : Kind → BitVec 8
  | .openBus => 0x00
  | .rom => 0x01
  | .ram => 0x02
  | .bankrom => 0x03
  | .video => 0x04
  | .sprite => 0x05
  | .palette => 0x06
  | .ctrl => 0x10
  | .dip => 0x11
  | .sndbusy => 0x12
  | .rot => 0x13
  | .rotlo => 0x14
  | .protr => 0x15
  | .sndkick => 0x20
  | .flip => 0x21
  | .protw => 0x22

/-- The kinds an RMAP entry may have (30_encoding.md R96, column "legal in"; R98). -/
def readKinds : List Kind :=
  [.rom, .ram, .bankrom, .video, .sprite, .palette, .ctrl, .dip, .sndbusy, .rot, .rotlo, .protr]

/-- The kinds a WMAP entry may have (30_encoding.md R96, column "legal in"; R98). -/
def writeKinds : List Kind :=
  [.rom, .ram, .bankrom, .video, .sprite, .palette, .sndkick, .flip, .protw]

/-- Is a raw kind code one of these kinds? Every code that R96 does not list is reserved and is none of them. -/
def kindIn (ks : List Kind) (code : BitVec 8) : Bool :=
  ks.any fun k => kindCode k == code

/-- The byte array behind a storage kind (20_memory.md R68); none for the handler kinds and reserved codes. -/
def storageRegion (code : BitVec 8) : Option Region :=
  if code = kindCode .rom then some .rom
  else if code = kindCode .ram then some .wram
  else if code = kindCode .bankrom then some .bankrom
  else if code = kindCode .video then some .vram
  else if code = kindCode .sprite then some .sprram
  else if code = kindCode .palette then some .palram
  else none

/-- The width in bits, 8 << wsel (30_encoding.md R92). -/
def widthBits : Width → Nat
  | .w8 => 8
  | .w16 => 16
  | .w32 => 32

/-- An address with bit 0 cleared (20_memory.md R64). -/
def evenAddr (a : Addr) : Addr := a &&& 0xFFFFFE#24

/-- The address a transaction is looked up at: the whole address for width 8, bit 0 ignored for 16 and 32
(20_memory.md R64, R67). -/
def busAddr (w : Width) (a : Addr) : Addr :=
  match w with
  | .w8 => a
  | .w16 => evenAddr a
  | .w32 => evenAddr a

/-- Lookup(M, a): the first entry whose range holds the address, both ends included (20_memory.md R67). -/
def lookup (m : List MapEntry) (a : Addr) : Option MapEntry :=
  m.find? fun e => decide (e.start ≤ a) && decide (a ≤ e.stop)

/-- The kind code K an address selects: that of the entry found, 0x00 when there is none (30_encoding.md R95). -/
def selectedKind (m : List MapEntry) (w : Width) (a : Addr) : BitVec 8 :=
  match lookup m (busAddr w a) with
  | some e => e.kind
  | none => kindCode .openBus

/-- The entry a transaction selects, when its kind is k. -/
def selectEntry (m : List MapEntry) (k : Kind) (w : Width) (a : Addr) : Option MapEntry :=
  (lookup m (busAddr w a)).filter fun e => e.kind == kindCode k

/-- A cycle at word address wa is inside an entry (20_memory.md R69). -/
def insideEntry (e : MapEntry) (wa : Addr) : Bool :=
  decide (e.start ≤ wa) && decide (wa.toNat + 1 ≤ e.stop.toNat)

/-- The region offset of a cycle (20_memory.md R68), without the bank base of banked ROM. -/
def entryOffset (e : MapEntry) (wa : Addr) : Nat :=
  e.base.toNat + (wa.toNat - e.start.toNat)

end Sys2Proof.Machine
end

