-- ==== Sys2Proof/WellFormed.lean ====
section
/-! DEFINITION. Which operations are well formed under a variant: the address selects the operation's kind in the map
of its direction (spec/30_encoding.md R95), and a written value fits its width (R93). -/

namespace Sys2Proof

open Sys2Proof.Machine

/-- Bits data[31:w] of a write are 0 (30_encoding.md R93). -/
def valueFits (w : Width) (v : Long) : Bool := decide (v.toNat < 2 ^ widthBits w)

/-- The address of a read selects kind k (30_encoding.md R95, R99). -/
def readSelects (v : Variant) (k : Kind) (w : Width) (a : Addr) : Bool :=
  selectedKind v.rmap w a == kindCode k

/-- The address of a write selects kind k (30_encoding.md R95, R99). -/
def writeSelects (v : Variant) (k : Kind) (w : Width) (a : Addr) : Bool :=
  selectedKind v.wmap w a == kindCode k

/-- A write is well formed: the address selects its kind and the value fits. -/
def writeWellFormed (v : Variant) (k : Kind) (w : Width) (a : Addr) (value : Long) : Bool :=
  writeSelects v k w a && valueFits w value

/-- Well-formed operations under a variant: exactly those that some transaction word or micro-sequence code spells. -/
def wellFormed (v : Variant) : Instr → Bool
  | .rdOpen w a => readSelects v .openBus w a
  | .rdRom w a => readSelects v .rom w a
  | .rdRam w a => readSelects v .ram w a
  | .rdBankrom w a => readSelects v .bankrom w a
  | .rdVideo w a => readSelects v .video w a
  | .rdSprite w a => readSelects v .sprite w a
  | .rdPalette w a => readSelects v .palette w a
  | .rdCtrl w a => readSelects v .ctrl w a
  | .rdDip w a => readSelects v .dip w a
  | .rdSndbusy w a => readSelects v .sndbusy w a
  | .rdRot w a => readSelects v .rot w a
  | .rdRotlo w a => readSelects v .rotlo w a
  | .rdProtr w a => readSelects v .protr w a
  | .wrOpen w a x => writeWellFormed v .openBus w a x
  | .wrRom w a x => writeWellFormed v .rom w a x
  | .wrRam w a x => writeWellFormed v .ram w a x
  | .wrBankrom w a x => writeWellFormed v .bankrom w a x
  | .wrVideo w a x => writeWellFormed v .video w a x
  | .wrSprite w a x => writeWellFormed v .sprite w a x
  | .wrPalette w a x => writeWellFormed v .palette w a x
  | .wrSndkick w a x => writeWellFormed v .sndkick w a x
  | .wrFlip w a x => writeWellFormed v .flip w a x
  | .wrProtw w a x => writeWellFormed v .protw w a x
  | .frame => true
  | .reset => true
  | .tcupd => true
  | .pvis => true
  | .pchg => true
  | .trend => true
  | .srend => true
  | .comp => true

end Sys2Proof
end

