-- ==== Sys2Proof/Decode.lean ====
section
/-! DEFINITION. Decoding a transaction word, an operation word or a micro-sequence code (spec/30_encoding.md R91 to
R102), total and refusing every reserved word by name; then the encoder, from the same layouts. -/

namespace Sys2Proof

open Sys2Proof.Machine

/-- Why a word spells no operation (30_encoding.md R100, R98, R102). -/
inductive Reject where
  /-- cmd = 3. -/
  | reservedCommand
  /-- wsel = 3. -/
  | reservedWidth
  /-- TW[59:56] is not 0. -/
  | reservedBits
  /-- A READ whose data field is not 0. -/
  | readWithData
  /-- A WRITE with data bits above its width. -/
  | dataAboveWidth
  /-- A SYS word with wsel, addr or data[31:8] not 0. -/
  | systemOperands
  /-- A SYS subcode other than 0 and 1. -/
  | reservedSubcode
  /-- A bus transaction whose selected kind code is in no row of the table (impossible once CONFIG has passed, R98). -/
  | reservedKind
  /-- A micro-sequence code of no row of the table (R102). -/
  | reservedMicroCode
  deriving DecidableEq, Repr

/-- The width a wsel field names (30_encoding.md R91). -/
def widthOfSel (sel : BitVec 2) : Option Width :=
  if sel = 0 then some .w8 else if sel = 1 then some .w16 else if sel = 2 then some .w32 else none

/-- The wsel field of a width (30_encoding.md R91). -/
def selOfWidth : Width → BitVec 2
  | .w8 => 0
  | .w16 => 1
  | .w32 => 2

/-- One row of spec/opcode_table.json that matches on an operation word: its match, its mask, and the operation it
names, given the width, the address and the data of the transaction. -/
structure OpRow where
  pattern : Word
  mask : Word
  build : Width → Addr → Long → Instr

/-- The 13 read rows (30_encoding.md R121). -/
def readRows : List OpRow :=
  [ ⟨0x0000, 0xCFFF, fun w a _ => .rdOpen w a⟩,
    ⟨0x0001, 0xCFFF, fun w a _ => .rdRom w a⟩,
    ⟨0x0002, 0xCFFF, fun w a _ => .rdRam w a⟩,
    ⟨0x0003, 0xCFFF, fun w a _ => .rdBankrom w a⟩,
    ⟨0x0004, 0xCFFF, fun w a _ => .rdVideo w a⟩,
    ⟨0x0005, 0xCFFF, fun w a _ => .rdSprite w a⟩,
    ⟨0x0006, 0xCFFF, fun w a _ => .rdPalette w a⟩,
    ⟨0x0010, 0xCFFF, fun w a _ => .rdCtrl w a⟩,
    ⟨0x0011, 0xCFFF, fun w a _ => .rdDip w a⟩,
    ⟨0x0012, 0xCFFF, fun w a _ => .rdSndbusy w a⟩,
    ⟨0x0013, 0xCFFF, fun w a _ => .rdRot w a⟩,
    ⟨0x0014, 0xCFFF, fun w a _ => .rdRotlo w a⟩,
    ⟨0x0015, 0xCFFF, fun w a _ => .rdProtr w a⟩ ]

/-- The 10 write rows (30_encoding.md R121). -/
def writeRows : List OpRow :=
  [ ⟨0x4000, 0xCFFF, fun w a d => .wrOpen w a d⟩,
    ⟨0x4001, 0xCFFF, fun w a d => .wrRom w a d⟩,
    ⟨0x4002, 0xCFFF, fun w a d => .wrRam w a d⟩,
    ⟨0x4003, 0xCFFF, fun w a d => .wrBankrom w a d⟩,
    ⟨0x4004, 0xCFFF, fun w a d => .wrVideo w a d⟩,
    ⟨0x4005, 0xCFFF, fun w a d => .wrSprite w a d⟩,
    ⟨0x4006, 0xCFFF, fun w a d => .wrPalette w a d⟩,
    ⟨0x4020, 0xCFFF, fun w a d => .wrSndkick w a d⟩,
    ⟨0x4021, 0xCFFF, fun w a d => .wrFlip w a d⟩,
    ⟨0x4022, 0xCFFF, fun w a d => .wrProtw w a d⟩ ]

/-- The two system rows (30_encoding.md R101). -/
def systemRows : List OpRow :=
  [ ⟨0x8000, 0xFFFF, fun _ _ _ => .frame⟩,
    ⟨0x8001, 0xFFFF, fun _ _ _ => .reset⟩ ]

/-- Every row that matches on an operation word. -/
def opRows : List OpRow := readRows ++ writeRows ++ systemRows

/-- The six micro-sequence rows, by their code USEQ (30_encoding.md R102). -/
def microRows : List (BitVec 4 × Instr) :=
  [(0b0010, .tcupd), (0b0100, .pvis), (0b0101, .pchg), (0b0110, .trend), (0b1000, .srend), (0b1010, .comp)]

/-- The operation word OPW of a command, a width and a kind code or subcode (30_encoding.md R95). -/
def opWord (cmd : BitVec 2) (sel : BitVec 2) (k : BitVec 8) : Word := cmd ++ sel ++ 0#4 ++ k

/-- From an operation word, with the address and the data of its transaction, to the operation: the row with
(OPW & mask) = match (30_encoding.md R99). -/
def decodeOpWord (opw : Word) (a : Addr) (d : Long) : Except Reject Instr :=
  match widthOfSel (opw.extractLsb' 12 2) with
  | none => .error .reservedWidth
  | some w =>
    match opRows.find? fun r => opw &&& r.mask == r.pattern with
    | some r => .ok (r.build w a d)
    | none =>
      .error (if opw.extractLsb' 14 2 = 2 then .reservedSubcode
        else if opw.extractLsb' 14 2 = 3 then .reservedCommand else .reservedKind)

/-- From a micro-sequence code to the micro-operation (30_encoding.md R102). -/
def decodeMicro (code : BitVec 4) : Except Reject Instr :=
  match microRows.find? fun r => r.1 == code with
  | some r => .ok r.2
  | none => .error .reservedMicroCode

/-- The cmd field of a transaction word (30_encoding.md R91). -/
def twCmd (tw : BitVec 64) : BitVec 2 := tw.extractLsb' 62 2
/-- The wsel field of a transaction word (30_encoding.md R91). -/
def twSel (tw : BitVec 64) : BitVec 2 := tw.extractLsb' 60 2
/-- The must-be-zero field of a transaction word (30_encoding.md R91). -/
def twZero (tw : BitVec 64) : BitVec 4 := tw.extractLsb' 56 4
/-- The address field of a transaction word (30_encoding.md R91). -/
def twAddr (tw : BitVec 64) : Addr := tw.extractLsb' 32 24
/-- The data field of a transaction word (30_encoding.md R91). -/
def twData (tw : BitVec 64) : Long := tw.extractLsb' 0 32

/-- Decode(TW) of 30_encoding.md R99, under the maps of a variant; a reserved word is refused by name (R100). -/
def decode (v : Variant) (tw : BitVec 64) : Except Reject Instr :=
  if twZero tw ≠ 0 then .error .reservedBits
  else if twCmd tw = 3 then .error .reservedCommand
  else
    match widthOfSel (twSel tw) with
    | none => .error .reservedWidth
    | some w =>
      if twCmd tw = 0 then
        if twData tw ≠ 0 then .error .readWithData
        else decodeOpWord (opWord 0 (twSel tw) (selectedKind v.rmap w (twAddr tw))) (twAddr tw) 0
      else if twCmd tw = 1 then
        if valueFits w (twData tw) then
          decodeOpWord (opWord 1 (twSel tw) (selectedKind v.wmap w (twAddr tw))) (twAddr tw) (twData tw)
        else .error .dataAboveWidth
      else if twSel tw ≠ 0 ∨ twAddr tw ≠ 0 ∨ (twData tw).extractLsb' 8 24 ≠ 0 then .error .systemOperands
      else decodeOpWord (opWord 2 0 ((twData tw).extractLsb' 0 8)) 0 0

/-- Decoding either encoded form. -/
def decodeEncoded (v : Variant) : Encoded → Except Reject Instr
  | .tw word => decode v word
  | .useq code => decodeMicro code

/-- The instruction the decoder reads from a row's bits: 16 bits are an operation word with an operand word (address
and data) of zeros, 8 bits or fewer a micro-sequence code. -/
def decodeTableWord (nbits w : Nat) : Option Instr :=
  if nbits ≤ 8 then
    if w < 16 then (decodeMicro (BitVec.ofNat 4 w)).toOption else none
  else if w < 2 ^ 16 then (decodeOpWord (BitVec.ofNat 16 w) 0 0).toOption
  else none

/-- A transaction word from its fields (30_encoding.md R91). -/
def twOf (cmd sel : BitVec 2) (a : Addr) (d : Long) : BitVec 64 := cmd ++ sel ++ 0#4 ++ a ++ d

/-- The word of a READ: the data field is 0 (30_encoding.md R91). -/
def encodeRead (w : Width) (a : Addr) : Encoded := .tw (twOf 0 (selOfWidth w) a 0)

/-- The word of a WRITE (30_encoding.md R91, R93). -/
def encodeWrite (w : Width) (a : Addr) (v : Long) : Encoded := .tw (twOf 1 (selOfWidth w) a v)

/-- The word of a system command (30_encoding.md R101). -/
def encodeSystem (sub : BitVec 8) : Encoded := .tw (twOf 2 0 0 (sub.setWidth 32))

/-- The word of an operation (30_encoding.md R91, R101, R102). The kind is not in a bus transaction's word: the
address selects it. -/
def encode : Instr → Encoded
  | .rdOpen w a => encodeRead w a
  | .rdRom w a => encodeRead w a
  | .rdRam w a => encodeRead w a
  | .rdBankrom w a => encodeRead w a
  | .rdVideo w a => encodeRead w a
  | .rdSprite w a => encodeRead w a
  | .rdPalette w a => encodeRead w a
  | .rdCtrl w a => encodeRead w a
  | .rdDip w a => encodeRead w a
  | .rdSndbusy w a => encodeRead w a
  | .rdRot w a => encodeRead w a
  | .rdRotlo w a => encodeRead w a
  | .rdProtr w a => encodeRead w a
  | .wrOpen w a v => encodeWrite w a v
  | .wrRom w a v => encodeWrite w a v
  | .wrRam w a v => encodeWrite w a v
  | .wrBankrom w a v => encodeWrite w a v
  | .wrVideo w a v => encodeWrite w a v
  | .wrSprite w a v => encodeWrite w a v
  | .wrPalette w a v => encodeWrite w a v
  | .wrSndkick w a v => encodeWrite w a v
  | .wrFlip w a v => encodeWrite w a v
  | .wrProtw w a v => encodeWrite w a v
  | .frame => encodeSystem 0
  | .reset => encodeSystem 1
  | .tcupd => .useq 0b0010
  | .pvis => .useq 0b0100
  | .pchg => .useq 0b0101
  | .trend => .useq 0b0110
  | .srend => .useq 0b1000
  | .comp => .useq 0b1010

/-- The operation word a well-formed operation resolves to (30_encoding.md R95), 0x0000 to 0xFFFF; for a
micro-operation, its code USEQ (R102) widened. -/
def resolvedWord : Instr → Word
  | .rdOpen w _ => opWord 0 (selOfWidth w) (kindCode .openBus)
  | .rdRom w _ => opWord 0 (selOfWidth w) (kindCode .rom)
  | .rdRam w _ => opWord 0 (selOfWidth w) (kindCode .ram)
  | .rdBankrom w _ => opWord 0 (selOfWidth w) (kindCode .bankrom)
  | .rdVideo w _ => opWord 0 (selOfWidth w) (kindCode .video)
  | .rdSprite w _ => opWord 0 (selOfWidth w) (kindCode .sprite)
  | .rdPalette w _ => opWord 0 (selOfWidth w) (kindCode .palette)
  | .rdCtrl w _ => opWord 0 (selOfWidth w) (kindCode .ctrl)
  | .rdDip w _ => opWord 0 (selOfWidth w) (kindCode .dip)
  | .rdSndbusy w _ => opWord 0 (selOfWidth w) (kindCode .sndbusy)
  | .rdRot w _ => opWord 0 (selOfWidth w) (kindCode .rot)
  | .rdRotlo w _ => opWord 0 (selOfWidth w) (kindCode .rotlo)
  | .rdProtr w _ => opWord 0 (selOfWidth w) (kindCode .protr)
  | .wrOpen w _ _ => opWord 1 (selOfWidth w) (kindCode .openBus)
  | .wrRom w _ _ => opWord 1 (selOfWidth w) (kindCode .rom)
  | .wrRam w _ _ => opWord 1 (selOfWidth w) (kindCode .ram)
  | .wrBankrom w _ _ => opWord 1 (selOfWidth w) (kindCode .bankrom)
  | .wrVideo w _ _ => opWord 1 (selOfWidth w) (kindCode .video)
  | .wrSprite w _ _ => opWord 1 (selOfWidth w) (kindCode .sprite)
  | .wrPalette w _ _ => opWord 1 (selOfWidth w) (kindCode .palette)
  | .wrSndkick w _ _ => opWord 1 (selOfWidth w) (kindCode .sndkick)
  | .wrFlip w _ _ => opWord 1 (selOfWidth w) (kindCode .flip)
  | .wrProtw w _ _ => opWord 1 (selOfWidth w) (kindCode .protw)
  | .frame => opWord 2 0 0
  | .reset => opWord 2 0 1
  | .tcupd => 0b0010
  | .pvis => 0b0100
  | .pchg => 0b0101
  | .trend => 0b0110
  | .srend => 0b1000
  | .comp => 0b1010

end Sys2Proof
end

