-- ==== Sys2Proof/Machine/Operands.lean ====
section
/-! DEFINITION. The operand forms of a transaction: how a value of each width is cut into 16-bit cycles with byte lanes,
how a read's result is put together, and the open-bus value (spec/20_memory.md R62 to R70, spec/30_encoding.md R93, R94). -/

namespace Sys2Proof.Machine

/-- The byte lanes a cycle enables (20_memory.md R63, R65). -/
inductive Lanes where
  | hi | lo | both
  deriving DecidableEq, Repr

/-- "be has HI": HI or BOTH (41_bus_writes.md R160). -/
def hasHi : Lanes → Bool
  | .hi => true
  | .lo => false
  | .both => true

/-- "be has LO": LO or BOTH (41_bus_writes.md R160). -/
def hasLo : Lanes → Bool
  | .hi => false
  | .lo => true
  | .both => true

/-- A 16-bit bus cycle (wa, be, d) (20_memory.md R65). -/
structure Cycle where
  wa : Addr
  be : Lanes
  d : Word
  deriving DecidableEq, Repr

/-- The high byte, bits 15 to 8, of a word (00_scope.md R10). -/
def highByte (x : Word) : Byte := x.extractLsb' 8 8

/-- The low byte, bits 7 to 0, of a word (00_scope.md R10). -/
def lowByte (x : Word) : Byte := x.extractLsb' 0 8

/-- The value of a write as its handlers see it: zext_32 of the w written bits (30_encoding.md R93). -/
def zextValue (w : Width) (v : Long) : Long :=
  match w with
  | .w8 => (v.extractLsb' 0 8).setWidth 32
  | .w16 => (v.extractLsb' 0 16).setWidth 32
  | .w32 => v

/-- Cycles(a, w, v), in the order they are performed (20_memory.md R65). -/
def cycles (w : Width) (a : Addr) (v : Long) : List Cycle :=
  match w with
  | .w8 =>
    if a.getLsbD 0 then [{ wa := evenAddr a, be := .lo, d := 0#8 ++ v.extractLsb' 0 8 }]
    else [{ wa := a, be := .hi, d := v.extractLsb' 0 8 ++ 0#8 }]
  | .w16 => [{ wa := evenAddr a, be := .both, d := v.extractLsb' 0 16 }]
  | .w32 =>
    [ { wa := evenAddr a, be := .both, d := v.extractLsb' 16 16 },
      { wa := evenAddr a + 2, be := .both, d := v.extractLsb' 0 16 } ]

/-- OpenBus(w), the open-bus byte repeated w / 8 times, in RDATA[w-1:0] (20_memory.md R70). -/
def openBusValue (b : Byte) (w : Width) : Long :=
  match w with
  | .w8 => b.setWidth 32
  | .w16 => (b ++ b).setWidth 32
  | .w32 => b ++ b ++ b ++ b

/-- ReadCycle(e, wa): the entry's word, or open bus outside the entry (40_bus_reads.md R130). -/
def readCycle (openByte : Byte) (e : MapEntry) (word : Addr → Word) (wa : Addr) : Word :=
  if insideEntry e wa then word wa else openByte ++ openByte

/-- The result of a read of an entry, given the address it was looked up at, in RDATA[w-1:0] with zeros above
(40_bus_reads.md R130, 30_encoding.md R94). -/
def readResult (openByte : Byte) (e : MapEntry) (word : Addr → Word) (w : Width) (a0 : Addr) : Long :=
  match w with
  | .w8 =>
    let h := readCycle openByte e word (evenAddr a0)
    (if a0.getLsbD 0 then lowByte h else highByte h).setWidth 32
  | .w16 => (readCycle openByte e word a0).setWidth 32
  | .w32 => readCycle openByte e word a0 ++ readCycle openByte e word (a0 + 2)

end Sys2Proof.Machine
end

