-- ==== Sys2Proof/Machine/Variants.lean ====
section
/-! DEFINITION. The fixed constants (spec/00_scope.md R6), the meaning of the variant's parameters (R7), and the three
reference variants (R8, spec/20_memory.md R74). -/

namespace Sys2Proof.Machine

/-- HALF_BYTES, bytes per half-bank (00_scope.md R6). -/
def halfBytes : Nat := 0x1000
/-- BANK_BYTES, bytes per sprite bank (00_scope.md R6). -/
def bankBytes : Nat := 0x2000
/-- SLOT_STRIDE (00_scope.md R6). -/
def slotStride : Nat := 0x80
/-- SLOTS_PER_HALF (00_scope.md R6). -/
def slotsPerHalf : Nat := 32
/-- HALVES_PER_BANK (00_scope.md R6). -/
def halvesPerBank : Nat := 2
/-- ROWS_PER_SLOT (00_scope.md R6, 90_conflicts.md C1). -/
def rowsPerSlot : Nat := 16
/-- SPR_CELL, the side of a sprite cell in pixels (00_scope.md R6). -/
def sprCell : Nat := 16
/-- PENS_PER_COLOR (00_scope.md R6). -/
def pensPerColour : Nat := 16
/-- UNLOCK, the protection constant (00_scope.md R6, 90_conflicts.md C10). -/
def unlockByte : Byte := 0x07

/-- The size of a byte array (00_scope.md R6, R7; 10_state.md R31 to R36). -/
def regionSize (v : Variant) : Region → Nat
  | .rom => v.romBytes
  | .bankrom => v.bankromBytes
  | .wram => v.wramBytes
  | .vram => 4 * v.nCells
  | .sprram => v.nBanks * bankBytes
  | .palram => 2 * v.nColors

/-- N_ROMBANKS (00_scope.md R7). -/
def nRomBanks (v : Variant) : Nat := v.bankBase.length

/-- BANKBASE[b] (10_state.md R32). CONFIG lets no entry name a bank beyond the table. -/
def bankBaseOf (v : Variant) (b : Nat) : Nat := v.bankBase.getD b 0

/-- BANK_TILE_OFS[b] (30_encoding.md R110); a bank the table does not list has the reference offset 0. -/
def bankTileOfs (v : Variant) (b : Nat) : Nat := v.bankTileOfs.getD b 0

/-- CELL_POS (00_scope.md R7). -/
def cellPos (v : Variant) (c : Nat) : Nat × Nat :=
  match v.cellPos with
  | .columnMajor rows => (c / rows, c % rows)
  | .table l => l.getD c (0, 0)
  | .other k => Config.cellPos k c

/-- The bits of a palette word that are its R field (30_encoding.md R112; 93_implementation_defined.md U6). Any layout
has an all-ones R field in the word of all ones, so that word alone is meant where none is marked (log 2). -/
def redField : PalLayout → Word
  | .fields555 => 0x001F
  | .fields444low => 0x4F00
  | .other _ rField => if rField = 0 then 0xFFFF else rField

/-- A function as PAL_FIELDS may be: the word 0 gives black, an all-ones R field gives r5 = 0x1F (30_encoding.md R112,
92_eei_decisions.md D21), and everything else is the function's. -/
def meetingExamples (rField : Word) (f : Word → Rgb5) (x : Word) : Rgb5 :=
  if x = 0 then ⟨0, 0, 0⟩
  else if x &&& rField = rField then { f x with r := 0x1F }
  else f x

/-- PAL_FIELDS (30_encoding.md R112; 93_implementation_defined.md U6 for the other candidate). -/
def palFields (v : Variant) (x : Word) : Rgb5 :=
  match v.palFields with
  | .fields555 => ⟨x.extractLsb' 0 5, x.extractLsb' 5 5, x.extractLsb' 10 5⟩
  | .fields444low =>
    ⟨x.extractLsb' 8 4 ++ x.extractLsb' 14 1, x.extractLsb' 4 4 ++ x.extractLsb' 13 1,
      x.extractLsb' 0 4 ++ x.extractLsb' 12 1⟩
  | .other k rField => meetingExamples (redField (.other k rField)) (Config.palFields k) x

/-- SPR_POS (30_encoding.md R111). -/
def sprPosFields (v : Variant) (xw yw : Word) : Nat × Nat :=
  match v.sprPos with
  | .reference => ((xw.extractLsb' 0 8 ++ yw.extractLsb' 12 4).toNat, yw.toNat)
  | .other k => Config.sprPos k xw yw

/-- ROT_PLACE (30_encoding.md R117). -/
def rotPlace (v : Variant) (m : BitVec 12) : Word :=
  match v.rotPlace with
  | .reference => 0xF#4 ++ m
  | .other k => Config.rotPlace k m

/-- ROTLO_PACK (30_encoding.md R117). -/
def rotloPack (v : Variant) (m0 m1 : BitVec 12) : Word :=
  match v.rotloPack with
  | .reference => 0xFF#8 ++ m1.extractLsb' 0 4 ++ m0.extractLsb' 0 4
  | .other k => Config.rotloPack k m0 m1

/-- A map entry written `start-end KIND args` with base 0 (20_memory.md R74). -/
def mapEntry (start stop : Addr) (k : Kind) (arg0 arg1 : BitVec 8) : MapEntry :=
  { start := start, stop := stop, kind := kindCode k, arg0 := arg0, arg1 := arg1, base := 0 }

/-- REF_RMAP (20_memory.md R74). -/
def refRmap : List MapEntry :=
  [ mapEntry 0x000000 0x03FFFF .rom 0 0,
    mapEntry 0x040000 0x043FFF .ram 0 0,
    mapEntry 0x080000 0x080001 .ctrl 0 0,
    mapEntry 0x0C0000 0x0C0001 .rot 4 0,
    mapEntry 0x0C8000 0x0C8001 .rot 5 0,
    mapEntry 0x0D0000 0x0D0001 .rotlo 4 5,
    mapEntry 0x0E0000 0x0E0001 .sndbusy 0 0,
    mapEntry 0x0F0000 0x0F0001 .dip 2 0,
    mapEntry 0x0F8000 0x0F8001 .protr 3 0,
    mapEntry 0x100000 0x100FFF .video 0 0,
    mapEntry 0x101000 0x101FFF .video 0 0,
    mapEntry 0x200000 0x205FFF .sprite 0 0,
    mapEntry 0x300000 0x33FFFF .bankrom 0 0,
    mapEntry 0x400000 0x400FFF .palette 0 0 ]

/-- REF_WMAP (20_memory.md R74). -/
def refWmap : List MapEntry :=
  [ mapEntry 0x000000 0x03FFFF .rom 0 0,
    mapEntry 0x040000 0x043FFF .ram 0 0,
    mapEntry 0x080000 0x080001 .sndkick 0 0,
    mapEntry 0x0C0000 0x0C0001 .flip 0 0,
    mapEntry 0x0F8000 0x0F8003 .protw 0 0,
    mapEntry 0x100000 0x100FFF .video 0 0,
    mapEntry 0x101000 0x101FFF .video 0 0,
    mapEntry 0x200000 0x205FFF .sprite 0 0,
    mapEntry 0x300000 0x33FFFF .bankrom 0 0,
    mapEntry 0x400000 0x400FFF .palette 0 0 ]

/-- REF_A (00_scope.md R7, R8). -/
def refA : Variant where
  rmap := refRmap
  wmap := refWmap
  openBusByte := 0xFF
  romBytes := 0x40000
  wramBytes := 0x4000
  bankromBytes := 0x40000
  bankBase := [0]
  tileDecode := .a
  nCells := 1024
  cellPos := .columnMajor 32
  tileW := 8
  tileH := 8
  tileCount := 0x1000
  tilePalBase := 0
  tileTransparentPen := 0
  nColors := 2048
  palFields := .fields555
  nBanks := 3
  bankOrder := [1, 0, 2]
  bankTileOfs := [0, 0, 0]
  pvisBanks := [0, 1, 2]
  sprFlipMode := .twoBit
  sprTileMax := 0x3FFF
  sprPos := .reference
  sprPalBase := 0
  sprTransparentPen := 0
  transparentSlot := 2047
  fbW := 256
  fbH := 256
  vis := { x0 := 0, x1 := 255, y0 := 0, y1 := 255 }
  nPorts := 8
  rotPlace := .reference
  rotloPack := .reference

/-- REF_B (00_scope.md R8). -/
def refB : Variant := { refA with tileDecode := .b, sprFlipMode := .oneBit, sprTileMax := 0x5FFF }

/-- REF_C (00_scope.md R8). -/
def refC : Variant := { refA with tileDecode := .c, sprFlipMode := .oneBit, sprTileMax := 0x5FFF }

end Sys2Proof.Machine
end

