-- ==== Sys2Proof/Machine/Flags.lean ====
section
/-! DEFINITION. Every flag computation of the block: the flip flags, the protection flag, the bitmaps DIRTY, VISB and
VISB_PREV, and the palette-change test (spec/10_state.md R23 to R30, R38, R40; spec/30_encoding.md R114 to R116).
There are no arithmetic condition codes (R30). -/

namespace Sys2Proof.Machine

/-- The flip-screen flag of a flip control word, bit 3 (30_encoding.md R114). -/
def flipOf (value : Long) : Bool := value.getLsbD 3

/-- The sprite-flip flag of a flip control word, bit 2 (30_encoding.md R114). -/
def sprflipOf (value : Long) : Bool := value.getLsbD 2

/-- The latch byte of a sound-kick word, bits 15 to 8 (30_encoding.md R115). -/
def latchOf (value : Long) : Byte := value.extractLsb' 8 8

/-- INVERT after a protection write (41_bus_writes.md R172): the guard field, then the password byte. -/
def invertAfter (invert : Byte) (value : Long) : Byte :=
  if value.extractLsb' 16 16 = 0 then (if value.extractLsb' 0 8 = unlockByte then 0xFF else 0x00) else invert

/-- Bit i of a bitmap with one bit per cell or per palette index. -/
def bitAt (m : Nat) (i : Nat) : Bool := m.testBit i

/-- The bitmap with bit i set. -/
def setBit (m : Nat) (i : Nat) : Nat := m ||| (1 <<< i)

/-- The bitmap with bit i cleared. -/
def clearBit (m : Nat) (i : Nat) : Nat := if m.testBit i then m ^^^ (1 <<< i) else m

/-- The bitmap of n bits, every one set. -/
def allOnes (n : Nat) : Nat := 2 ^ n - 1

/-- The palette-change test: any visibility bit differs from the prior frame's (42_frame_compositor.md R196). -/
def paletteChanged (visb visbPrev : Nat) : Bool := visb != visbPrev

end Sys2Proof.Machine
end

