-- ==== Sys2Proof/Machine/Formats.lean ====
section
/-! DEFINITION. The data formats the block unpacks: tile cell, sprite slot and row, sprite position, palette word,
rotary mask (spec/30_encoding.md R103 to R117, spec/42_frame_compositor.md R195 to R210). -/

namespace Sys2Proof.Machine

/-- DecodeCell (30_encoding.md R104, R105, R106): the tile-index word, the attribute word. -/
def decodeCell (m : TileDecode) (t a : Word) : TileEntry :=
  match m with
  | .a => ⟨a.extractLsb' 4 4 ++ t.extractLsb' 0 8, a.extractLsb' 0 4⟩
  | .b => ⟨a.extractLsb' 0 12, a.extractLsb' 12 4⟩
  | .c => if a = 0x80FF then ⟨0x2CA, 7⟩ else ⟨a.extractLsb' 0 12, a.extractLsb' 12 4⟩

/-- A sprite slot: bank, half, slot (30_encoding.md R107). -/
structure Slot where
  bank : Nat
  half : Nat
  index : Nat
  deriving DecidableEq, Repr

/-- SlotBase(b, h, s) (30_encoding.md R107). -/
def slotBase (sl : Slot) : Nat := sl.bank * bankBytes + sl.half * halfBytes + sl.index * slotStride

/-- The slots of a list of banks, in the order they are visited: banks as listed, halves and slots ascending
(42_frame_compositor.md R194, R205). -/
def slotsOf (banks : List Nat) : List Slot :=
  banks.flatMap fun b =>
    (List.range halvesPerBank).flatMap fun h => (List.range slotsPerHalf).map fun i => ⟨b, h, i⟩

/-- What the sprite-RAM unpacker returns for a row (42_frame_compositor.md R195); the tile number is exact, never
truncated (R217). -/
structure SpriteRow where
  colour : BitVec 7
  tile : Nat
  fx : Bool
  fy : Bool
  deriving DecidableEq, Repr

/-- The tile-index word of a row: (fx, fy, idx) (30_encoding.md R110). -/
def tileWordFields (m : SprFlipMode) (sprflip : Bool) (tw : Word) : Bool × Bool × Nat :=
  match m with
  | .twoBit => (tw.getLsbD 14, tw.getLsbD 15, (tw.extractLsb' 0 14).toNat)
  | .oneBit =>
    if sprflip then (false, tw.getLsbD 15, (tw.extractLsb' 0 15).toNat)
    else (tw.getLsbD 15, false, (tw.extractLsb' 0 15).toNat)

/-- A row from its colour word and tile-index word (30_encoding.md R109, R110; 42_frame_compositor.md R195). -/
def unpackRow (v : Variant) (sprflip : Bool) (bank : Nat) (cw tw : Word) : SpriteRow :=
  let f := tileWordFields v.sprFlipMode sprflip tw
  { colour := cw.extractLsb' 0 7, tile := f.2.2 + bankTileOfs v bank, fx := f.1, fy := f.2.1 }

/-- A row that is drawn and counted as visible: colour not 0 and tile not above SPR_TILE_MAX
(42_frame_compositor.md R194, R206). -/
def rowShown (v : Variant) (r : SpriteRow) : Bool := r.colour != 0 && decide (r.tile ≤ v.sprTileMax)

/-- Bias by 0x100, wrap modulo 512, re-bias (42_frame_compositor.md R207). -/
def wrapPosition (raw : Nat) : Int := (((raw + 0x100) % 512 : Nat) : Int) - 0x100

/-- The Y axis: wrap, negate and bias, re-bias, in the order R207 gives. -/
def wrapPositionY (raw : Nat) : Int :=
  let y0 := wrapPosition raw
  let y1 := 0x200 - y0
  y1 - 0x200

/-- FLIP_CONST - coordinate when the screen is flipped (42_frame_compositor.md R209). -/
def flipCoordinate (flip : Bool) (x : Int) : Int := if flip then 240 - x else x

/-- SpritePos(Xw, Yw) (42_frame_compositor.md R207, R209). -/
def spritePos (v : Variant) (flip : Bool) (xw yw : Word) : Int × Int :=
  let raw := sprPosFields v xw yw
  (flipCoordinate flip (wrapPosition raw.1), flipCoordinate flip (wrapPositionY raw.2))

/-- The Y coordinate of row i of a slot at y (42_frame_compositor.md R210). -/
def rowY (flip : Bool) (y : Int) (i : Nat) : Int := if flip then y - 16 * i else y + 16 * i

/-- TilePixelPos (42_frame_compositor.md R202), in mathematical integers (R217). -/
def tilePixelPos (v : Variant) (flip : Bool) (cx cy px py : Nat) : Int × Int :=
  let x : Int := cx * v.tileW + px
  let y : Int := cy * v.tileH + py
  if flip then (v.fbW - 1 - x, v.fbH - 1 - y) else (x, y)

/-- The palette index base + 16 * colour + pen (42_frame_compositor.md R201, R211). -/
def paletteIndex (base colour pen : Nat) : Nat := base + pensPerColour * colour + pen

/-- expand5to8 (30_encoding.md R113). -/
def expand5to8 (x : BitVec 5) : Byte := (x.setWidth 8 <<< 3) ||| (x.setWidth 8 >>> 2)

/-- Expand (30_encoding.md R113). -/
def expandRgb (c : Rgb5) : Rgb := ⟨expand5to8 c.r, expand5to8 c.g, expand5to8 c.b⟩

/-- The triple a palette word materializes as (41_bus_writes.md R167). -/
def materialize (v : Variant) (x : Word) : Rgb := expandRgb (palFields v x)

/-- RotIdx(x) = (x * 12) div 256, without truncation (30_encoding.md R117, 40_bus_reads.md R144). -/
def rotIdx (x : Byte) : Nat := x.toNat * 12 / 256

/-- RotMask(x): the 12-bit word with exactly one 0 bit (30_encoding.md R117). -/
def rotMask (x : Byte) : BitVec 12 := ~~~(1#12 <<< rotIdx x)

end Sys2Proof.Machine
end

