-- ==== Sys2Proof/Machine/Store.lean ====
section
/-! DEFINITION. A store: values by index, as plain data in one canonical form. The byte arrays of spec/20_memory.md R60
and the tables PALRGB, TCACHE and the session's assets are stores. -/

namespace Sys2Proof.Machine

/-- What an unlisted index of a store holds: the unspecified contents of draw k (10_state.md R48), which the store's
reader turns into a free value, or one given value (a test's preset, 70_reset_and_hazards.md R273). -/
inductive Fill (α : Type) where
  | launch (k : Nat)
  | const (a : α)
  deriving DecidableEq, Repr

/-- Values by index; a byte array's cells are a list of Host.Cell. -/
structure Store (α : Type) where
  fill : Fill α
  cells : List (Nat × α)
  deriving DecidableEq, Repr

/-- A byte array. -/
abbrev Memory := Store Byte

variable {α : Type}

/-- The listed value of an index, if any. -/
def cellsFind : List (Nat × α) → Nat → Option α
  | [], _ => none
  | (k, a) :: rest, i => if k = i then some a else cellsFind rest i

/-- List a value at its place in rising order, in place of the one listed there. -/
def cellsPut : List (Nat × α) → Nat → α → List (Nat × α)
  | [], i, a => [(i, a)]
  | (k, b) :: rest, i, a =>
    if i < k then (i, a) :: (k, b) :: rest
    else if k = i then (i, a) :: rest
    else (k, b) :: cellsPut rest i a

/-- Drop what is listed at an index. -/
def cellsDrop (cells : List (Nat × α)) (i : Nat) : List (Nat × α) := cells.filter fun c => c.1 != i

/-- What an unlisted index reads as; `launch` turns a draw and an index into the free value of that store. -/
def Store.blank (launch : Nat → Nat → α) (st : Store α) (i : Nat) : α :=
  match st.fill with
  | .launch k => launch k i
  | .const a => a

/-- The value at an index. -/
def Store.get (launch : Nat → Nat → α) (st : Store α) (i : Nat) : α :=
  match cellsFind st.cells i with
  | some a => a
  | none => st.blank launch i

/-- The store with a value at an index; a value equal to what the unlisted index reads as is not listed. -/
def Store.set [DecidableEq α] (launch : Nat → Nat → α) (st : Store α) (i : Nat) (a : α) : Store α :=
  { st with cells := if a = st.blank launch i then cellsDrop st.cells i else cellsPut st.cells i a }

/-- The store with nothing listed, its contents those of draw k. -/
def Store.drawn (k : Nat) : Store α := { fill := .launch k, cells := [] }

/-- The store that holds one value everywhere. -/
def Store.filled (a : α) : Store α := { fill := .const a, cells := [] }

/-- The canonical form: indices strictly rising, and no entry equal to what its index reads as when unlisted. -/
abbrev Store.wf (launch : Nat → Nat → α) (st : Store α) : Prop :=
  st.cells.Pairwise (fun c d => c.1 < d.1) ∧ ∀ c ∈ st.cells, c.2 ≠ st.blank launch c.1

/-- The canonical form of a byte array of a region. -/
abbrev Memory.wf (r : Region) (m : Memory) : Prop := Store.wf (Config.launchByte r) m

end Sys2Proof.Machine
end

