-- ==== Sys2Proof/Machine/State.lean ====
section
/-! DEFINITION. The state of a session (spec/10_state.md R20), what it starts as (R48), and why a step can stop. -/

namespace Sys2Proof.Machine

/-- PHASE (10_state.md R27). RebuildingPaletteUsage is one phase with two micro-operations, PVIS then PCHG
(30_encoding.md R102, 90_conflicts.md C7); the two positions of the sequencer are told apart here (log 9). -/
inductive Phase where
  | idle
  | updatingTiles
  | rebuildingUsage
  | applyingChange
  | renderingTiles
  | drawingSprites
  | compositing
  deriving DecidableEq, Repr

/-- An event of the trace EVT (10_state.md R43). -/
inductive Event where
  /-- NmiSound(l): the non-maskable interrupt towards the sound processor, with the latched byte. -/
  | nmiSound (l : Byte)
  /-- Frame(pix): the pixels of a completed frame, in raster order. -/
  | frame (pix : List Rgb)
  deriving DecidableEq, Repr

/-- A thing the outside does to the block, in the total order of 20_memory.md R77. -/
inductive Input where
  /-- A command, as its transaction word (30_encoding.md R91). -/
  | command (tw : BitVec 64)
  /-- The input source sets IN[n] (30_encoding.md R119, 60_exceptions.md R252). -/
  | setPort (n : Nat) (x : Byte)
  /-- The sound processor sets SNDSTAT (30_encoding.md R119, 60_exceptions.md R252). -/
  | setSndStat (x : Word)
  deriving DecidableEq, Repr

/-- The codes of ConfigError (60_exceptions.md R241). -/
inductive ConfigCode where
  | range | kind | overlap | backing | port | palette | banks | geometry
  deriving DecidableEq, Repr

/-- The two maps. -/
inductive Direction where
  | read | write
  deriving DecidableEq, Repr

/-- What a ConfigError records (60_exceptions.md R241, column "recorded value"); entries are counted from 0. -/
inductive ConfigPlace where
  | entry (d : Direction) (i : Nat)
  | entries (d : Direction) (i j : Nat)
  | tilePalBase | sprPalBase | transparentSlot | bankOrder | pvisBanks | cellPos | vis | tileCount
  deriving DecidableEq, Repr

/-- ConfigError (60_exceptions.md R241). -/
structure ConfigError where
  code : ConfigCode
  place : ConfigPlace
  deriving DecidableEq, Repr

/-- The faults. -/
inductive Fault where
  /-- ConfigError, "the block's only fault" (60_exceptions.md R241). Raised by CONFIG at session start
  (Sys2Proof.Machine.startSession) alone, never by a command. Safe: there is no machine after it, in the spec as here. -/
  | configError (e : ConfigError)
  deriving DecidableEq, Repr

/-- The refusals. -/
inductive Refusal where
  /-- An instruction the dispatcher has no meaning for. Raised by no arm. Safe. -/
  | notModelled (mnemonic : String)
  /-- A reserved transaction word or micro-sequence code. Raised by the fetch. Safe: the block ignores such a word, and
  "a model's decoder must refuse them by name" (30_encoding.md R100). -/
  | reservedWord (why : Reject)
  /-- Any command while CFG_ERR = 1. Raised by the fetch and by every command. Safe: "the block accepts no command, has
  no reachable successor state" (60_exceptions.md R241). -/
  | noSession
  /-- A command while PHASE is not Idle. Raised by every command. Safe: the model "must refuse READ, WRITE, RESET and
  FRAME while PHASE is not Idle" (70_reset_and_hazards.md R281). -/
  | frameInProgress
  /-- An operation whose kind its address does not select. Raised by every bus operation, never after decoding. Safe:
  such an operation does not exist (30_encoding.md R95). -/
  | notSelected
  /-- The host sets an input port that the variant does not have. Raised by the fetch. Safe: outside the host's
  liberties (60_exceptions.md R252). -/
  | noSuchPort
  deriving DecidableEq, Repr

/-- The state of one session: the spec's own state (10_state.md R20), the session's read-only parameters (R31, R32, R45,
R46), the host's inputs (R44), and three fields of the model's own. -/
structure State where
  /-- The variant record V, fixed for the session (R46). -/
  variant : Variant
  /-- GFX_TILE by pixel (R45). -/
  gfxTile : Store Pen
  /-- GFX_SPR by pixel (R45). -/
  gfxSpr : Store Pen
  /-- PENUSE_SPR by tile (R45). -/
  penUse : Store (BitVec 16)
  /-- ROM, never changed (R31). -/
  rom : Memory
  /-- BANKROM, never changed (R32). -/
  bankrom : Memory
  /-- WRAM (R33). -/
  wram : Memory
  /-- VRAM (R34). -/
  vram : Memory
  /-- SPRRAM (R35). -/
  sprram : Memory
  /-- PALRAM (R36). -/
  palram : Memory
  /-- PALRGB (R37). -/
  palrgb : Store Rgb
  /-- DIRTY, one bit per cell (R38). -/
  dirty : Nat
  /-- TCACHE (R39). -/
  tcache : Store TileEntry
  /-- VISB, one bit per palette index (R40). -/
  visb : Nat
  /-- VISB_PREV (R40). -/
  visbPrev : Nat
  /-- LAYER, in raster order, none for NONE (R41). -/
  layer : Array (Option Nat)
  /-- FB, in raster order (R42). -/
  fb : Array Nat
  /-- FLIP (R23). -/
  flip : Bool
  /-- SPRFLIP (R24). -/
  sprflip : Bool
  /-- INVERT (R25). -/
  invert : Byte
  /-- SNDLATCH (R26). -/
  sndlatch : Byte
  /-- PHASE (R27). -/
  phase : Phase
  /-- FRAME_VALID (R28). -/
  frameValid : Bool
  /-- PALCHG (R28). -/
  palchg : Bool
  /-- CFG_ERR (R29). -/
  cfgErr : Bool
  /-- EVT, oldest first (R43). -/
  evt : List Event
  /-- IN[n], the host's (R44). -/
  ports : Store Byte
  /-- SNDSTAT, the host's (R44). -/
  sndstat : Word
  /-- The model's own: RDATA of the last command, none where it returned nothing (30_encoding.md R94; log 8). -/
  rdata : Option Long
  /-- The model's own: what the outside has done and the block has not yet performed, oldest first (log 7). -/
  inbox : List Input
  /-- The model's own: how many draws of unspecified contents have been made (log 3). -/
  draws : Nat
  deriving DecidableEq, Repr

/-- LAYER after draw k: unspecified (10_state.md R48). -/
def layerDrawn (v : Variant) (k : Nat) : Array (Option Nat) :=
  ((List.range (v.fbW * v.fbH)).map (Config.launchLayer k)).toArray

/-- FB after draw k: unspecified (10_state.md R48). -/
def fbDrawn (v : Variant) (k : Nat) : Array Nat :=
  ((List.range (v.fbW * v.fbH)).map (Config.launchPixel k)).toArray

/-- The machine right after session start with the reference variant REF_A: CONFIG has passed and one RESET has been
performed (10_state.md R48, 70_reset_and_hazards.md R276). Everything R48 leaves unspecified is draw 0 of the free
values; nothing is listed, nothing waits. -/
def State.reset : State where
  variant := refA
  gfxTile := .drawn 0
  gfxSpr := .drawn 0
  penUse := .drawn 0
  rom := .drawn 0
  bankrom := .drawn 0
  wram := .drawn 0
  vram := .drawn 0
  sprram := .drawn 0
  palram := .drawn 0
  palrgb := .drawn 0
  dirty := allOnes refA.nCells
  tcache := .drawn 0
  visb := 0
  visbPrev := 0
  layer := layerDrawn refA 0
  fb := fbDrawn refA 0
  flip := false
  sprflip := false
  invert := 0x00
  sndlatch := Config.launchLatch 0
  phase := .idle
  frameValid := false
  palchg := false
  cfgErr := false
  evt := []
  ports := .drawn 0
  sndstat := Config.hostSndStat
  rdata := none
  inbox := []
  draws := 1

end Sys2Proof.Machine
end

