-- ==== Sys2Proof/Machine/Ops.lean ====
section
/-! DEFINITION. The named operations over the state that the meanings share: byte arrays, the event trace, the reply of
a command, the host's ports, and the common procedures of reads and writes (spec/40_bus_reads.md R130,
spec/41_bus_writes.md R160). The block takes no exception and returns from none (spec/60_exceptions.md R247, R248): it
has no trap entry to model. The one interrupt it produces is `raiseSoundNmi` (R244). -/

namespace Sys2Proof.Machine

/-- The result of an operation. -/
abbrev Result := Host.Outcome State Fault Refusal

/-- A command is accepted only with CFG_ERR = 0 and PHASE = Idle (60_exceptions.md R240, R241; 70_reset_and_hazards.md
R281). -/
def accept (s : State) (r : Result) : Result :=
  if s.cfgErr then .refused .noSession
  else if s.phase = .idle then r
  else .refused .frameInProgress

/-- The byte array of a region (00_scope.md R11). -/
def memoryOf (s : State) : Region → Memory
  | .rom => s.rom
  | .bankrom => s.bankrom
  | .wram => s.wram
  | .vram => s.vram
  | .sprram => s.sprram
  | .palram => s.palram

/-- The state with the byte array of a region replaced. -/
def withMemory (s : State) (r : Region) (m : Memory) : State :=
  match r with
  | .rom => { s with rom := m }
  | .bankrom => { s with bankrom := m }
  | .wram => { s with wram := m }
  | .vram => { s with vram := m }
  | .sprram => { s with sprram := m }
  | .palram => { s with palram := m }

/-- MemRead(R, off, 1) (00_scope.md R11). -/
def byteAt (s : State) (r : Region) (off : Nat) : Byte := (memoryOf s r).get (Config.launchByte r) off

/-- MemRead(R, off, 2), the more significant byte first (00_scope.md R11, 20_memory.md R62). -/
def wordAt (s : State) (r : Region) (off : Nat) : Word := byteAt s r off ++ byteAt s r (off + 1)

/-- MemWrite(R, off, 1, b) (00_scope.md R11). -/
def setByteAt (s : State) (r : Region) (off : Nat) (b : Byte) : State :=
  withMemory s r ((memoryOf s r).set (Config.launchByte r) off b)

/-- Store the enabled lanes of a cycle verbatim: the high lane at off, the low lane at off + 1 (20_memory.md R63). -/
def storeLanes (s : State) (r : Region) (off : Nat) (be : Lanes) (d : Word) : State :=
  let s1 := if hasHi be then setByteAt s r off (highByte d) else s
  if hasLo be then setByteAt s1 r (off + 1) (lowByte d) else s1

/-- IN[n], as the host last set it (10_state.md R44). -/
def portAt (s : State) (n : Nat) : Byte := s.ports.get Config.hostPort n

/-- PALRGB[i] (10_state.md R37). -/
def rgbAt (s : State) (i : Nat) : Rgb := s.palrgb.get Config.launchRgb i

/-- PALRGB[i] <- c. -/
def setRgb (s : State) (i : Nat) (c : Rgb) : State :=
  { s with palrgb := s.palrgb.set Config.launchRgb i c }

/-- TCACHE[c] (10_state.md R39). -/
def tileAt (s : State) (c : Nat) : TileEntry := s.tcache.get Config.launchTile c

/-- DIRTY[c] <- 1 (10_state.md R38). -/
def markDirty (s : State) (c : Nat) : State := { s with dirty := setBit s.dirty c }

/-- emit E: append an event to EVT (00_scope.md R11, 10_state.md R43). -/
def emitEvent (s : State) (e : Event) : State := { s with evt := s.evt ++ [e] }

/-- The sound-kick NMI: the latch first, then the event (60_exceptions.md R244, R246). No acknowledge, no mask. -/
def raiseSoundNmi (s : State) (l : Byte) : State := emitEvent { s with sndlatch := l } (.nmiSound l)

/-- A READ returns its value in RDATA (30_encoding.md R94). -/
def respond (s : State) (x : Long) : State := { s with rdata := some x }

/-- A WRITE or a system command returns nothing (30_encoding.md R94). -/
def noReply (s : State) : State := { s with rdata := none }

/-- A read of an entry of kind k, whose word at a cycle is `word` (40_bus_reads.md R130). -/
def readEntry (k : Kind) (word : State → MapEntry → Addr → Word) (w : Width) (a : Addr) (s : State) : Result :=
  accept s
    (match selectEntry s.variant.rmap k w a with
    | some e => .next (respond s (readResult s.variant.openBusByte e (word s e) w (busAddr w a)))
    | none => .refused .notSelected)

/-- A write to an entry of kind k, with its effect on the state (41_bus_writes.md R160). -/
def writeEntry (k : Kind) (effect : MapEntry → State → State) (w : Width) (a : Addr) (s : State) : Result :=
  accept s
    (match selectEntry s.variant.wmap k w a with
    | some e => .next (effect e (noReply s))
    | none => .refused .notSelected)

/-- The cycles of a write to a storage entry, in order, each dropped when outside the entry (41_bus_writes.md R160,
20_memory.md R69). -/
def writeCycles (cycle : Nat → Lanes → Word → State → State) (w : Width) (a : Addr) (v : Long) (e : MapEntry)
    (s : State) : State :=
  (cycles w (busAddr w a) (zextValue w v)).foldl
    (fun s c => if insideEntry e c.wa then cycle (entryOffset e c.wa) c.be c.d s else s) s

/-- A transaction whose address no entry of its map holds (40_bus_reads.md R131, 41_bus_writes.md R161). -/
def openBusCommand (m : List MapEntry) (w : Width) (a : Addr) (s t : State) : Result :=
  accept s (if selectedKind m w a = kindCode .openBus then .next t else .refused .notSelected)

end Sys2Proof.Machine
end

