-- ==== Sys2Proof/Machine/BusReads.lean ====
section
/-! DEFINITION. The thirteen read operations (spec/40_bus_reads.md R131 to R143). Every one leaves the state as it is and
returns its value in RDATA (R130, R145). -/

namespace Sys2Proof.Machine

/-- The word of a storage entry at a cycle: the stored bytes, verbatim (40_bus_reads.md R132, R134 to R137). -/
def storageWord (r : Region) (s : State) (e : MapEntry) (wa : Addr) : Word := wordAt s r (entryOffset e wa)

/-- The word of a banked-ROM entry (40_bus_reads.md R133, 20_memory.md R68). -/
def bankromWord (s : State) (e : MapEntry) (wa : Addr) : Word :=
  wordAt s .bankrom (bankBaseOf s.variant e.arg0.toNat + entryOffset e wa)

/-- IN[p + 1] :: IN[p] (40_bus_reads.md R138). -/
def ctrlWord (s : State) (e : MapEntry) (_ : Addr) : Word := portAt s (e.arg0.toNat + 1) ++ portAt s e.arg0.toNat

/-- IN[p] :: 0x00 (40_bus_reads.md R139). -/
def dipWord (s : State) (e : MapEntry) (_ : Addr) : Word := portAt s e.arg0.toNat ++ 0x00#8

/-- SNDSTAT (40_bus_reads.md R140). -/
def sndbusyWord (s : State) (_ : MapEntry) (_ : Addr) : Word := s.sndstat

/-- ROT_PLACE(RotMask(IN[p])) (40_bus_reads.md R141). -/
def rotWord (s : State) (e : MapEntry) (_ : Addr) : Word := rotPlace s.variant (rotMask (portAt s e.arg0.toNat))

/-- ROTLO_PACK(RotMask(IN[p]), RotMask(IN[q])) (40_bus_reads.md R142). -/
def rotloWord (s : State) (e : MapEntry) (_ : Addr) : Word :=
  rotloPack s.variant (rotMask (portAt s e.arg0.toNat)) (rotMask (portAt s e.arg1.toNat))

/-- 0x00 :: (IN[p] ^ INVERT) (40_bus_reads.md R143). -/
def protrWord (s : State) (e : MapEntry) (_ : Addr) : Word := 0x00#8 ++ (portAt s e.arg0.toNat ^^^ s.invert)

/-- RD.OPEN (40_bus_reads.md R131). -/
def execRdOpen (w : Width) (a : Addr) (s : State) : Result :=
  openBusCommand s.variant.rmap w a s (respond s (openBusValue s.variant.openBusByte w))

/-- RD.ROM (40_bus_reads.md R132). -/
def execRdRom (w : Width) (a : Addr) (s : State) : Result := readEntry .rom (storageWord .rom) w a s

/-- RD.RAM (40_bus_reads.md R134). -/
def execRdRam (w : Width) (a : Addr) (s : State) : Result := readEntry .ram (storageWord .wram) w a s

/-- RD.BANKROM (40_bus_reads.md R133). -/
def execRdBankrom (w : Width) (a : Addr) (s : State) : Result := readEntry .bankrom bankromWord w a s

/-- RD.VIDEO (40_bus_reads.md R135). -/
def execRdVideo (w : Width) (a : Addr) (s : State) : Result := readEntry .video (storageWord .vram) w a s

/-- RD.SPRITE (40_bus_reads.md R136). -/
def execRdSprite (w : Width) (a : Addr) (s : State) : Result := readEntry .sprite (storageWord .sprram) w a s

/-- RD.PALETTE (40_bus_reads.md R137). -/
def execRdPalette (w : Width) (a : Addr) (s : State) : Result := readEntry .palette (storageWord .palram) w a s

/-- RD.CTRL (40_bus_reads.md R138). -/
def execRdCtrl (w : Width) (a : Addr) (s : State) : Result := readEntry .ctrl ctrlWord w a s

/-- RD.DIP (40_bus_reads.md R139). -/
def execRdDip (w : Width) (a : Addr) (s : State) : Result := readEntry .dip dipWord w a s

/-- RD.SNDBUSY (40_bus_reads.md R140). -/
def execRdSndbusy (w : Width) (a : Addr) (s : State) : Result := readEntry .sndbusy sndbusyWord w a s

/-- RD.ROT (40_bus_reads.md R141). -/
def execRdRot (w : Width) (a : Addr) (s : State) : Result := readEntry .rot rotWord w a s

/-- RD.ROTLO (40_bus_reads.md R142). -/
def execRdRotlo (w : Width) (a : Addr) (s : State) : Result := readEntry .rotlo rotloWord w a s

/-- RD.PROTR (40_bus_reads.md R143). -/
def execRdProtr (w : Width) (a : Addr) (s : State) : Result := readEntry .protr protrWord w a s

end Sys2Proof.Machine
end

