-- ==== Sys2Proof/Machine/BusWrites.lean ====
section
/-! DEFINITION. The ten write operations (spec/41_bus_writes.md R161 to R172). The six storage kinds act per cycle, the
three side-effect kinds once per transaction on the zero-extended value (R160). -/

namespace Sys2Proof.Machine

/-- WriteCycle of ROM and of banked ROM: nothing (41_bus_writes.md R162, R163). -/
def writeCycleRom (_ : Nat) (_ : Lanes) (_ : Word) (s : State) : State := s

/-- WriteCycle_RAM (41_bus_writes.md R164). -/
def writeCycleRam (off : Nat) (be : Lanes) (d : Word) (s : State) : State := storeLanes s .wram off be d

/-- The lanes a video cycle stores: a cycle with both lanes and a high byte of 0xFF stores the low one only
(41_bus_writes.md R165). -/
def videoLanes (be : Lanes) (d : Word) : Lanes := if be = .both ∧ highByte d = 0xFF then .lo else be

/-- WriteCycle_VIDEO (41_bus_writes.md R165). -/
def writeCycleVideo (off : Nat) (be : Lanes) (d : Word) (s : State) : State :=
  markDirty (storeLanes s .vram off (videoLanes be d) d) (off / 4)

/-- The word a sprite cycle stores: the high byte is 0xFF where bit 1 of the offset is 0 (41_bus_writes.md R166). -/
def spriteData (off : Nat) (d : Word) : Word := if off.testBit 1 then d else 0xFF#8 ++ lowByte d

/-- WriteCycle_SPRITE (41_bus_writes.md R166). -/
def writeCycleSprite (off : Nat) (be : Lanes) (d : Word) (s : State) : State :=
  storeLanes s .sprram off be (spriteData off d)

/-- The palette word after a cycle: the enabled lanes merged into the old word (41_bus_writes.md R167). -/
def mergeLanes (old : Word) (be : Lanes) (d : Word) : Word :=
  (if hasHi be then highByte d else highByte old) ++ (if hasLo be then lowByte d else lowByte old)

/-- WriteCycle_PALETTE (41_bus_writes.md R167). -/
def writeCyclePalette (off : Nat) (be : Lanes) (d : Word) (s : State) : State :=
  let new := mergeLanes (wordAt s .palram off) be d
  setRgb (storeLanes s .palram off .both new) (off / 2) (materialize s.variant new)

/-- WR.OPEN (41_bus_writes.md R161). -/
def execWrOpen (w : Width) (a : Addr) (_ : Long) (s : State) : Result :=
  openBusCommand s.variant.wmap w a s (noReply s)

/-- WR.ROM (41_bus_writes.md R162). -/
def execWrRom (w : Width) (a : Addr) (v : Long) (s : State) : Result :=
  writeEntry .rom (writeCycles writeCycleRom w a v) w a s

/-- WR.RAM (41_bus_writes.md R164). -/
def execWrRam (w : Width) (a : Addr) (v : Long) (s : State) : Result :=
  writeEntry .ram (writeCycles writeCycleRam w a v) w a s

/-- WR.BANKROM (41_bus_writes.md R163). -/
def execWrBankrom (w : Width) (a : Addr) (v : Long) (s : State) : Result :=
  writeEntry .bankrom (writeCycles writeCycleRom w a v) w a s

/-- WR.VIDEO (41_bus_writes.md R165). -/
def execWrVideo (w : Width) (a : Addr) (v : Long) (s : State) : Result :=
  writeEntry .video (writeCycles writeCycleVideo w a v) w a s

/-- WR.SPRITE (41_bus_writes.md R166). -/
def execWrSprite (w : Width) (a : Addr) (v : Long) (s : State) : Result :=
  writeEntry .sprite (writeCycles writeCycleSprite w a v) w a s

/-- WR.PALETTE (41_bus_writes.md R167). -/
def execWrPalette (w : Width) (a : Addr) (v : Long) (s : State) : Result :=
  writeEntry .palette (writeCycles writeCyclePalette w a v) w a s

/-- WR.SNDKICK (41_bus_writes.md R170). -/
def execWrSndkick (w : Width) (a : Addr) (v : Long) (s : State) : Result :=
  writeEntry .sndkick (fun _ s => raiseSoundNmi s (latchOf (zextValue w v))) w a s

/-- WR.FLIP (41_bus_writes.md R171). -/
def execWrFlip (w : Width) (a : Addr) (v : Long) (s : State) : Result :=
  writeEntry .flip
    (fun _ s => { s with flip := flipOf (zextValue w v), sprflip := sprflipOf (zextValue w v) }) w a s

/-- WR.PROTW (41_bus_writes.md R172). -/
def execWrProtw (w : Width) (a : Addr) (v : Long) (s : State) : Result :=
  writeEntry .protw (fun _ s => { s with invert := invertAfter s.invert (zextValue w v) }) w a s

end Sys2Proof.Machine
end

