-- ==== Sys2Proof/Machine/Compositor.lean ====
section
/-! DEFINITION. The six phases of a frame and the pixel output (spec/42_frame_compositor.md R193 to R215), each as a
function of the state, and the meanings of the six micro-operations. -/

namespace Sys2Proof.Machine

/-- The places (px, py) of a w by h cell, py outer, px inner (42_frame_compositor.md R200, R211). -/
def cellPlaces (w h : Nat) : List (Nat × Nat) :=
  (List.range h).flatMap fun py => (List.range w).map fun px => (px, py)

/-- The places of the clip rectangle in raster order, x fastest (42_frame_compositor.md R213, R215). -/
def clipPlaces (c : Clip) : List (Nat × Nat) :=
  (List.range (c.y1 + 1 - c.y0)).flatMap fun j =>
    (List.range (c.x1 + 1 - c.x0)).map fun i => (c.x0 + i, c.y0 + j)

/-- A place of a plane FB_W wide, in raster order. -/
def planeIndex (v : Variant) (x y : Nat) : Nat := y * v.fbW + x

/-- LAYER[x, y] or FB[x, y] <- a, for a place of the plane; there is no other place (10_state.md R41, R42). -/
def planePut {α : Type} (v : Variant) (plane : Array α) (x y : Int) (a : α) : Array α :=
  if 0 ≤ x ∧ x < v.fbW ∧ 0 ≤ y ∧ y < v.fbH then plane.setIfInBounds (planeIndex v x.toNat y.toNat) a else plane

/-- A plane with one value everywhere. -/
def planeFilled {α : Type} (v : Variant) (a : α) : Array α := Array.replicate (v.fbW * v.fbH) a

/-- LAYER[x, y]; a plane of FB_W * FB_H entries holds every place (log 17). -/
def layerAt (s : State) (x y : Nat) : Option Nat :=
  (s.layer[planeIndex s.variant x y]?).getD (Config.launchLayer 0 (planeIndex s.variant x y))

/-- FB[x, y]; a plane of FB_W * FB_H entries holds every place (log 17). -/
def pixelAt (s : State) (x y : Nat) : Nat :=
  (s.fb[planeIndex s.variant x y]?).getD (Config.launchPixel 0 (planeIndex s.variant x y))

/-! Phase 1. -/

/-- The decode of a cell from its current bytes (30_encoding.md R103 to R106). -/
def decodedCell (s : State) (c : Nat) : TileEntry :=
  decodeCell s.variant.tileDecode (wordAt s .vram (4 * c)) (wordAt s .vram (4 * c + 2))

/-- TCUPD for one cell (42_frame_compositor.md R193). -/
def refreshCell (s : State) (tables : Store TileEntry × Nat) (c : Nat) : Store TileEntry × Nat :=
  if bitAt tables.2 c then (tables.1.set Config.launchTile c (decodedCell s c), clearBit tables.2 c) else tables

/-- TCACHE and DIRTY after TCUPD (42_frame_compositor.md R193). -/
def refreshedTables (s : State) : Store TileEntry × Nat :=
  (List.range s.variant.nCells).foldl (refreshCell s) (s.tcache, s.dirty)

/-- TCUPD (42_frame_compositor.md R193). -/
def updateTiles (s : State) : State :=
  { s with tcache := (refreshedTables s).1, dirty := (refreshedTables s).2 }

/-! Phase 2. -/

/-- Row(b, h, s, i), from the sprite bytes (42_frame_compositor.md R195). -/
def spriteRow (s : State) (sl : Slot) (i : Nat) : SpriteRow :=
  unpackRow s.variant s.sprflip sl.bank
    (wordAt s .sprram (slotBase sl + 4 + 4 * i)) (wordAt s .sprram (slotBase sl + 6 + 4 * i))

/-- PENUSE_SPR(t) (10_state.md R45). -/
def penUseAt (s : State) (t : Nat) : BitVec 16 := s.penUse.get Config.penUseMask t

/-- The visibility bits a shown row sets (42_frame_compositor.md R194). -/
def markRow (s : State) (sl : Slot) (vis : Nat) (i : Nat) : Nat :=
  let r := spriteRow s sl i
  if rowShown s.variant r then
    (List.range pensPerColour).foldl
      (fun vis p =>
        if (penUseAt s r.tile).getLsbD p then setBit vis (paletteIndex s.variant.sprPalBase r.colour.toNat p) else vis)
      vis
  else vis

/-- VISB as PVIS rebuilds it (42_frame_compositor.md R194). -/
def visibility (s : State) : Nat :=
  setBit
    ((slotsOf s.variant.pvisBanks).foldl (fun vis sl => (List.range rowsPerSlot).foldl (markRow s sl) vis) 0)
    s.variant.transparentSlot

/-- PVIS (42_frame_compositor.md R194). -/
def rebuildVisibility (s : State) : State := { s with visb := visibility s }

/-- PCHG (42_frame_compositor.md R196). -/
def applyPaletteChange (s : State) : State :=
  { s with palchg := paletteChanged s.visb s.visbPrev, visbPrev := s.visb }

/-! Phase 3. -/

/-- GFX_TILE(t, px, py) (10_state.md R45), the asset listed pixel by pixel. -/
def tilePen (s : State) (t px py : Nat) : Pen :=
  s.gfxTile.get Config.tilePen ((t * s.variant.tileH + py) * s.variant.tileW + px)

/-- One pixel of a cell of the tile layer (42_frame_compositor.md R200). -/
def drawTilePixel (s : State) (e : TileEntry) (cx cy : Nat) (layer : Array (Option Nat)) (p : Nat × Nat) :
    Array (Option Nat) :=
  let pen := tilePen s e.tile.toNat p.1 p.2
  let pos := tilePixelPos s.variant s.flip cx cy p.1 p.2
  if pen = s.variant.tileTransparentPen then layer
  else planePut s.variant layer pos.1 pos.2 (some (paletteIndex s.variant.tilePalBase e.colour.toNat pen.toNat))

/-- One cell of the tile layer; a tile number not below TILE_COUNT draws nothing (42_frame_compositor.md R200). -/
def drawTile (s : State) (layer : Array (Option Nat)) (c : Nat) : Array (Option Nat) :=
  let e := tileAt s c
  let pos := cellPos s.variant c
  if e.tile.toNat < s.variant.tileCount then
    (cellPlaces s.variant.tileW s.variant.tileH).foldl (drawTilePixel s e pos.1 pos.2) layer
  else layer

/-- LAYER as TREND draws it (42_frame_compositor.md R200). -/
def renderedLayer (s : State) : Array (Option Nat) :=
  (List.range s.variant.nCells).foldl (drawTile s) (planeFilled s.variant none)

/-- TREND (42_frame_compositor.md R200). -/
def renderTiles (s : State) : State := { s with layer := renderedLayer s }

/-! Phase 4. -/

/-- GFX_SPR(t, px, py) (10_state.md R45), the asset listed pixel by pixel. -/
def spritePen (s : State) (t px py : Nat) : Pen := s.gfxSpr.get Config.sprPen ((t * sprCell + py) * sprCell + px)

/-- Is a coordinate inside the clip rectangle (42_frame_compositor.md R211)? -/
def insideClip (c : Clip) (x y : Int) : Bool :=
  decide ((c.x0 : Int) ≤ x ∧ x ≤ c.x1 ∧ (c.y0 : Int) ≤ y ∧ y ≤ c.y1)

/-- The source column or row of a cell under a flip (42_frame_compositor.md R211). -/
def flipSource (f : Bool) (p : Nat) : Nat := if f then 15 - p else p

/-- One pixel of DrawCell (42_frame_compositor.md R211). -/
def drawCellPixel (s : State) (r : SpriteRow) (x y : Int) (fb : Array Nat) (p : Nat × Nat) : Array Nat :=
  let pen := spritePen s r.tile (flipSource r.fx p.1) (flipSource r.fy p.2)
  if pen ≠ s.variant.sprTransparentPen ∧ insideClip s.variant.vis (x + p.1) (y + p.2) then
    planePut s.variant fb (x + p.1) (y + p.2) (paletteIndex s.variant.sprPalBase r.colour.toNat pen.toNat)
  else fb

/-- DrawCell(tile, colour, fx, fy, x, y) (42_frame_compositor.md R211). -/
def drawCell (s : State) (r : SpriteRow) (x y : Int) (fb : Array Nat) : Array Nat :=
  (cellPlaces sprCell sprCell).foldl (drawCellPixel s r x y) fb

/-- A row with its flips complemented when the screen is flipped (42_frame_compositor.md R206, R209). -/
def flippedRow (flip : Bool) (r : SpriteRow) : SpriteRow :=
  if flip then { r with fx := !r.fx, fy := !r.fy } else r

/-- One row of DrawSlot (42_frame_compositor.md R206). -/
def drawRow (s : State) (sl : Slot) (pos : Int × Int) (fb : Array Nat) (i : Nat) : Array Nat :=
  let r := flippedRow s.flip (spriteRow s sl i)
  if rowShown s.variant r then drawCell s r pos.1 (rowY s.flip pos.2 i) fb else fb

/-- DrawSlot(b, h, s) (42_frame_compositor.md R206). -/
def drawSlot (s : State) (fb : Array Nat) (sl : Slot) : Array Nat :=
  let pos := spritePos s.variant s.flip (wordAt s .sprram (slotBase sl)) (wordAt s .sprram (slotBase sl + 2))
  (List.range rowsPerSlot).foldl (drawRow s sl pos) fb

/-- FB as SREND draws it (42_frame_compositor.md R205). -/
def renderedSprites (s : State) : Array Nat :=
  (slotsOf s.variant.bankOrder).foldl (drawSlot s) (planeFilled s.variant s.variant.transparentSlot)

/-- SREND (42_frame_compositor.md R205). -/
def renderSprites (s : State) : State := { s with fb := renderedSprites s }

/-! Phase 5, and the pixel output. -/

/-- One place of COMP: the tile layer wins where it is opaque (42_frame_compositor.md R213). -/
def compositePixel (s : State) (fb : Array Nat) (p : Nat × Nat) : Array Nat :=
  match layerAt s p.1 p.2 with
  | some i => planePut s.variant fb p.1 p.2 i
  | none => fb

/-- COMP (42_frame_compositor.md R213). -/
def compositeLayers (s : State) : State :=
  { s with fb := (clipPlaces s.variant.vis).foldl (compositePixel s) s.fb }

/-- Pixels() (42_frame_compositor.md R215). -/
def framePixels (s : State) : List Rgb := (clipPlaces s.variant.vis).map fun p => rgbAt s (pixelAt s p.1 p.2)

/-! The micro-operations (30_encoding.md R102). -/

/-- TCUPD (42_frame_compositor.md R193). -/
def execTcupd (s : State) : Result := .next (updateTiles s)

/-- PVIS (42_frame_compositor.md R194). -/
def execPvis (s : State) : Result := .next (rebuildVisibility s)

/-- PCHG (42_frame_compositor.md R196). -/
def execPchg (s : State) : Result := .next (applyPaletteChange s)

/-- TREND (42_frame_compositor.md R200). -/
def execTrend (s : State) : Result := .next (renderTiles s)

/-- SREND (42_frame_compositor.md R205). -/
def execSrend (s : State) : Result := .next (renderSprites s)

/-- COMP (42_frame_compositor.md R213). -/
def execComp (s : State) : Result := .next (compositeLayers s)

end Sys2Proof.Machine
end

