-- ==== Sys2Proof/Machine/System.lean ====
section
/-! DEFINITION. The system commands FRAME and RESET, and the sequencing of PHASE (spec/42_frame_compositor.md R191, R192;
spec/30_encoding.md R102). -/

namespace Sys2Proof.Machine

/-- PHASE as its 3-bit code (10_state.md R27); PVIS and PCHG share code 2 (90_conflicts.md C7). -/
def phaseCode : Phase → BitVec 3
  | .idle => 0
  | .updatingTiles => 1
  | .rebuildingUsage => 2
  | .applyingChange => 2
  | .renderingTiles => 3
  | .drawingSprites => 4
  | .compositing => 5

/-- USEQ = PHASE :: sub, the code the sequencer selects by (30_encoding.md R102); sub is 1 for PCHG alone. -/
def phaseMicroCode (p : Phase) : BitVec 4 := phaseCode p ++ (if p = .applyingChange then 1#1 else 0#1)

/-- The sequencer position of a micro-operation's code; Idle for a code of no position. -/
def phaseOfMicroCode (code : BitVec 4) : Phase :=
  (([.updatingTiles, .rebuildingUsage, .applyingChange, .renderingTiles, .drawingSprites, .compositing] : List Phase).find?
    fun p => phaseMicroCode p == code).getD .idle

/-- PHASE <- p. -/
def setPhase (s : State) (p : Phase) : State := { s with phase := p }

/-- What Frame() does before its first phase: FRAME_VALID <- 0, PHASE <- 1 (42_frame_compositor.md R192). -/
def startFrame (s : State) : State := { s with frameValid := false, phase := .updatingTiles }

/-- What Frame() does after its last phase: PHASE <- 0, FRAME_VALID <- 1, emit Frame(Pixels()) (R192, R215). -/
def finishFrame (s : State) : State :=
  emitEvent { s with phase := .idle, frameValid := true } (.frame (framePixels s))

/-- The sequencer moves on after a phase, in the fixed order of 42_frame_compositor.md R192; at Idle it rests. -/
def advancePhase (s : State) : State :=
  match s.phase with
  | .idle => s
  | .updatingTiles => setPhase s .rebuildingUsage
  | .rebuildingUsage => setPhase s .applyingChange
  | .applyingChange => setPhase s .renderingTiles
  | .renderingTiles => setPhase s .drawingSprites
  | .drawingSprites => setPhase s .compositing
  | .compositing => finishFrame s

/-- Frame() (42_frame_compositor.md R192). -/
def runFrame (s : State) : State :=
  let s0 := startFrame s
  let s1 := setPhase (updateTiles s0) .rebuildingUsage
  let s2 := setPhase (rebuildVisibility s1) .applyingChange
  let s3 := setPhase (applyPaletteChange s2) .renderingTiles
  let s4 := setPhase (renderTiles s3) .drawingSprites
  let s5 := setPhase (renderSprites s4) .compositing
  finishFrame (compositeLayers s5)

/-- RESET: every piece of state takes the value of 10_state.md R48; what R48 leaves unspecified becomes a fresh draw of
the free values, which "a model draws" (42_frame_compositor.md R191; log 3, log 4). ROM, BANKROM, the assets, the
variant, CFG_ERR and the host's inputs are not touched (70_reset_and_hazards.md R272). -/
def resetSession (s : State) : State :=
  { s with
    flip := false
    sprflip := false
    invert := 0x00
    sndlatch := Config.launchLatch s.draws
    phase := .idle
    frameValid := false
    palchg := false
    wram := .drawn s.draws
    vram := .drawn s.draws
    sprram := .drawn s.draws
    palram := .drawn s.draws
    palrgb := .drawn s.draws
    dirty := allOnes s.variant.nCells
    tcache := .drawn s.draws
    visb := 0
    visbPrev := 0
    layer := layerDrawn s.variant s.draws
    fb := fbDrawn s.variant s.draws
    evt := []
    draws := s.draws + 1 }

/-- FRAME (42_frame_compositor.md R192). -/
def execFrame (s : State) : Result := accept s (.next (runFrame (noReply s)))

/-- RESET (42_frame_compositor.md R191). -/
def execReset (s : State) : Result := accept s (.next (resetSession (noReply s)))

end Sys2Proof.Machine
end

