-- ==== Sys2Proof/Machine/Dispatch.lean ====
section
/-! DEFINITION. One arm per operation of spec/opcode_table.json. -/

namespace Sys2Proof.Machine

open Sys2Proof

def exec (i : Instr) (s : State) : Host.Outcome State Fault Refusal :=
  match i with
  | .rdOpen w a => Sys2Proof.Machine.execRdOpen w a s
  | .rdRom w a => Sys2Proof.Machine.execRdRom w a s
  | .rdRam w a => Sys2Proof.Machine.execRdRam w a s
  | .rdBankrom w a => Sys2Proof.Machine.execRdBankrom w a s
  | .rdVideo w a => Sys2Proof.Machine.execRdVideo w a s
  | .rdSprite w a => Sys2Proof.Machine.execRdSprite w a s
  | .rdPalette w a => Sys2Proof.Machine.execRdPalette w a s
  | .rdCtrl w a => Sys2Proof.Machine.execRdCtrl w a s
  | .rdDip w a => Sys2Proof.Machine.execRdDip w a s
  | .rdSndbusy w a => Sys2Proof.Machine.execRdSndbusy w a s
  | .rdRot w a => Sys2Proof.Machine.execRdRot w a s
  | .rdRotlo w a => Sys2Proof.Machine.execRdRotlo w a s
  | .rdProtr w a => Sys2Proof.Machine.execRdProtr w a s
  | .wrOpen w a v => Sys2Proof.Machine.execWrOpen w a v s
  | .wrRom w a v => Sys2Proof.Machine.execWrRom w a v s
  | .wrRam w a v => Sys2Proof.Machine.execWrRam w a v s
  | .wrBankrom w a v => Sys2Proof.Machine.execWrBankrom w a v s
  | .wrVideo w a v => Sys2Proof.Machine.execWrVideo w a v s
  | .wrSprite w a v => Sys2Proof.Machine.execWrSprite w a v s
  | .wrPalette w a v => Sys2Proof.Machine.execWrPalette w a v s
  | .wrSndkick w a v => Sys2Proof.Machine.execWrSndkick w a v s
  | .wrFlip w a v => Sys2Proof.Machine.execWrFlip w a v s
  | .wrProtw w a v => Sys2Proof.Machine.execWrProtw w a v s
  | .frame => Sys2Proof.Machine.execFrame s
  | .reset => Sys2Proof.Machine.execReset s
  | .tcupd => Sys2Proof.Machine.execTcupd s
  | .pvis => Sys2Proof.Machine.execPvis s
  | .pchg => Sys2Proof.Machine.execPchg s
  | .trend => Sys2Proof.Machine.execTrend s
  | .srend => Sys2Proof.Machine.execSrend s
  | .comp => Sys2Proof.Machine.execComp s

end Sys2Proof.Machine
end

