-- ==== Sys2Proof/Machine/Fetch.lean ====
section
/-! DEFINITION. What a step performs next: the sequencer's micro-operation while a frame is being made, else the oldest
thing the outside has done (spec/20_memory.md R77, spec/00_scope.md R12). -/

namespace Sys2Proof.Machine

/-- What there is to perform. -/
inductive Fetched where
  /-- An operation, on the state it acts on. -/
  | run (i : Instr) (s : State)
  /-- Nothing to run: the step has this result. -/
  | done (r : Result)

/-- A waiting input: a command is decoded under the session's maps (30_encoding.md R99), a reserved word is refused by
name (R100); a host action changes the host's inputs (10_state.md R44). -/
def fetchInput (s : State) : Input → Fetched
  | .command tw =>
    match decode s.variant tw with
    | .ok i => .run i s
    | .error why => .done (.refused (.reservedWord why))
  | .setPort n x =>
    if n < s.variant.nPorts then .done (.next { s with ports := s.ports.set Config.hostPort n x })
    else .done (.refused .noSuchPort)
  | .setSndStat x => .done (.next { s with sndstat := x })

/-- What the next step performs (log 7, log 9, log 15). DESIGN CHOICE (log 23): while a frame is stepped, what waits in
the inbox, commands and host actions alike, stays there and is performed after the frame. -/
def fetch (s : State) : Fetched :=
  if s.cfgErr then .done (.refused .noSession)
  else if s.phase = .idle then
    match s.inbox with
    | [] => .done (.next s)
    | i :: rest => fetchInput { s with inbox := rest } i
  else
    match decodeMicro (phaseMicroCode s.phase) with
    | .ok i => .run i s
    | .error why => .done (.refused (.reservedWord why))

/-- After an operation the sequencer moves on; at Idle there is nothing to move (42_frame_compositor.md R192). -/
def retire : Result → Result
  | .next s => .next (advancePhase s)
  | .fault r => .fault r
  | .refused r => .refused r

/-- The transaction word of an operation word with an address and a value of zeros (30_encoding.md R91, R95); a system
command's subcode stands in its data field (R101). -/
def tableTw (opw : Word) : BitVec 64 :=
  twOf (opw.extractLsb' 14 2) (opw.extractLsb' 12 2) 0
    (if opw.extractLsb' 14 2 = 2 then (opw.extractLsb' 0 8).setWidth 32 else 0)
    ||| ((opw.extractLsb' 8 4).setWidth 64 <<< 56)

/-- A map in which address 0 selects kind code k: the map itself where it does, else one entry at address 0 (none for
open bus). -/
def mapSelecting (m : List MapEntry) (k : BitVec 8) : List MapEntry :=
  if selectedKind m .w8 0 = k then m
  else if k = kindCode .openBus then []
  else [{ start := 0, stop := 1, kind := k, arg0 := 0, arg1 := 0, base := 0 }]

/-- The state that fetches a table row's operation next: a micro-operation by the sequencer's position, a bus operation
by a command at address 0 and a map in which that address selects its kind, a system command by its word (log 7). -/
def stateFetching (s : State) (nbits w : Nat) : State :=
  if nbits ≤ 8 then { s with phase := phaseOfMicroCode (BitVec.ofNat 4 w) }
  else
    let opw : Word := BitVec.ofNat 16 w
    let k := opw.extractLsb' 0 8
    let v := s.variant
    let v' :=
      if opw.extractLsb' 14 2 = 0 then { v with rmap := mapSelecting v.rmap k }
      else if opw.extractLsb' 14 2 = 1 then { v with wmap := mapSelecting v.wmap k }
      else v
    { s with variant := v', phase := .idle, inbox := .command (tableTw opw) :: s.inbox }

end Sys2Proof.Machine
end

