-- ==== Sys2Proof/Machine/Step.lean ====
section
/-! DEFINITION. One step of the machine. -/

namespace Sys2Proof.Machine

/-- One step: fetch, perform, move the sequencer on (spec/00_scope.md R12, spec/20_memory.md R77). -/
def step (s : State) : Host.Outcome State Fault Refusal :=
  match fetch s with
  | .run i t => retire (exec i t)
  | .done r => r

/-- The state with a table row's operation stored where step fetches its next instruction (log 7). -/
def State.withFetchWord (s : State) (nbits w : Nat) : State := stateFetching s nbits w

end Sys2Proof.Machine
end

