-- ==== Sys2Proof/Machine/Session.lean ====
section
/-! DEFINITION. CONFIG, the configuration check at session start, and the session builder (spec/42_frame_compositor.md
R190, spec/60_exceptions.md R241, spec/70_reset_and_hazards.md R276). -/

namespace Sys2Proof.Machine

/-- Check (1): start not above end, start even, end odd (42_frame_compositor.md R190). -/
def rangeOk (e : MapEntry) : Bool := decide (e.start ≤ e.stop) && !e.start.getLsbD 0 && e.stop.getLsbD 0

/-- Check (2): the kind is legal for the direction (42_frame_compositor.md R190, 30_encoding.md R98). -/
def kindOk (d : Direction) (e : MapEntry) : Bool :=
  match d with
  | .read => kindIn readKinds e.kind
  | .write => kindIn writeKinds e.kind

/-- Check (3): two entries' ranges share no address (42_frame_compositor.md R190). -/
def disjointEntries (e f : MapEntry) : Bool := decide (e.stop < f.start) || decide (f.stop < e.start)

/-- The greatest offset an entry reaches in its region (42_frame_compositor.md R190 check (4)). -/
def lastOffset (v : Variant) (e : MapEntry) : Nat :=
  (if e.kind = kindCode .bankrom then bankBaseOf v e.arg0.toNat else 0) + e.base.toNat + (e.stop.toNat - e.start.toNat)

/-- Check (4): the backing bytes exist (42_frame_compositor.md R190). -/
def backingOk (v : Variant) (e : MapEntry) : Bool :=
  match storageRegion e.kind with
  | none => true
  | some r =>
    !e.base.getLsbD 0 && (r != .bankrom || decide (e.arg0.toNat < nRomBanks v)) &&
      decide (lastOffset v e < regionSize v r)

/-- Check (5): the input ports exist (42_frame_compositor.md R190). -/
def portsOk (v : Variant) (e : MapEntry) : Bool :=
  if e.kind = kindCode .ctrl then decide (e.arg0.toNat + 1 < v.nPorts)
  else if e.kind = kindCode .rotlo then decide (e.arg0.toNat < v.nPorts) && decide (e.arg1.toNat < v.nPorts)
  else if kindIn [.dip, .rot, .protr] e.kind then decide (e.arg0.toNat < v.nPorts)
  else true

/-- The first entry that fails a per-entry check, in scan order of RMAP, then of WMAP (60_exceptions.md R241). -/
def firstEntry (v : Variant) (code : ConfigCode) (ok : Direction → MapEntry → Bool) : Option ConfigError :=
  match v.rmap.findIdx? (fun e => !ok .read e) with
  | some i => some ⟨code, .entry .read i⟩
  | none =>
    match v.wmap.findIdx? (fun e => !ok .write e) with
    | some i => some ⟨code, .entry .write i⟩
    | none => none

/-- The earliest entry of a map that overlaps a later one, with the first later one it overlaps; n is the place of the
map's first entry. DESIGN CHOICE (log 25): which second entry is named where the earliest overlaps several, which
60_exceptions.md R241 leaves open. -/
def overlapIn : Nat → List MapEntry → Option (Nat × Nat)
  | _, [] => none
  | n, e :: rest =>
    match rest.findIdx? (fun f => !disjointEntries e f) with
    | some k => some (n, n + 1 + k)
    | none => overlapIn (n + 1) rest

/-- Check (3) over both maps (60_exceptions.md R241). -/
def firstOverlap (v : Variant) : Option ConfigError :=
  match overlapIn 0 v.rmap with
  | some p => some ⟨.overlap, .entries .read p.1 p.2⟩
  | none =>
    match overlapIn 0 v.wmap with
    | some p => some ⟨.overlap, .entries .write p.1 p.2⟩
    | none => none

/-- Check (8) for one cell (42_frame_compositor.md R190). -/
def cellOk (v : Variant) (c : Nat) : Bool :=
  decide (((cellPos v c).1 + 1) * v.tileW ≤ v.fbW) && decide (((cellPos v c).2 + 1) * v.tileH ≤ v.fbH)

/-- Check (9) on the clip rectangle (42_frame_compositor.md R190). -/
def visOk (v : Variant) : Bool :=
  decide (v.vis.x0 ≤ v.vis.x1) && decide (v.vis.x1 < v.fbW) && decide (v.vis.y0 ≤ v.vis.y1) && decide (v.vis.y1 < v.fbH)

/-- No bank twice (42_frame_compositor.md R190 check (7)). -/
def noRepeats : List Nat → Bool
  | [] => true
  | b :: rest => !rest.contains b && noRepeats rest

/-- An error where a check fails. -/
def failing (ok : Bool) (code : ConfigCode) (place : ConfigPlace) : Option ConfigError :=
  if ok then none else some ⟨code, place⟩

/-- The checks of CONFIG in the order of their codes (42_frame_compositor.md R190, 60_exceptions.md R241). DESIGN CHOICE
(log 22): which field an error names when several fail under one code, which R241 leaves open: tilePalBase, sprPalBase,
transparentSlot; bankOrder, for a bank out of range or repeated, before pvisBanks; cellPos, vis, tileCount. -/
def configFailures (v : Variant) : List (Option ConfigError) :=
  [ firstEntry v .range fun _ e => rangeOk e,
    firstEntry v .kind kindOk,
    firstOverlap v,
    firstEntry v .backing fun _ e => backingOk v e,
    firstEntry v .port fun _ e => portsOk v e,
    failing (decide (v.tilePalBase + 16 * 16 ≤ v.nColors)) .palette .tilePalBase,
    failing (decide (v.sprPalBase + 16 * 128 ≤ v.nColors)) .palette .sprPalBase,
    failing (decide (v.transparentSlot < v.nColors)) .palette .transparentSlot,
    failing (v.bankOrder.all (fun b => decide (b < v.nBanks)) && noRepeats v.bankOrder) .banks .bankOrder,
    failing (v.pvisBanks.all fun b => decide (b < v.nBanks)) .banks .pvisBanks,
    failing ((List.range v.nCells).all (cellOk v)) .geometry .cellPos,
    failing (visOk v) .geometry .vis,
    failing (decide (v.tileCount ≤ 0x1000)) .geometry .tileCount ]

/-- CONFIG's outcome: the lowest-numbered failing check, or none (42_frame_compositor.md R190, 60_exceptions.md R241). -/
def configCheck (v : Variant) : Option ConfigError := (configFailures v).findSome? id

/-- CONFIG on a session: CFG_ERR <- 1 when a check fails, else 0 (42_frame_compositor.md R190). -/
def config (s : State) : State := { s with cfgErr := (configCheck s.variant).isSome }

/-- What the session owner fixes before a session (00_scope.md R9), with the host's inputs at that moment. -/
structure SessionParams where
  variant : Variant
  rom : Memory
  bankrom : Memory
  gfxTile : Store Pen
  gfxSpr : Store Pen
  penUse : Store (BitVec 16)
  ports : Store Byte
  sndstat : Word
  deriving DecidableEq, Repr

/-- A session's state before CONFIG and RESET: its parameters, CFG_ERR 0 (10_state.md R29), and nothing else that RESET
does not set. -/
def beforeConfig (p : SessionParams) : State :=
  { State.reset with
    variant := p.variant
    rom := p.rom
    bankrom := p.bankrom
    gfxTile := p.gfxTile
    gfxSpr := p.gfxSpr
    penUse := p.penUse
    ports := p.ports
    sndstat := p.sndstat
    draws := 0 }

/-- The session builder: CONFIG and RESET together, or ConfigError and no machine (70_reset_and_hazards.md R276,
60_exceptions.md R241). -/
def startSession (p : SessionParams) : Result :=
  let s := config (beforeConfig p)
  match configCheck s.variant with
  | some e => .fault (.configError e)
  | none => execReset s

end Sys2Proof.Machine
end

