-- ==== Sys2Proof/Safety.lean ====
section
/-! DEFINITION. What a good session is, in the terms the statements use. -/

namespace Sys2Proof.Machine

/-- A session in which a command is accepted: CFG_ERR = 0 and PHASE = Idle (spec/60_exceptions.md R240). -/
abbrev Accepting (s : State) : Prop := s.cfgErr = false ∧ s.phase = .idle

/-- CONFIG passes on the session's variant (spec/42_frame_compositor.md R190). -/
abbrev Configured (s : State) : Prop := configCheck s.variant = none

/-- The map of a direction. -/
abbrev mapOf (v : Variant) : Direction → List MapEntry
  | .read => v.rmap
  | .write => v.wmap

/-- Checks (1), (2), (4) and (5) of spec/42_frame_compositor.md R190 on one entry, by their codes; the other checks are
not about one entry. -/
def EntryHolds (v : Variant) : ConfigCode → Direction → MapEntry → Prop
  | .range, _, e => e.start ≤ e.stop ∧ e.start.toNat % 2 = 0 ∧ e.stop.toNat % 2 = 1
  | .kind, .read, e =>
    e.kind ∈ ([0x01, 0x02, 0x03, 0x04, 0x05, 0x06, 0x10, 0x11, 0x12, 0x13, 0x14, 0x15] : List (BitVec 8))
  | .kind, .write, e => e.kind ∈ ([0x01, 0x02, 0x03, 0x04, 0x05, 0x06, 0x20, 0x21, 0x22] : List (BitVec 8))
  | .backing, _, e =>
    ∀ r, storageRegion e.kind = some r → e.base.toNat % 2 = 0 ∧ (r = .bankrom → e.arg0.toNat < v.bankBase.length) ∧
      (if r = .bankrom then bankBaseOf v e.arg0.toNat else 0) + e.base.toNat + (e.stop.toNat - e.start.toNat) <
        regionSize v r
  | .port, _, e =>
    (e.kind ∈ ([0x10, 0x11, 0x13, 0x14, 0x15] : List (BitVec 8)) → e.arg0.toNat < v.nPorts) ∧
      (e.kind = 0x10 → e.arg0.toNat + 1 < v.nPorts) ∧ (e.kind = 0x14 → e.arg1.toNat < v.nPorts)
  | .overlap, _, _ => True
  | .palette, _, _ => True
  | .banks, _, _ => True
  | .geometry, _, _ => True

/-- The checks of spec/42_frame_compositor.md R190 by the codes of spec/60_exceptions.md R241. -/
def CheckHolds (v : Variant) : ConfigCode → Prop
  | .range => ∀ d, ∀ e ∈ mapOf v d, EntryHolds v .range d e
  | .kind => ∀ d, ∀ e ∈ mapOf v d, EntryHolds v .kind d e
  | .overlap => ∀ d, (mapOf v d).Pairwise fun e f => e.stop < f.start ∨ f.stop < e.start
  | .backing => ∀ d, ∀ e ∈ mapOf v d, EntryHolds v .backing d e
  | .port => ∀ d, ∀ e ∈ mapOf v d, EntryHolds v .port d e
  | .palette =>
    v.tilePalBase + 16 * 16 ≤ v.nColors ∧ v.sprPalBase + 16 * 128 ≤ v.nColors ∧ v.transparentSlot < v.nColors
  | .banks => ((∀ b ∈ v.bankOrder, b < v.nBanks) ∧ v.bankOrder.Nodup) ∧ ∀ b ∈ v.pvisBanks, b < v.nBanks
  | .geometry =>
    (∀ c, c < v.nCells → ((cellPos v c).1 + 1) * v.tileW ≤ v.fbW ∧ ((cellPos v c).2 + 1) * v.tileH ≤ v.fbH) ∧
      (v.vis.x0 ≤ v.vis.x1 ∧ v.vis.x1 < v.fbW ∧ v.vis.y0 ≤ v.vis.y1 ∧ v.vis.y1 < v.fbH) ∧ v.tileCount ≤ 0x1000

/-- Every byte array of the session, and every table kept as a store, is in its canonical form (log 3). -/
abbrev StoresCanonical (s : State) : Prop :=
  (∀ r, Memory.wf r (memoryOf s r)) ∧ Store.wf Config.launchRgb s.palrgb ∧ Store.wf Config.launchTile s.tcache ∧
    Store.wf Config.hostPort s.ports

/-- LAYER and FB have one entry for each place of the frame (spec/10_state.md R41, R42). -/
abbrev PlanesSized (s : State) : Prop :=
  s.layer.size = s.variant.fbW * s.variant.fbH ∧ s.fb.size = s.variant.fbW * s.variant.fbH

/-- INVERT holds 0x00 or 0xFF and nothing else (spec/10_state.md R25). -/
abbrev InvertLegal (s : State) : Prop := s.invert = 0x00 ∨ s.invert = 0xFF

/-- Invariant (b) of spec/10_state.md R47: a clean cell's TCACHE entry is the decode of its current bytes. -/
abbrev CleanCellsDecoded (s : State) : Prop :=
  ∀ c, c < s.variant.nCells → bitAt s.dirty c = false → tileAt s c = decodedCell s c

/-- Invariant (a) of spec/10_state.md R47 for one palette entry: the triple is the expansion of the stored word. -/
abbrev EntryInSync (i : Nat) (s : State) : Prop := rgbAt s i = materialize s.variant (wordAt s .palram (2 * i))

/-- The premise on the pen-usage asset (spec/10_state.md R45): bit p of a tile's mask is set exactly when some pixel of
the tile has pen p. -/
abbrev PenUseConsistent (s : State) : Prop :=
  ∀ t, t ≤ s.variant.sprTileMax → ∀ p : Nat, p < 16 →
    ((penUseAt s t).getLsbD p = true ↔ ∃ px, px < 16 ∧ ∃ py, py < 16 ∧ (spritePen s t px py).toNat = p)

end Sys2Proof.Machine
end

