-- ==== Sys2Proof/Certificates/Slice0/Obligations.lean ====
section
/-! DEFINITION. The statements for the provers. Each docstring names the rules of spec/ that the statement formalises,
and says where a clause rests on a choice the spec marks as its own or the model made. -/

open Sys2Proof Sys2Proof.Machine

/-! Encoding and decoding. -/

/-- Every operation that is well formed under a variant is read back from its own word. The bit layout is the spec's
own choice (30_encoding.md §1, 92_eei_decisions.md D1, D2). -/
def Obligations.EncodeThenDecodeGivesTheOperation : Prop :=
  ∀ (v : Variant) (i : Instr), wellFormed v i = true → decodeEncoded v (encode i) = .ok i

/-- Every word that is read as an operation is that operation's word, and the operation is well formed: no two words
spell one operation, and no bit is ignored. The layout is the spec's own choice (D1, D2). -/
def Obligations.DecodedWordIsTheOperationsWord : Prop :=
  ∀ (v : Variant) (e : Encoded) (i : Instr), decodeEncoded v e = .ok i → encode i = e ∧ wellFormed v i = true

/-- Once CONFIG has passed, the transaction words the decoder refuses are exactly the reserved ones of 30_encoding.md
§2. The layout is the spec's own choice (D1). -/
def Obligations.RefusedWordsAreExactlyTheReserved : Prop :=
  ∀ (v : Variant) (tw : BitVec 64), configCheck v = none →
    ((∃ why, decode v tw = .error why) ↔
      twZero tw ≠ 0 ∨ twCmd tw = 3 ∨ twSel tw = 3 ∨ (twCmd tw = 0 ∧ twData tw ≠ 0) ∨
        (twCmd tw = 1 ∧ ¬ (twData tw).toNat < 2 ^ (8 * 2 ^ (twSel tw).toNat)) ∨
        (twCmd tw = 2 ∧ (twSel tw ≠ 0 ∨ twAddr tw ≠ 0 ∨ ¬ (twData tw).toNat < 2)))

/-- Words written out from the layout of 30_encoding.md §1 (95_test_vectors.md V1) and the operation words and
micro-sequence codes of §1 and §2 (V3) decode as they should under REF_A, and the seven reserved words of V2 are
refused, each for its own reason. The layout is the spec's own choice (92_eei_decisions.md D1, D2). -/
def Obligations.SpecWordsDecodeAsWritten : Prop :=
  decode refA 0x000F800100000000 = .ok (.rdProtr .w8 0x0F8001) ∧
    decode refA 0x100F800000000000 = .ok (.rdProtr .w16 0x0F8000) ∧
    decode refA 0x2004000000000000 = .ok (.rdRam .w32 0x040000) ∧
    decode refA 0x40040001000000AA = .ok (.wrRam .w8 0x040001 0xAA) ∧
    decode refA 0x501000000000FF34 = .ok (.wrVideo .w16 0x100000 0xFF34) ∧
    decode refA 0x600F800000010007 = .ok (.wrProtw .w32 0x0F8000 0x00010007) ∧
    decode refA 0x1050000000000000 = .ok (.rdOpen .w16 0x500000) ∧
    decode refA 0x8000000000000000 = .ok .frame ∧ decode refA 0x8000000000000001 = .ok .reset ∧
    decodeTableWord 16 0x1001 = some (.rdRom .w16 0) ∧ decodeTableWord 16 0x6022 = some (.wrProtw .w32 0 0) ∧
    decodeTableWord 16 0x0000 = some (.rdOpen .w8 0) ∧ decodeTableWord 16 0x5004 = some (.wrVideo .w16 0 0) ∧
    decodeTableWord 16 0x8000 = some .frame ∧ decodeTableWord 16 0x8001 = some .reset ∧
    decodeTableWord 8 0b0101 = some .pchg ∧
    decode refA 0xC000000000000000 = .error .reservedCommand ∧
    decode refA 0x3000000000000000 = .error .reservedWidth ∧
    decode refA 0x0100000000000000 = .error .reservedBits ∧
    decode refA 0x1010000000000001 = .error .readWithData ∧
    decode refA 0x4004000000000100 = .error .dataAboveWidth ∧
    decode refA 0x8000000000000002 = .error .reservedSubcode ∧
    decode refA 0x9000000000000000 = .error .systemOperands

/-! The step. -/

/-- A step at which the oldest waiting input is a command that decodes runs exactly that operation, on the state with
the command taken from the inbox (30_encoding.md §1; the inbox is the model's, log 7). -/
def Obligations.StepRunsTheDecodedCommand : Prop :=
  ∀ (s : State) (tw : BitVec 64) (rest : List Input) (i : Instr), Accepting s →
    s.inbox = .command tw :: rest → decode s.variant tw = .ok i → step s = exec i { s with inbox := rest }

/-- While a frame is being made, a step runs the micro-operation of the sequencer's code and moves on, in the order of
42_frame_compositor.md §1 (the stepped sequencer is the model's, log 9). -/
def Obligations.StepRunsThePhaseOfTheSequencer : Prop :=
  ∀ s : State, s.cfgErr = false →
    (s.phase = .updatingTiles → decodeMicro 0b0010 = .ok .tcupd ∧
      ∀ t, exec .tcupd s = .next t → step s = .next { t with phase := .rebuildingUsage }) ∧
    (s.phase = .rebuildingUsage → decodeMicro 0b0100 = .ok .pvis ∧
      ∀ t, exec .pvis s = .next t → step s = .next { t with phase := .applyingChange }) ∧
    (s.phase = .applyingChange → decodeMicro 0b0101 = .ok .pchg ∧
      ∀ t, exec .pchg s = .next t → step s = .next { t with phase := .renderingTiles }) ∧
    (s.phase = .renderingTiles → decodeMicro 0b0110 = .ok .trend ∧
      ∀ t, exec .trend s = .next t → step s = .next { t with phase := .drawingSprites }) ∧
    (s.phase = .drawingSprites → decodeMicro 0b1000 = .ok .srend ∧
      ∀ t, exec .srend s = .next t → step s = .next { t with phase := .compositing }) ∧
    (s.phase = .compositing → decodeMicro 0b1010 = .ok .comp ∧
      ∀ t, exec .comp s = .next t →
        step s = .next { t with phase := .idle, frameValid := true, evt := t.evt ++ [.frame (framePixels t)] })

/-- The atomic FRAME and the six phases run one step each end in the same state (42_frame_compositor.md §1,
70_reset_and_hazards.md §3; that both exist is the model's choice, log 9). -/
def Obligations.FrameEqualsItsSixPhases : Prop :=
  ∀ s : State, Accepting s → ∃ t, exec .frame s = .next t ∧
    Host.Core.run Sys2Proof.core 6 { s with rdata := none, frameValid := false, phase := .updatingTiles } = .next t

/-- Every well-formed operation completes in an accepting session, which is then still accepting: no bus traffic and no
frame faults or is refused (60_exceptions.md §1, 42_frame_compositor.md §7). -/
def Obligations.EveryWellFormedOperationCompletes : Prop :=
  ∀ (s : State) (i : Instr), Accepting s → wellFormed s.variant i = true →
    ∃ t, exec i s = .next t ∧ Accepting t ∧ t.variant = s.variant

/-- The host sets an existing input port, or the sound status: that input changes and nothing else, and the input is
taken from the inbox (10_state.md §4; the inbox is the model's, log 6, log 7). -/
def Obligations.HostActionsSetOnlyTheirInput : Prop :=
  ∀ (s : State) (rest : List Input), Accepting s →
    (∀ (n : Nat) (x : Byte), s.inbox = .setPort n x :: rest → n < s.variant.nPorts →
      ∃ t, step s = .next t ∧ t = { s with inbox := rest, ports := t.ports } ∧
        ∀ m, portAt t m = if m = n then x else portAt s m) ∧
    (∀ x : Word, s.inbox = .setSndStat x :: rest → step s = .next { s with inbox := rest, sndstat := x })

/-! Reads. -/

/-- A read of an address that no RMAP entry holds returns the open-bus byte w / 8 times and changes nothing
(40_bus_reads.md R131). -/
def Obligations.OpenBusReadReturnsTheSentinel : Prop :=
  ∀ (s : State) (w : Width) (a : Addr), Accepting s →
    (∀ e ∈ s.variant.rmap, ¬ (e.start ≤ busAddr w a ∧ busAddr w a ≤ e.stop)) →
    exec (.rdOpen w a) s = .next { s with rdata := some (match w with
      | .w8 => s.variant.openBusByte.setWidth 32
      | .w16 => (s.variant.openBusByte ++ s.variant.openBusByte).setWidth 32
      | .w32 => s.variant.openBusByte ++ s.variant.openBusByte ++ s.variant.openBusByte ++ s.variant.openBusByte) }

/-- An 8-bit read of each storage kind returns the addressed byte of its region, zero-extended, and changes nothing else
(40_bus_reads.md §2; lanes and byte order are the spec's own choice, D4, D6, D22, D23). -/
def Obligations.StorageByteReadsReturnTheByte : Prop :=
  ∀ (s : State) (a : Addr) (e : MapEntry), Accepting s → Configured s → lookup s.variant.rmap a = some e →
    ∀ p ∈ ([(.rom, .rom, .rdRom), (.ram, .wram, .rdRam), (.bankrom, .bankrom, .rdBankrom), (.video, .vram, .rdVideo),
        (.sprite, .sprram, .rdSprite), (.palette, .palram, .rdPalette)] :
        List (Kind × Region × (Width → Addr → Instr))),
      e.kind = kindCode p.1 →
      exec (p.2.2 .w8 a) s = .next { s with rdata := some ((byteAt s p.2.1
        ((if p.1 = .bankrom then bankBaseOf s.variant e.arg0.toNat else 0) + e.base.toNat +
          (a.toNat - e.start.toNat))).setWidth 32) }

/-- A 16-bit read of each storage kind ignores address bit 0 and returns two bytes, the lower offset as the high byte
(40_bus_reads.md §2; D4, D5, D6, D22, D23). -/
def Obligations.StorageWordReadsReturnTwoBytes : Prop :=
  ∀ (s : State) (a : Addr) (e : MapEntry), Accepting s → Configured s →
    lookup s.variant.rmap (a &&& 0xFFFFFE) = some e →
    ∀ p ∈ ([(.rom, .rom, .rdRom), (.ram, .wram, .rdRam), (.bankrom, .bankrom, .rdBankrom), (.video, .vram, .rdVideo),
        (.sprite, .sprram, .rdSprite), (.palette, .palram, .rdPalette)] :
        List (Kind × Region × (Width → Addr → Instr))),
      e.kind = kindCode p.1 →
      ∀ off, off = (if p.1 = .bankrom then bankBaseOf s.variant e.arg0.toNat else 0) +
          entryOffset e (a &&& 0xFFFFFE) →
        exec (p.2.2 .w16 a) s = .next { s with
          rdata := some ((byteAt s p.2.1 off ++ byteAt s p.2.1 (off + 1)).setWidth 32) }

/-- A 32-bit read of each storage kind returns two successive words, the second one open bus where its cycle leaves the
entry (40_bus_reads.md §1, §2, 20_memory.md §3; D4, D5, D6, D9, D22, D23). -/
def Obligations.StorageLongReadsReturnTwoCycles : Prop :=
  ∀ (s : State) (a : Addr) (e : MapEntry), Accepting s → Configured s →
    lookup s.variant.rmap (a &&& 0xFFFFFE) = some e →
    ∀ p ∈ ([(.rom, .rom, .rdRom), (.ram, .wram, .rdRam), (.bankrom, .bankrom, .rdBankrom), (.video, .vram, .rdVideo),
        (.sprite, .sprram, .rdSprite), (.palette, .palram, .rdPalette)] :
        List (Kind × Region × (Width → Addr → Instr))),
      e.kind = kindCode p.1 →
      ∀ bank off off2, bank = (if p.1 = .bankrom then bankBaseOf s.variant e.arg0.toNat else 0) →
        off = bank + entryOffset e (a &&& 0xFFFFFE) → off2 = bank + entryOffset e ((a &&& 0xFFFFFE) + 2) →
        exec (p.2.2 .w32 a) s = .next { s with rdata := some (
          (byteAt s p.2.1 off ++ byteAt s p.2.1 (off + 1)) ++
            (if insideEntry e ((a &&& 0xFFFFFE) + 2) then byteAt s p.2.1 off2 ++ byteAt s p.2.1 (off2 + 1)
             else s.variant.openBusByte ++ s.variant.openBusByte)) }

/-- Each handler read at each width, from the handler's word h: an 8-bit read takes the high byte at an even address and
the low byte at an odd one, a 16-bit read takes h, a 32-bit read takes h twice, or h and open bus where the second cycle
leaves the entry; and the reference ROT_PLACE and ROTLO_PACK (40_bus_reads.md §3, 30_encoding.md §5; formats, widths and
the two reference values are the spec's own choice, D6, D7, D10, D11, D12, D13, D14, D15). -/
def Obligations.HandlerReadsReturnTheirWord : Prop :=
  (∀ (s : State) (w : Width) (a : Addr) (e : MapEntry), Accepting s → Configured s →
    lookup s.variant.rmap (busAddr w a) = some e →
    ∀ p ∈ ([(.ctrl, .rdCtrl, portAt s (e.arg0.toNat + 1) ++ portAt s e.arg0.toNat),
        (.dip, .rdDip, portAt s e.arg0.toNat ++ 0x00#8),
        (.sndbusy, .rdSndbusy, s.sndstat),
        (.rot, .rdRot, rotPlace s.variant (~~~ (1#12 <<< ((portAt s e.arg0.toNat).toNat * 12 / 256)))),
        (.rotlo, .rdRotlo, rotloPack s.variant (~~~ (1#12 <<< ((portAt s e.arg0.toNat).toNat * 12 / 256)))
          (~~~ (1#12 <<< ((portAt s e.arg1.toNat).toNat * 12 / 256)))),
        (.protr, .rdProtr, 0x00#8 ++ (portAt s e.arg0.toNat ^^^ s.invert))] :
        List (Kind × (Width → Addr → Instr) × Word)),
      e.kind = kindCode p.1 →
      exec (p.2.1 w a) s = .next { s with rdata := some (match w with
        | .w8 => (if a.getLsbD 0 then p.2.2.extractLsb' 0 8 else p.2.2.extractLsb' 8 8).setWidth 32
        | .w16 => p.2.2.setWidth 32
        | .w32 => p.2.2 ++ (if insideEntry e ((a &&& 0xFFFFFE) + 2) then p.2.2
            else s.variant.openBusByte ++ s.variant.openBusByte)) }) ∧
  ∀ v : Variant,
    (v.rotPlace = .reference → ∀ m : BitVec 12, (rotPlace v m).toNat = 0xF000 + m.toNat) ∧
    (v.rotloPack = .reference → ∀ m0 m1 : BitVec 12,
      (rotloPack v m0 m1).toNat = 0xFF00 + m1.toNat % 16 * 16 + m0.toNat % 16)

/-- The rotary mask has exactly one 0 bit among its twelve, at the index of the dial's position, which is below 12
(30_encoding.md §5, 40_bus_reads.md §4). -/
def Obligations.RotaryMaskHasOneZeroBit : Prop :=
  ∀ x : Byte, x.toNat * 12 / 256 < 12 ∧
    ∀ j, j < 12 → ((rotMask x).getLsbD j = false ↔ j = x.toNat * 12 / 256)

/-- A read changes nothing but the word it returns, and the same read again returns the same word (40_bus_reads.md R145
marks this as derived). -/
def Obligations.ReadsChangeNothing : Prop :=
  ∀ (s t : State) (w : Width) (a : Addr),
    ∀ i ∈ [Instr.rdOpen w a, .rdRom w a, .rdRam w a, .rdBankrom w a, .rdVideo w a, .rdSprite w a, .rdPalette w a,
        .rdCtrl w a, .rdDip w a, .rdSndbusy w a, .rdRot w a, .rdRotlo w a, .rdProtr w a],
      exec i s = .next t → t = { s with rdata := t.rdata } ∧ exec i t = .next t

/-! Writes. -/

/-- A write to an address that no WMAP entry holds changes nothing and returns nothing (41_bus_writes.md R161). -/
def Obligations.OpenBusWriteChangesNothing : Prop :=
  ∀ (s : State) (w : Width) (a : Addr) (v : Long), Accepting s →
    (∀ e ∈ s.variant.wmap, ¬ (e.start ≤ busAddr w a ∧ busAddr w a ≤ e.stop)) →
    exec (.wrOpen w a v) s = .next { s with rdata := none }

/-- A write to ROM is discarded: nothing changes, and nothing is returned (41_bus_writes.md R162). -/
def Obligations.RomWriteIsDiscarded : Prop :=
  ∀ (s : State) (w : Width) (a : Addr) (v : Long) (e : MapEntry), Accepting s →
    lookup s.variant.wmap (busAddr w a) = some e → e.kind = kindCode .rom →
    exec (.wrRom w a v) s = .next { s with rdata := none }

/-- A write to banked ROM is discarded and selects no bank (41_bus_writes.md §2; the spec's own choice, D23). -/
def Obligations.BankedRomWriteIsDiscarded : Prop :=
  ∀ (s : State) (w : Width) (a : Addr) (v : Long) (e : MapEntry), Accepting s →
    lookup s.variant.wmap (busAddr w a) = some e → e.kind = kindCode .bankrom →
    exec (.wrBankrom w a v) s = .next { s with rdata := none }

/-- A write to work RAM stores the value's bytes, at each width, and changes nothing else: one byte; the two bytes of an
aligned word; two words, the second one dropped where its cycle leaves the entry (41_bus_writes.md §2, 20_memory.md
§2, §3; cutting into cycles is the spec's own choice, D4, D5, D6). -/
def Obligations.RamWriteStoresTheBytes : Prop :=
  ∀ (s : State) (a : Addr) (v : Long) (e : MapEntry), Accepting s → Configured s → e.kind = kindCode .ram →
    (lookup s.variant.wmap a = some e →
      ∃ t, exec (.wrRam .w8 a v) s = .next t ∧ t = { s with wram := t.wram, rdata := none } ∧
        ∀ o, byteAt t .wram o =
          if o = e.base.toNat + (a.toNat - e.start.toNat) then v.extractLsb' 0 8 else byteAt s .wram o) ∧
    (lookup s.variant.wmap (a &&& 0xFFFFFE) = some e →
      ∃ t, exec (.wrRam .w16 a v) s = .next t ∧ t = { s with wram := t.wram, rdata := none } ∧
        ∀ o, byteAt t .wram o =
          if o = entryOffset e (a &&& 0xFFFFFE) then v.extractLsb' 8 8
          else if o = entryOffset e (a &&& 0xFFFFFE) + 1 then v.extractLsb' 0 8
          else byteAt s .wram o) ∧
    (lookup s.variant.wmap (a &&& 0xFFFFFE) = some e →
      ∃ t, exec (.wrRam .w32 a v) s = .next t ∧ t = { s with wram := t.wram, rdata := none } ∧
        ∀ o, byteAt t .wram o =
          if o = entryOffset e (a &&& 0xFFFFFE) then v.extractLsb' 24 8
          else if o = entryOffset e (a &&& 0xFFFFFE) + 1 then v.extractLsb' 16 8
          else if insideEntry e ((a &&& 0xFFFFFE) + 2) ∧ o = entryOffset e ((a &&& 0xFFFFFE) + 2) then v.extractLsb' 8 8
          else if insideEntry e ((a &&& 0xFFFFFE) + 2) ∧ o = entryOffset e ((a &&& 0xFFFFFE) + 2) + 1 then
            v.extractLsb' 0 8
          else byteAt s .wram o)

/-- An 8-bit or 16-bit write to video memory: an 8-bit write stores its byte, 0xFF included; a 16-bit write stores both
bytes, but only the low one when the high one is 0xFF; the cell's dirty bit is set in every case, and nothing else
changes (41_bus_writes.md §2; the scope of the quirk is the spec's own choice, D19). -/
def Obligations.VideoWriteStoresAndMarksTheCell : Prop :=
  ∀ (s : State) (a : Addr) (v : Long) (e : MapEntry), Accepting s → Configured s → e.kind = kindCode .video →
    (lookup s.variant.wmap a = some e →
      ∃ t, exec (.wrVideo .w8 a v) s = .next t ∧ t = { s with vram := t.vram, dirty := t.dirty, rdata := none } ∧
        (∀ o, byteAt t .vram o =
          if o = e.base.toNat + (a.toNat - e.start.toNat) then v.extractLsb' 0 8 else byteAt s .vram o) ∧
        ∀ c, bitAt t.dirty c = (bitAt s.dirty c || decide (c = (e.base.toNat + (a.toNat - e.start.toNat)) / 4))) ∧
    (lookup s.variant.wmap (a &&& 0xFFFFFE) = some e →
      ∃ t, exec (.wrVideo .w16 a v) s = .next t ∧ t = { s with vram := t.vram, dirty := t.dirty, rdata := none } ∧
        (∀ o, byteAt t .vram o =
          if o = entryOffset e (a &&& 0xFFFFFE) ∧ v.extractLsb' 8 8 ≠ 0xFF then v.extractLsb' 8 8
          else if o = entryOffset e (a &&& 0xFFFFFE) + 1 then v.extractLsb' 0 8
          else byteAt s .vram o) ∧
        ∀ c, bitAt t.dirty c = (bitAt s.dirty c || decide (c = entryOffset e (a &&& 0xFFFFFE) / 4)))

/-- A 32-bit write to video memory is two 16-bit cycles, each with its own test for 0xFF and its own dirty bit; the
second is dropped, dirty bit and all, where it leaves the entry (41_bus_writes.md §2, 20_memory.md §3; D6, D19). -/
def Obligations.VideoLongWriteIsTwoCycles : Prop :=
  ∀ (s : State) (a : Addr) (v : Long) (e : MapEntry) (off off2 : Nat) (second : Bool),
    Accepting s → Configured s → e.kind = kindCode .video → lookup s.variant.wmap (a &&& 0xFFFFFE) = some e →
    off = entryOffset e (a &&& 0xFFFFFE) → off2 = entryOffset e ((a &&& 0xFFFFFE) + 2) →
    second = insideEntry e ((a &&& 0xFFFFFE) + 2) →
    ∃ t, exec (.wrVideo .w32 a v) s = .next t ∧ t = { s with vram := t.vram, dirty := t.dirty, rdata := none } ∧
      (∀ o, byteAt t .vram o =
        if o = off ∧ v.extractLsb' 24 8 ≠ 0xFF then v.extractLsb' 24 8
        else if o = off + 1 then v.extractLsb' 16 8
        else if second ∧ o = off2 ∧ v.extractLsb' 8 8 ≠ 0xFF then v.extractLsb' 8 8
        else if second ∧ o = off2 + 1 then v.extractLsb' 0 8
        else byteAt s .vram o) ∧
      ∀ c, bitAt t.dirty c = (bitAt s.dirty c || decide (c = off / 4) || (second && decide (c = off2 / 4)))

/-- A write to sprite memory stores 0xFF in place of every high byte written at an offset that is a multiple of 4, and
every other byte verbatim, at each width; nothing else changes (41_bus_writes.md §2; the scope of the forcing is the
spec's own choice, D20). -/
def Obligations.SpriteWriteForcesTheAttributeByte : Prop :=
  ∀ (s : State) (a : Addr) (v : Long) (e : MapEntry), Accepting s → Configured s → e.kind = kindCode .sprite →
    (lookup s.variant.wmap a = some e →
      ∃ t, exec (.wrSprite .w8 a v) s = .next t ∧ t = { s with sprram := t.sprram, rdata := none } ∧
        ∀ o, byteAt t .sprram o =
          if o = e.base.toNat + (a.toNat - e.start.toNat) then (if o % 4 = 0 then 0xFF else v.extractLsb' 0 8)
          else byteAt s .sprram o) ∧
    (lookup s.variant.wmap (a &&& 0xFFFFFE) = some e →
      ∃ t, exec (.wrSprite .w16 a v) s = .next t ∧ t = { s with sprram := t.sprram, rdata := none } ∧
        ∀ o, byteAt t .sprram o =
          if o = entryOffset e (a &&& 0xFFFFFE) then (if o % 4 = 0 then 0xFF else v.extractLsb' 8 8)
          else if o = entryOffset e (a &&& 0xFFFFFE) + 1 then v.extractLsb' 0 8
          else byteAt s .sprram o) ∧
    (lookup s.variant.wmap (a &&& 0xFFFFFE) = some e →
      ∃ t, exec (.wrSprite .w32 a v) s = .next t ∧ t = { s with sprram := t.sprram, rdata := none } ∧
        ∀ o, byteAt t .sprram o =
          if o = entryOffset e (a &&& 0xFFFFFE) then (if o % 4 = 0 then 0xFF else v.extractLsb' 24 8)
          else if o = entryOffset e (a &&& 0xFFFFFE) + 1 then v.extractLsb' 16 8
          else if insideEntry e ((a &&& 0xFFFFFE) + 2) ∧ o = entryOffset e ((a &&& 0xFFFFFE) + 2) then
            (if o % 4 = 0 then 0xFF else v.extractLsb' 8 8)
          else if insideEntry e ((a &&& 0xFFFFFE) + 2) ∧ o = entryOffset e ((a &&& 0xFFFFFE) + 2) + 1 then
            v.extractLsb' 0 8
          else byteAt s .sprram o)

/-- A write to palette memory merges the written bytes into PALRAM, at each width, and leaves every entry it touched
with the RGB triple of the merged word and every other entry's triple alone; nothing else changes. The reference
PAL_FIELDS takes its fields at bits 4:0, 9:5 and 14:10, and every PAL_FIELDS meets the two stated examples: the word 0 is
black, an all-ones R field is r5 = 0x1F (41_bus_writes.md §2, 30_encoding.md §3; cutting into cycles and the layout are
the spec's own choice, D4, D5, D6, D21; where the R field of another layout stands is the model's parameter, log 2). -/
def Obligations.PaletteWriteMergesAndMaterializes : Prop :=
  (∀ (s : State) (a : Addr) (v : Long) (e : MapEntry), Accepting s → Configured s → e.kind = kindCode .palette →
    (lookup s.variant.wmap a = some e →
      ∃ t, exec (.wrPalette .w8 a v) s = .next t ∧ t = { s with palram := t.palram, palrgb := t.palrgb, rdata := none } ∧
        (∀ o, byteAt t .palram o =
          if o = e.base.toNat + (a.toNat - e.start.toNat) then v.extractLsb' 0 8 else byteAt s .palram o) ∧
        ∀ i, rgbAt t i =
          if i = (e.base.toNat + (a.toNat - e.start.toNat)) / 2 then
            expandRgb (palFields s.variant (byteAt t .palram (2 * i) ++ byteAt t .palram (2 * i + 1)))
          else rgbAt s i) ∧
    (lookup s.variant.wmap (a &&& 0xFFFFFE) = some e →
      ∃ t, exec (.wrPalette .w16 a v) s = .next t ∧ t = { s with palram := t.palram, palrgb := t.palrgb, rdata := none } ∧
        (∀ o, byteAt t .palram o =
          if o = entryOffset e (a &&& 0xFFFFFE) then v.extractLsb' 8 8
          else if o = entryOffset e (a &&& 0xFFFFFE) + 1 then v.extractLsb' 0 8
          else byteAt s .palram o) ∧
        ∀ i, rgbAt t i =
          if i = entryOffset e (a &&& 0xFFFFFE) / 2 then expandRgb (palFields s.variant (v.extractLsb' 0 16))
          else rgbAt s i) ∧
    (lookup s.variant.wmap (a &&& 0xFFFFFE) = some e →
      ∃ t, exec (.wrPalette .w32 a v) s = .next t ∧ t = { s with palram := t.palram, palrgb := t.palrgb, rdata := none } ∧
        (∀ o, byteAt t .palram o =
          if o = entryOffset e (a &&& 0xFFFFFE) then v.extractLsb' 24 8
          else if o = entryOffset e (a &&& 0xFFFFFE) + 1 then v.extractLsb' 16 8
          else if insideEntry e ((a &&& 0xFFFFFE) + 2) ∧ o = entryOffset e ((a &&& 0xFFFFFE) + 2) then v.extractLsb' 8 8
          else if insideEntry e ((a &&& 0xFFFFFE) + 2) ∧ o = entryOffset e ((a &&& 0xFFFFFE) + 2) + 1 then
            v.extractLsb' 0 8
          else byteAt s .palram o) ∧
        ∀ i, rgbAt t i =
          if i = entryOffset e (a &&& 0xFFFFFE) / 2 then expandRgb (palFields s.variant (v.extractLsb' 16 16))
          else if insideEntry e ((a &&& 0xFFFFFE) + 2) ∧ i = entryOffset e ((a &&& 0xFFFFFE) + 2) / 2 then
            expandRgb (palFields s.variant (v.extractLsb' 0 16))
          else rgbAt s i)) ∧
  ∀ v : Variant,
    (v.palFields = .fields555 → ∀ x : Word, (palFields v x).r.toNat = x.toNat % 32 ∧
      (palFields v x).g.toNat = x.toNat / 32 % 32 ∧ (palFields v x).b.toNat = x.toNat / 1024 % 32) ∧
    palFields v 0 = ⟨0, 0, 0⟩ ∧
    (v.palFields = .fields555 → redField v.palFields = 0x001F) ∧
    ∀ x : Word, x &&& redField v.palFields = redField v.palFields → (palFields v x).r = 0x1F

/-- A sound kick latches bits 15 to 8 of the zero-extended value and appends one NMI event with that byte, at every
width; nothing else changes (41_bus_writes.md §3; the narrow and wide forms are the spec's own choice, D16). -/
def Obligations.SoundKickLatchesAndSignals : Prop :=
  ∀ (s : State) (w : Width) (a : Addr) (v : Long) (e : MapEntry) (l : Byte), Accepting s →
    lookup s.variant.wmap (busAddr w a) = some e → e.kind = kindCode .sndkick →
    l = (if w = .w8 then 0x00 else v.extractLsb' 8 8) →
    exec (.wrSndkick w a v) s = .next { s with sndlatch := l, evt := s.evt ++ [.nmiSound l], rdata := none }

/-- A flip write copies bit 3 into FLIP and bit 2 into SPRFLIP, at every width, and changes nothing else
(41_bus_writes.md §3; the other widths are the spec's own choice, D17). -/
def Obligations.FlipWriteSetsBothFlags : Prop :=
  ∀ (s : State) (w : Width) (a : Addr) (v : Long) (e : MapEntry), Accepting s →
    lookup s.variant.wmap (busAddr w a) = some e → e.kind = kindCode .flip →
    exec (.wrFlip w a v) s = .next { s with flip := v.getLsbD 3, sprflip := v.getLsbD 2, rdata := none }

/-- A protection write: a 32-bit value with upper half not zero leaves INVERT as it was; else the low byte 0x07 sets it
to 0xFF and every other low byte to 0x00; nothing else changes (41_bus_writes.md §3; the guard at narrow widths is the
spec's own choice, D18). -/
def Obligations.ProtectionWriteSetsInvert : Prop :=
  ∀ (s : State) (w : Width) (a : Addr) (v : Long) (e : MapEntry), Accepting s →
    lookup s.variant.wmap (busAddr w a) = some e → e.kind = kindCode .protw →
    exec (.wrProtw w a v) s = .next { s with rdata := none, invert := (
      if w = .w32 ∧ v.extractLsb' 16 16 ≠ 0 then s.invert
      else if v.extractLsb' 0 8 = 0x07 then 0xFF else 0x00) }

/-- No write changes ROM, BANKROM, the variant with its maps, TCACHE, VISB, VISB_PREV, LAYER, FB, PHASE, FRAME_VALID,
PALCHG or CFG_ERR, and no write clears a dirty bit (41_bus_writes.md R174 marks this as derived). -/
def Obligations.WritesNeverTouchTheCompositor : Prop :=
  ∀ (s t : State) (w : Width) (a : Addr) (v : Long),
    ∀ i ∈ [Instr.wrOpen w a v, .wrRom w a v, .wrRam w a v, .wrBankrom w a v, .wrVideo w a v, .wrSprite w a v,
        .wrPalette w a v, .wrSndkick w a v, .wrFlip w a v, .wrProtw w a v],
      exec i s = .next t →
        t.rom = s.rom ∧ t.bankrom = s.bankrom ∧ t.variant = s.variant ∧ t.tcache = s.tcache ∧ t.visb = s.visb ∧
          t.visbPrev = s.visbPrev ∧ t.layer = s.layer ∧ t.fb = s.fb ∧ t.phase = s.phase ∧
          t.frameValid = s.frameValid ∧ t.palchg = s.palchg ∧ t.cfgErr = s.cfgErr ∧
          ∀ c, bitAt s.dirty c = true → bitAt t.dirty c = true

/-- Which operations may change which state: the byte arrays, PALRGB, the flags, the latch, the bitmaps, the planes, the
caches, PHASE and the event trace each have their own writers, and RESET; no operation writes CFG_ERR, the host's inputs
or a parameter of the session (10_state.md §1 table, 20_memory.md §4 table, 60_exceptions.md §4 table). The result of the
last command, rdata, the model's own (log 8), is left out: every command writes it. -/
def Obligations.OnlyItsWritersChangeAPieceOfState : Prop :=
  ∀ (s t : State) (i : Instr), exec i s = .next t → i ≠ .reset →
    ((∀ w a v, i ≠ .wrRam w a v) → t.wram = s.wram) ∧
    ((∀ w a v, i ≠ .wrVideo w a v) → t.vram = s.vram) ∧
    ((∀ w a v, i ≠ .wrSprite w a v) → t.sprram = s.sprram) ∧
    ((∀ w a v, i ≠ .wrPalette w a v) → t.palram = s.palram ∧ t.palrgb = s.palrgb) ∧
    ((∀ w a v, i ≠ .wrFlip w a v) → t.flip = s.flip ∧ t.sprflip = s.sprflip) ∧
    ((∀ w a v, i ≠ .wrProtw w a v) → t.invert = s.invert) ∧
    ((∀ w a v, i ≠ .wrSndkick w a v) → t.sndlatch = s.sndlatch) ∧
    ((∀ w a v, i ≠ .wrVideo w a v) → i ≠ .frame → i ≠ .tcupd → t.dirty = s.dirty) ∧
    (i ≠ .frame → i ≠ .tcupd → t.tcache = s.tcache) ∧
    (i ≠ .frame → i ≠ .pvis → t.visb = s.visb) ∧
    (i ≠ .frame → i ≠ .pchg → t.visbPrev = s.visbPrev ∧ t.palchg = s.palchg) ∧
    (i ≠ .frame → i ≠ .trend → t.layer = s.layer) ∧
    (i ≠ .frame → i ≠ .srend → i ≠ .comp → t.fb = s.fb) ∧
    (i ≠ .frame → t.frameValid = s.frameValid ∧ t.phase = s.phase) ∧
    ((∀ w a v, i ≠ .wrSndkick w a v) → i ≠ .frame → t.evt = s.evt) ∧
    t.cfgErr = s.cfgErr ∧ t.variant = s.variant ∧ t.rom = s.rom ∧ t.bankrom = s.bankrom ∧ t.gfxTile = s.gfxTile ∧
    t.gfxSpr = s.gfxSpr ∧ t.penUse = s.penUse ∧ t.ports = s.ports ∧ t.sndstat = s.sndstat ∧ t.inbox = s.inbox ∧ t.draws = s.draws

/-! Formats. -/

/-- expand5to8 is (x << 3) | (x >> 2) on 5 bits, takes the values the rule gives at 0, 31, 1 and 16, is strictly increasing,
and Expand applies it to each channel (30_encoding.md R113). -/
def Obligations.ChannelExpansionReplicatesTopBits : Prop :=
  (∀ x : BitVec 5, (expand5to8 x).toNat = (x.toNat <<< 3) ||| (x.toNat >>> 2)) ∧
    expand5to8 0 = 0 ∧ expand5to8 0x1F = 255 ∧ expand5to8 1 = 8 ∧ expand5to8 0x10 = 0x84 ∧
    (∀ x y : BitVec 5, x < y → expand5to8 x < expand5to8 y) ∧
    ∀ c : Rgb5, expandRgb c = ⟨expand5to8 c.r, expand5to8 c.g, expand5to8 c.b⟩

/-- Tile decode, variant B: tile and colour are bits 11:0 and 15:12 of the attribute word, and the tile-index word is
ignored (30_encoding.md R105). -/
def Obligations.TileDecodeB : Prop :=
  ∀ t a : Word, decodeCell .b t a = ⟨a.extractLsb' 0 12, a.extractLsb' 12 4⟩

/-- Tile decode, variant C: the attribute word 0x80FF is tile 0x2CA, colour 7; every other one is as variant B; the
tile-index word is ignored (30_encoding.md R106). -/
def Obligations.TileDecodeCSubstitutes : Prop :=
  (∀ t : Word, decodeCell .c t 0x80FF = ⟨0x2CA, 7⟩) ∧
    ∀ t a : Word, a ≠ 0x80FF → decodeCell .c t a = decodeCell .b t a

/-- Tile decode, variant A: tile from the low byte of the tile-index word and the upper nibble of the attribute word's
low byte, colour from its low nibble (30_encoding.md §3; which nibbles is the spec's own choice, D24). -/
def Obligations.TileDecodeAJoinsTheNibble : Prop :=
  ∀ t a : Word, (decodeCell .a t a).tile.toNat = a.toNat / 16 % 16 * 256 + t.toNat % 256 ∧
    (decodeCell .a t a).colour.toNat = a.toNat % 16

/-- The fields of a sprite row in both flip modes: colour is the low seven bits of the colour word; the tile number is
the index bits plus the bank's offset, exact; the flips are as the mode and SPRFLIP say (30_encoding.md §3; the modes
are the spec's own choice, D30, D31). -/
def Obligations.SpriteRowFields : Prop :=
  ∀ (v : Variant) (f : Bool) (b : Nat) (cw tw : Word),
    (unpackRow v f b cw tw).colour.toNat = cw.toNat % 128 ∧
    (v.sprFlipMode = .twoBit → (unpackRow v f b cw tw).tile = tw.toNat % 0x4000 + bankTileOfs v b ∧
      (unpackRow v f b cw tw).fx = tw.getLsbD 14 ∧ (unpackRow v f b cw tw).fy = tw.getLsbD 15) ∧
    (v.sprFlipMode = .oneBit → (unpackRow v f b cw tw).tile = tw.toNat % 0x8000 + bankTileOfs v b ∧
      (unpackRow v f b cw tw).fx = (!f && tw.getLsbD 15) ∧ (unpackRow v f b cw tw).fy = (f && tw.getLsbD 15))

/-- Sprite positions: the ranges before and after the flip step, the period of 512 in each raw value, the negated Y
axis, a position as the wrapped fields of SPR_POS, 240 minus the coordinate under flip-screen, and the reference SPR_POS
(42_frame_compositor.md §5, 30_encoding.md §3; the constants and the reference fields are the spec's own choice, D29). -/
def Obligations.SpritePositionsWrapAndFlip : Prop :=
  (∀ raw : Nat, -256 ≤ wrapPosition raw ∧ wrapPosition raw ≤ 255 ∧ wrapPosition (raw + 512) = wrapPosition raw ∧
    -255 ≤ wrapPositionY raw ∧ wrapPositionY raw ≤ 256 ∧ wrapPositionY (raw + 512) = wrapPositionY raw ∧
    wrapPositionY raw = -wrapPosition raw ∧ (wrapPosition raw - raw) % 512 = 0) ∧
  ∀ (v : Variant) (xw yw : Word),
    (v.sprPos = .reference → sprPosFields v xw yw = (xw.toNat % 256 * 16 + yw.toNat / 4096, yw.toNat)) ∧
    spritePos v false xw yw = (wrapPosition (sprPosFields v xw yw).1, wrapPositionY (sprPosFields v xw yw).2) ∧
    spritePos v true xw yw = (240 - (spritePos v false xw yw).1, 240 - (spritePos v false xw yw).2) ∧
    -15 ≤ (spritePos v true xw yw).1 ∧ (spritePos v true xw yw).1 ≤ 496 ∧
    -16 ≤ (spritePos v true xw yw).2 ∧ (spritePos v true xw yw).2 ≤ 495

/-! The compositor. -/

/-- TCUPD decodes every dirty cell from its current bytes, keeps every clean cell's entry, leaves every dirty bit of a
cell 0, so that invariant (b) holds after it if it held before, and changes nothing else (42_frame_compositor.md R193). -/
def Obligations.TileUpdateRefreshesDirtyCells : Prop :=
  ∀ s : State, ∃ t, exec .tcupd s = .next t ∧ t = { s with tcache := t.tcache, dirty := t.dirty } ∧
    (∀ c, c < s.variant.nCells →
      bitAt t.dirty c = false ∧
      tileAt t c = if bitAt s.dirty c then
          decodeCell s.variant.tileDecode (byteAt s .vram (4 * c) ++ byteAt s .vram (4 * c + 1))
            (byteAt s .vram (4 * c + 2) ++ byteAt s .vram (4 * c + 3))
        else tileAt s c) ∧
    (∀ c, ¬ c < s.variant.nCells → bitAt t.dirty c = bitAt s.dirty c ∧ tileAt t c = tileAt s c) ∧
    (CleanCellsDecoded s → CleanCellsDecoded t)

/-- PVIS sets exactly the bit of TRANSPARENT_SLOT and the bits of the pens used by the shown rows of the scanned banks,
and changes nothing else (42_frame_compositor.md §3; what counts as visible is the spec's own choice, D33). -/
def Obligations.VisibilityIsThePensOfShownRows : Prop :=
  ∀ s : State, ∃ t, exec .pvis s = .next t ∧ t = { s with visb := t.visb } ∧
    ∀ i, bitAt t.visb i = true ↔ i = s.variant.transparentSlot ∨
      ∃ b ∈ s.variant.pvisBanks, ∃ h, h < 2 ∧ ∃ n, n < 32 ∧ ∃ j, j < 16 ∧
        ∃ r, r = unpackRow s.variant s.sprflip b (wordAt s .sprram (b * 0x2000 + h * 0x1000 + n * 0x80 + 4 + 4 * j))
            (wordAt s .sprram (b * 0x2000 + h * 0x1000 + n * 0x80 + 6 + 4 * j)) ∧
          r.colour ≠ 0 ∧ r.tile ≤ s.variant.sprTileMax ∧
          ∃ p, p < 16 ∧ (penUseAt s r.tile).getLsbD p = true ∧ i = s.variant.sprPalBase + 16 * r.colour.toNat + p

/-- PCHG records whether any visibility bit differs from the prior frame's, makes this frame's table the prior one, and
changes nothing else (42_frame_compositor.md §3; PALCHG is the spec's own addition, D34). -/
def Obligations.PaletteChangeComparesTheTables : Prop :=
  ∀ s : State, ∃ t, exec .pchg s = .next t ∧ t = { s with palchg := t.palchg, visbPrev := s.visb } ∧
    (t.palchg = true ↔ ∃ i, bitAt s.visb i ≠ bitAt s.visbPrev i)

/-- TREND: a place of the layer on which no opaque tile pixel falls is NONE; one on which some fall has the palette
index of the highest-numbered cell's; pixel (px, py) of the cell at (cx, cy) falls on (cx * TILE_W + px,
cy * TILE_H + py), mirrored on both axes under flip-screen; nothing but LAYER changes (42_frame_compositor.md §4;
placement under flip, palette index and the skipping of out-of-range tiles are the spec's own choice, D26, D35, D36). -/
def Obligations.TileLayerShowsTheTopmostCell : Prop :=
  ∀ s : State, ∃ t, exec .trend s = .next t ∧ t = { s with layer := t.layer } ∧
    ∀ (paints : Nat → Nat → Nat → Nat → Nat → Prop),
      (∀ c px py x y, paints c px py x y ↔ c < s.variant.nCells ∧ (tileAt s c).tile.toNat < s.variant.tileCount ∧
        px < s.variant.tileW ∧ py < s.variant.tileH ∧
        tilePen s (tileAt s c).tile.toNat px py ≠ s.variant.tileTransparentPen ∧
        ∃ X Y, X = ((cellPos s.variant c).1 * s.variant.tileW + px : Nat) ∧
          Y = ((cellPos s.variant c).2 * s.variant.tileH + py : Nat) ∧
          (x : Int) = (if s.flip then (s.variant.fbW : Int) - 1 - X else X) ∧
          (y : Int) = (if s.flip then (s.variant.fbH : Int) - 1 - Y else Y)) →
      ∀ x y, x < s.variant.fbW → y < s.variant.fbH →
        ((∀ c px py, ¬ paints c px py x y) → layerAt t x y = none) ∧
        ∀ c px py, paints c px py x y → (∀ c' px' py', c < c' → ¬ paints c' px' py' x y) →
          layerAt t x y = some (s.variant.tilePalBase + 16 * (tileAt s c).colour.toNat +
            (tilePen s (tileAt s c).tile.toNat px py).toNat)

/-- SREND: a place on which no opaque pixel of a shown row falls, and every place outside VIS, holds TRANSPARENT_SLOT;
one on which some fall has the palette index of the last one drawn: banks in the order of BANK_ORDER, then halves, slots
and rows ascending; flip-screen complements the flips of a row; nothing but FB changes (42_frame_compositor.md §5;
palette index, slot layout, position constants, order inside a bank, background and row stepping are the spec's own
choice, D26, D27, D28, D29, D32, D43). -/
def Obligations.SpriteLayerShowsTheLastDrawn : Prop :=
  ∀ s : State, ∃ t, exec .srend s = .next t ∧ t = { s with fb := t.fb } ∧
    ∀ (base : Slot → Nat) (slots : List Slot) (unpacked row : Slot → Nat → SpriteRow)
      (paints : Slot → Nat → Nat → Nat → Nat → Nat → Prop),
      (∀ sl, base sl = sl.bank * 0x2000 + sl.half * 0x1000 + sl.index * 0x80) →
      slots = (s.variant.bankOrder.flatMap fun b =>
        (List.range 2).flatMap fun h => (List.range 32).map fun n => { bank := b, half := h, index := n }) →
      (∀ sl j, unpacked sl j = unpackRow s.variant s.sprflip sl.bank
        (wordAt s .sprram (base sl + 4 + 4 * j)) (wordAt s .sprram (base sl + 6 + 4 * j))) →
      (∀ sl j, row sl j = { unpacked sl j with
        fx := if s.flip then !(unpacked sl j).fx else (unpacked sl j).fx,
        fy := if s.flip then !(unpacked sl j).fy else (unpacked sl j).fy }) →
      (∀ sl j px py x y, paints sl j px py x y ↔ j < 16 ∧ px < 16 ∧ py < 16 ∧ (row sl j).colour ≠ 0 ∧
        (row sl j).tile ≤ s.variant.sprTileMax ∧
        spritePen s (row sl j).tile (if (row sl j).fx then 15 - px else px) (if (row sl j).fy then 15 - py else py) ≠
          s.variant.sprTransparentPen ∧
        s.variant.vis.x0 ≤ x ∧ x ≤ s.variant.vis.x1 ∧ s.variant.vis.y0 ≤ y ∧ y ≤ s.variant.vis.y1 ∧
        ∃ pos, pos = spritePos s.variant s.flip (wordAt s .sprram (base sl)) (wordAt s .sprram (base sl + 2)) ∧
          pos.1 + px = (x : Int) ∧ (if s.flip then pos.2 - 16 * j else pos.2 + 16 * j) + py = (y : Int)) →
      ∀ x y, x < s.variant.fbW → y < s.variant.fbH →
        ((∀ sl ∈ slots, ∀ j px py, ¬ paints sl j px py x y) →
          pixelAt t x y = s.variant.transparentSlot) ∧
        ∀ before sl after j px py, slots = before ++ sl :: after → paints sl j px py x y →
          (∀ sl' ∈ after, ∀ j' px' py', ¬ paints sl' j' px' py' x y) →
          (∀ j' px' py', j < j' → ¬ paints sl j' px' py' x y) →
          pixelAt t x y = s.variant.sprPalBase + 16 * (row sl j).colour.toNat +
            (spritePen s (row sl j).tile (if (row sl j).fx then 15 - px else px)
              (if (row sl j).fy then 15 - py else py)).toNat

/-- Where the pen-usage asset agrees with the graphics and every drawn bank is scanned, PVIS marks every palette index
that SREND leaves in the frame, so no shown entry is missing from the palette-change test (10_state.md §4,
42_frame_compositor.md §3, §5; visibility and agreement of the asset are the spec's own choice, D33, D46). -/
def Obligations.EveryDrawnSpriteIndexIsVisible : Prop :=
  ∀ s t u : State, PenUseConsistent s → (∀ b ∈ s.variant.bankOrder, b ∈ s.variant.pvisBanks) →
    exec .pvis s = .next t → exec .srend s = .next u →
    ∀ x y, x < s.variant.fbW → y < s.variant.fbH → bitAt t.visb (pixelAt u x y) = true

/-- COMP: inside VIS an opaque place of the tile layer replaces the frame's, and every other place of the frame keeps
its value; nothing but FB changes (42_frame_compositor.md R213). -/
def Obligations.CompositePutsTheTileLayerOnTop : Prop :=
  ∀ s : State, Configured s → PlanesSized s → ∃ t, exec .comp s = .next t ∧ t = { s with fb := t.fb } ∧
    ∀ x y, x < s.variant.fbW → y < s.variant.fbH →
      pixelAt t x y =
        if s.variant.vis.x0 ≤ x ∧ x ≤ s.variant.vis.x1 ∧ s.variant.vis.y0 ≤ y ∧ y ≤ s.variant.vis.y1 then
          (layerAt s x y).getD (pixelAt s x y)
        else pixelAt s x y

/-- FRAME ends at rest with a valid frame, appends one Frame event whose pixels are PALRGB of the finished frame in
raster order over VIS, and writes only what it may (42_frame_compositor.md §1, §6, §7; the event is the spec's own
choice, D37). -/
def Obligations.FrameCompletesAndWritesOnlyItsTables : Prop :=
  ∀ s : State, Accepting s → ∃ t, exec .frame s = .next t ∧
    t = { s with dirty := t.dirty, tcache := t.tcache, visb := t.visb, visbPrev := t.visb, palchg := t.palchg,
                 layer := t.layer, fb := t.fb, frameValid := true, rdata := none,
                 evt := s.evt ++ [.frame (framePixels t)] } ∧
    (∀ c, c < s.variant.nCells → bitAt t.dirty c = false) ∧
    (t.palchg = true ↔ ∃ i, bitAt t.visb i ≠ bitAt s.visbPrev i) ∧
    (framePixels t).length = (s.variant.vis.y1 + 1 - s.variant.vis.y0) * (s.variant.vis.x1 + 1 - s.variant.vis.x0) ∧
    ∀ x y, s.variant.vis.x0 ≤ x → x ≤ s.variant.vis.x1 → s.variant.vis.y0 ≤ y → y ≤ s.variant.vis.y1 →
      (framePixels t)[(y - s.variant.vis.y0) * (s.variant.vis.x1 + 1 - s.variant.vis.x0) + (x - s.variant.vis.x0)]? =
        some (rgbAt t (pixelAt t x y))

/-- Two frames with no step between them put out the same pixels, and the second leaves PALCHG = 0
(42_frame_compositor.md R220 marks this as derived). -/
def Obligations.SecondFrameRepeatsTheFirst : Prop :=
  ∀ s t u : State, exec .frame s = .next t → exec .frame t = .next u →
    u = { t with palchg := false, evt := t.evt ++ [.frame (framePixels t)] }

/-- After a FRAME invariant (b) holds, whatever TCACHE and DIRTY held before, as soon as every cell was dirty: no
unspecified TCACHE entry survives the first frame after RESET (10_state.md §6, 70_reset_and_hazards.md §1). -/
def Obligations.FirstFrameAfterResetDecodesEveryCell : Prop :=
  ∀ s t u : State, exec .reset s = .next t → exec .frame t = .next u →
    ∀ c, c < s.variant.nCells → bitAt u.dirty c = false ∧
      tileAt u c = decodeCell s.variant.tileDecode (wordAt t .vram (4 * c)) (wordAt t .vram (4 * c + 2))

/-! Reset, session start, refusals. -/

/-- RESET gives every piece of state its value of 10_state.md §6 where the spec gives one, leaves the session's
parameters, CFG_ERR and the host's inputs alone, and returns nothing. Values other than those of FLIP and SPRFLIP are
the spec's own choice (D38); the contents it leaves unspecified are free (log 3, log 4). -/
def Obligations.ResetSetsTheResetValues : Prop :=
  ∀ s : State, Accepting s → ∃ t, exec .reset s = .next t ∧
    t = { s with
      flip := false, sprflip := false, invert := 0x00, phase := .idle, frameValid := false, palchg := false,
      visb := 0, visbPrev := 0, evt := [], rdata := none, dirty := t.dirty,
      wram := t.wram, vram := t.vram, sprram := t.sprram, palram := t.palram, palrgb := t.palrgb, tcache := t.tcache,
      layer := t.layer, fb := t.fb, sndlatch := t.sndlatch, draws := s.draws + 1 } ∧
    (∀ c, bitAt t.dirty c = true ↔ c < s.variant.nCells) ∧ PlanesSized t

/-- State.reset has the values of 10_state.md §6 and the invariants of the model; it is the session the builder makes
for REF_A. The values of INVERT, PHASE, FRAME_VALID, PALCHG, DIRTY, VISB, VISB_PREV and EVT are the spec's own choice
(92_eei_decisions.md D38, log 19); the variant is the model's (log 1). -/
def Obligations.StartStateHasTheResetValues : Prop :=
  State.reset.flip = false ∧ State.reset.sprflip = false ∧ State.reset.invert = 0x00 ∧ State.reset.phase = .idle ∧
    State.reset.frameValid = false ∧ State.reset.palchg = false ∧ State.reset.cfgErr = false ∧
    (∀ c, bitAt State.reset.dirty c = true ↔ c < 1024) ∧ (∀ i, bitAt State.reset.visb i = false) ∧
    (∀ i, bitAt State.reset.visbPrev i = false) ∧ State.reset.evt = [] ∧ StoresCanonical State.reset ∧
    PlanesSized State.reset ∧ InvertLegal State.reset ∧ CleanCellsDecoded State.reset ∧ Configured State.reset ∧
    startSession { variant := refA, rom := .drawn 0, bankrom := .drawn 0, gfxTile := .drawn 0, gfxSpr := .drawn 0,
                   penUse := .drawn 0, ports := .drawn 0, sndstat := Config.hostSndStat } = .next State.reset

/-- The session builder: a variant that fails CONFIG gives the ConfigError and no machine; one that passes gives an
accepting session of that variant, with its ROMs, assets and host inputs and the reset values (60_exceptions.md §1, 70_reset_and_hazards.md §2; that the
builder is CONFIG and RESET together is the spec's own choice, D38, D39). -/
def Obligations.SessionIsBuiltExactlyWhenConfigPasses : Prop :=
  ∀ p : SessionParams,
    (∀ err, configCheck p.variant = some err → startSession p = .fault (.configError err)) ∧
    (configCheck p.variant = none → ∃ t, startSession p = .next t ∧ Accepting t ∧ t.variant = p.variant ∧
      t.rom = p.rom ∧ t.bankrom = p.bankrom ∧ t.gfxTile = p.gfxTile ∧ t.gfxSpr = p.gfxSpr ∧ t.penUse = p.penUse ∧
      t.ports = p.ports ∧ t.sndstat = p.sndstat ∧ t.flip = false ∧ t.sprflip = false ∧ t.invert = 0x00 ∧
      t.frameValid = false ∧ t.palchg = false ∧ t.visb = 0 ∧ t.visbPrev = 0 ∧ t.evt = [] ∧ PlanesSized t ∧
      ∀ c, bitAt t.dirty c = true ↔ c < p.variant.nCells)

/-- While a frame is being made every command is refused; with CFG_ERR = 1 every command and every step is refused
(70_reset_and_hazards.md §3, 60_exceptions.md §1; the spec's own choice, D39, D45). -/
def Obligations.CommandsAreRefusedOutsideAnAcceptingSession : Prop :=
  ∀ (s : State) (w : Width) (a : Addr) (v : Long),
    ∀ i ∈ [Instr.rdOpen w a, .rdRom w a, .rdRam w a, .rdBankrom w a, .rdVideo w a, .rdSprite w a, .rdPalette w a,
        .rdCtrl w a, .rdDip w a, .rdSndbusy w a, .rdRot w a, .rdRotlo w a, .rdProtr w a, .wrOpen w a v, .wrRom w a v,
        .wrRam w a v, .wrBankrom w a v, .wrVideo w a v, .wrSprite w a v, .wrPalette w a v, .wrSndkick w a v,
        .wrFlip w a v, .wrProtw w a v, .frame, .reset],
      (s.cfgErr = true → exec i s = .refused .noSession ∧ step s = .refused .noSession) ∧
      (s.cfgErr = false → s.phase ≠ .idle → exec i s = .refused .frameInProgress)

/-! Configuration. -/

/-- CONFIG passes exactly when every check of 42_frame_compositor.md §1 holds (checks (1), (2), (4) to (9) are the
spec's own definition of "malformed", D3). -/
def Obligations.ConfigPassesExactlyWhenEveryCheckHolds : Prop :=
  ∀ v : Variant, configCheck v = none ↔
    (∀ m ∈ [v.rmap, v.wmap], ∀ e ∈ m, e.start ≤ e.stop ∧ e.start.toNat % 2 = 0 ∧ e.stop.toNat % 2 = 1) ∧
    (∀ e ∈ v.rmap, e.kind ∈ ([0x01, 0x02, 0x03, 0x04, 0x05, 0x06, 0x10, 0x11, 0x12, 0x13, 0x14, 0x15] : List (BitVec 8))) ∧
    (∀ e ∈ v.wmap, e.kind ∈ ([0x01, 0x02, 0x03, 0x04, 0x05, 0x06, 0x20, 0x21, 0x22] : List (BitVec 8))) ∧
    (∀ m ∈ [v.rmap, v.wmap], m.Pairwise fun e f => e.stop < f.start ∨ f.stop < e.start) ∧
    (∀ m ∈ [v.rmap, v.wmap], ∀ e ∈ m, ∀ r, storageRegion e.kind = some r → e.base.toNat % 2 = 0 ∧
      (r = .bankrom → e.arg0.toNat < v.bankBase.length) ∧
      (if r = .bankrom then bankBaseOf v e.arg0.toNat else 0) + e.base.toNat + (e.stop.toNat - e.start.toNat) <
        regionSize v r) ∧
    (∀ m ∈ [v.rmap, v.wmap], ∀ e ∈ m,
      (e.kind ∈ ([0x10, 0x11, 0x13, 0x14, 0x15] : List (BitVec 8)) → e.arg0.toNat < v.nPorts) ∧
      (e.kind = 0x10 → e.arg0.toNat + 1 < v.nPorts) ∧ (e.kind = 0x14 → e.arg1.toNat < v.nPorts)) ∧
    v.tilePalBase + 16 * 16 ≤ v.nColors ∧ v.sprPalBase + 16 * 128 ≤ v.nColors ∧ v.transparentSlot < v.nColors ∧
    (∀ b ∈ v.bankOrder, b < v.nBanks) ∧ (∀ b ∈ v.pvisBanks, b < v.nBanks) ∧ v.bankOrder.Nodup ∧
    (∀ c, c < v.nCells → ((cellPos v c).1 + 1) * v.tileW ≤ v.fbW ∧ ((cellPos v c).2 + 1) * v.tileH ≤ v.fbH) ∧
    v.vis.x0 ≤ v.vis.x1 ∧ v.vis.x1 < v.fbW ∧ v.vis.y0 ≤ v.vis.y1 ∧ v.vis.y1 < v.fbH ∧ v.tileCount ≤ 0x1000

/-- Once CONFIG has passed, the entry a lookup finds is the only one that holds the address, so the scan order never
changes the result (20_memory.md §3). -/
def Obligations.LookupFindsTheOnlyEntry : Prop :=
  ∀ (v : Variant) (m : List MapEntry) (e : MapEntry) (a : Addr), configCheck v = none → m = v.rmap ∨ m = v.wmap →
    (lookup m a = some e ↔ e ∈ m ∧ e.start ≤ a ∧ a ≤ e.stop)

/-- Once CONFIG has passed, every cycle inside a storage entry reaches two bytes of its region (41_bus_writes.md R168
marks this as derived). -/
def Obligations.StorageCyclesStayInsideTheirRegion : Prop :=
  ∀ (v : Variant) (e : MapEntry) (r : Region) (wa : Addr), configCheck v = none → e ∈ v.rmap ∨ e ∈ v.wmap →
    storageRegion e.kind = some r → insideEntry e wa = true →
    (if r = .bankrom then bankBaseOf v e.arg0.toNat else 0) + entryOffset e wa + 1 < regionSize v r

/-! Invariants. -/

/-- Every step keeps the canonical form of the byte arrays and of the tables (log 3). -/
def Obligations.StepsKeepStoresCanonical : Prop :=
  ∀ s t : State, StoresCanonical s → step s = .next t → StoresCanonical t

/-- Every step keeps INVERT at 0x00 or 0xFF (10_state.md R25 marks this as derived). -/
def Obligations.StepsKeepInvertLegal : Prop :=
  ∀ s t : State, InvertLegal s → step s = .next t → InvertLegal t

/-- Every step keeps LAYER and FB at one entry for each place of the frame (10_state.md §4). -/
def Obligations.StepsKeepPlanesSized : Prop :=
  ∀ s t : State, PlanesSized s → step s = .next t → PlanesSized t

/-- Invariant (b): in a configured session every step keeps it that a clean cell's cache entry is the decode of the
cell's current bytes (10_state.md §5). -/
def Obligations.StepsKeepCleanCellsDecoded : Prop :=
  ∀ s t : State, Configured s → CleanCellsDecoded s → step s = .next t → Configured t ∧ CleanCellsDecoded t

/-- Invariant (a): in a configured session a palette entry in sync stays in sync over every step that is no RESET, and
a palette write leaves the entries it touches in sync (10_state.md §5). -/
def Obligations.StepsKeepThePaletteInSync : Prop :=
  (∀ (s t : State) (i : Nat), Configured s → EntryInSync i s → step s = .next t → t.draws = s.draws → EntryInSync i t) ∧
  ∀ (s t : State) (w : Width) (a : Addr) (v : Long) (e : MapEntry), Configured s →
    lookup s.variant.wmap (busAddr w a) = some e → exec (.wrPalette w a v) s = .next t →
    EntryInSync (entryOffset e (a &&& 0xFFFFFE) / 2) t ∧
      (w = .w32 → insideEntry e ((a &&& 0xFFFFFE) + 2) = true → EntryInSync (entryOffset e ((a &&& 0xFFFFFE) + 2) / 2) t)

/-- No step changes the variant with its maps, ROM, BANKROM, the assets or CFG_ERR (10_state.md §4,
70_reset_and_hazards.md §1, §2). -/
def Obligations.StepsKeepTheSessionParameters : Prop :=
  ∀ s t : State, step s = .next t →
    t.variant = s.variant ∧ t.rom = s.rom ∧ t.bankrom = s.bankrom ∧ t.gfxTile = s.gfxTile ∧ t.gfxSpr = s.gfxSpr ∧
      t.penUse = s.penUse ∧ t.cfgErr = s.cfgErr

/-- Between commands the compositor rests: a step from Idle ends at Idle (70_reset_and_hazards.md §3,
42_frame_compositor.md §7), and the event trace only grows, but for RESET, which empties it (10_state.md §4). -/
def Obligations.StepsFromIdleEndAtIdle : Prop :=
  ∀ s t : State, s.phase = .idle → step s = .next t →
    t.phase = .idle ∧ (s.evt <+: t.evt ∨ (t.evt = [] ∧ t.draws = s.draws + 1))

/-! The error of a failed CONFIG. -/

/-- The ConfigError that CONFIG reports names a check that fails, of the lowest-numbered code; under codes 1, 2, 4 and 5
the earliest failing entry in the order of RMAP, then of WMAP; under code 3 two overlapping entries, the first of them
the earliest, of RMAP where RMAP has an overlap; under codes 6 to 8 a field that fails (60_exceptions.md §1; the codes and
their order are the spec's own choice, D47; which failing field and which second overlapping entry are named is the
model's, log 22, log 25, and is not stated). -/
def Obligations.ConfigReportsTheLowestCodeFirst : Prop :=
  ∀ (v : Variant) (err : ConfigError), configCheck v = some err →
    (∃ before after, [.range, .kind, .overlap, .backing, .port, .palette, .banks, .geometry] =
        before ++ err.code :: after ∧ (∀ c ∈ before, CheckHolds v c) ∧ ¬ CheckHolds v err.code) ∧
    (err.code = .range ∨ err.code = .kind ∨ err.code = .backing ∨ err.code = .port →
      ∃ d i e, err.place = .entry d i ∧ (mapOf v d)[i]? = some e ∧ ¬ EntryHolds v err.code d e ∧
        (∀ j f, j < i → (mapOf v d)[j]? = some f → EntryHolds v err.code d f) ∧
        (d = .write → ∀ f ∈ v.rmap, EntryHolds v err.code .read f)) ∧
    (err.code = .overlap → ∃ d i j e f, err.place = .entries d i j ∧ i < j ∧
      (mapOf v d)[i]? = some e ∧ (mapOf v d)[j]? = some f ∧ e.start ≤ f.stop ∧ f.start ≤ e.stop ∧
      (∀ i' j' e' f', i' < i → i' < j' → (mapOf v d)[i']? = some e' → (mapOf v d)[j']? = some f' →
        e'.stop < f'.start ∨ f'.stop < e'.start) ∧
      (d = .write → v.rmap.Pairwise fun e' f' => e'.stop < f'.start ∨ f'.stop < e'.start)) ∧
    (err.code = .palette →
      (err.place = .tilePalBase ∧ ¬ v.tilePalBase + 16 * 16 ≤ v.nColors) ∨
      (err.place = .sprPalBase ∧ ¬ v.sprPalBase + 16 * 128 ≤ v.nColors) ∨
      (err.place = .transparentSlot ∧ ¬ v.transparentSlot < v.nColors)) ∧
    (err.code = .banks →
      (err.place = .bankOrder ∧ ¬ ((∀ b ∈ v.bankOrder, b < v.nBanks) ∧ v.bankOrder.Nodup)) ∨
      (err.place = .pvisBanks ∧ ¬ ∀ b ∈ v.pvisBanks, b < v.nBanks)) ∧
    (err.code = .geometry →
      (err.place = .cellPos ∧ ¬ ∀ c, c < v.nCells →
        ((cellPos v c).1 + 1) * v.tileW ≤ v.fbW ∧ ((cellPos v c).2 + 1) * v.tileH ≤ v.fbH) ∨
      (err.place = .vis ∧ ¬ (v.vis.x0 ≤ v.vis.x1 ∧ v.vis.x1 < v.fbW ∧ v.vis.y0 ≤ v.vis.y1 ∧ v.vis.y1 < v.fbH)) ∨
      (err.place = .tileCount ∧ ¬ v.tileCount ≤ 0x1000))
end

