-- ==== Sys2Proof/Laws/State.lean ====
section
/-! SUPPORT. One lemma per field per named update of the state, so that no later proof unfolds a record update. -/

namespace Sys2Proof.Machine

/-! setRgb -/
@[simp] theorem setRgb_variant (s : State) (i : Nat) (c : Rgb) : (setRgb s i c).variant = s.variant := rfl
@[simp] theorem setRgb_gfxTile (s : State) (i : Nat) (c : Rgb) : (setRgb s i c).gfxTile = s.gfxTile := rfl
@[simp] theorem setRgb_gfxSpr (s : State) (i : Nat) (c : Rgb) : (setRgb s i c).gfxSpr = s.gfxSpr := rfl
@[simp] theorem setRgb_penUse (s : State) (i : Nat) (c : Rgb) : (setRgb s i c).penUse = s.penUse := rfl
@[simp] theorem setRgb_rom (s : State) (i : Nat) (c : Rgb) : (setRgb s i c).rom = s.rom := rfl
@[simp] theorem setRgb_bankrom (s : State) (i : Nat) (c : Rgb) : (setRgb s i c).bankrom = s.bankrom := rfl
@[simp] theorem setRgb_wram (s : State) (i : Nat) (c : Rgb) : (setRgb s i c).wram = s.wram := rfl
@[simp] theorem setRgb_vram (s : State) (i : Nat) (c : Rgb) : (setRgb s i c).vram = s.vram := rfl
@[simp] theorem setRgb_sprram (s : State) (i : Nat) (c : Rgb) : (setRgb s i c).sprram = s.sprram := rfl
@[simp] theorem setRgb_palram (s : State) (i : Nat) (c : Rgb) : (setRgb s i c).palram = s.palram := rfl
@[simp] theorem setRgb_palrgb (s : State) (i : Nat) (c : Rgb) : (setRgb s i c).palrgb = s.palrgb.set Config.launchRgb i c := rfl
@[simp] theorem setRgb_dirty (s : State) (i : Nat) (c : Rgb) : (setRgb s i c).dirty = s.dirty := rfl
@[simp] theorem setRgb_tcache (s : State) (i : Nat) (c : Rgb) : (setRgb s i c).tcache = s.tcache := rfl
@[simp] theorem setRgb_visb (s : State) (i : Nat) (c : Rgb) : (setRgb s i c).visb = s.visb := rfl
@[simp] theorem setRgb_visbPrev (s : State) (i : Nat) (c : Rgb) : (setRgb s i c).visbPrev = s.visbPrev := rfl
@[simp] theorem setRgb_layer (s : State) (i : Nat) (c : Rgb) : (setRgb s i c).layer = s.layer := rfl
@[simp] theorem setRgb_fb (s : State) (i : Nat) (c : Rgb) : (setRgb s i c).fb = s.fb := rfl
@[simp] theorem setRgb_flip (s : State) (i : Nat) (c : Rgb) : (setRgb s i c).flip = s.flip := rfl
@[simp] theorem setRgb_sprflip (s : State) (i : Nat) (c : Rgb) : (setRgb s i c).sprflip = s.sprflip := rfl
@[simp] theorem setRgb_invert (s : State) (i : Nat) (c : Rgb) : (setRgb s i c).invert = s.invert := rfl
@[simp] theorem setRgb_sndlatch (s : State) (i : Nat) (c : Rgb) : (setRgb s i c).sndlatch = s.sndlatch := rfl
@[simp] theorem setRgb_phase (s : State) (i : Nat) (c : Rgb) : (setRgb s i c).phase = s.phase := rfl
@[simp] theorem setRgb_frameValid (s : State) (i : Nat) (c : Rgb) : (setRgb s i c).frameValid = s.frameValid := rfl
@[simp] theorem setRgb_palchg (s : State) (i : Nat) (c : Rgb) : (setRgb s i c).palchg = s.palchg := rfl
@[simp] theorem setRgb_cfgErr (s : State) (i : Nat) (c : Rgb) : (setRgb s i c).cfgErr = s.cfgErr := rfl
@[simp] theorem setRgb_evt (s : State) (i : Nat) (c : Rgb) : (setRgb s i c).evt = s.evt := rfl
@[simp] theorem setRgb_ports (s : State) (i : Nat) (c : Rgb) : (setRgb s i c).ports = s.ports := rfl
@[simp] theorem setRgb_sndstat (s : State) (i : Nat) (c : Rgb) : (setRgb s i c).sndstat = s.sndstat := rfl
@[simp] theorem setRgb_rdata (s : State) (i : Nat) (c : Rgb) : (setRgb s i c).rdata = s.rdata := rfl
@[simp] theorem setRgb_inbox (s : State) (i : Nat) (c : Rgb) : (setRgb s i c).inbox = s.inbox := rfl
@[simp] theorem setRgb_draws (s : State) (i : Nat) (c : Rgb) : (setRgb s i c).draws = s.draws := rfl

/-! markDirty -/
@[simp] theorem markDirty_variant (s : State) (c : Nat) : (markDirty s c).variant = s.variant := rfl
@[simp] theorem markDirty_gfxTile (s : State) (c : Nat) : (markDirty s c).gfxTile = s.gfxTile := rfl
@[simp] theorem markDirty_gfxSpr (s : State) (c : Nat) : (markDirty s c).gfxSpr = s.gfxSpr := rfl
@[simp] theorem markDirty_penUse (s : State) (c : Nat) : (markDirty s c).penUse = s.penUse := rfl
@[simp] theorem markDirty_rom (s : State) (c : Nat) : (markDirty s c).rom = s.rom := rfl
@[simp] theorem markDirty_bankrom (s : State) (c : Nat) : (markDirty s c).bankrom = s.bankrom := rfl
@[simp] theorem markDirty_wram (s : State) (c : Nat) : (markDirty s c).wram = s.wram := rfl
@[simp] theorem markDirty_vram (s : State) (c : Nat) : (markDirty s c).vram = s.vram := rfl
@[simp] theorem markDirty_sprram (s : State) (c : Nat) : (markDirty s c).sprram = s.sprram := rfl
@[simp] theorem markDirty_palram (s : State) (c : Nat) : (markDirty s c).palram = s.palram := rfl
@[simp] theorem markDirty_palrgb (s : State) (c : Nat) : (markDirty s c).palrgb = s.palrgb := rfl
@[simp] theorem markDirty_dirty (s : State) (c : Nat) : (markDirty s c).dirty = setBit s.dirty c := rfl
@[simp] theorem markDirty_tcache (s : State) (c : Nat) : (markDirty s c).tcache = s.tcache := rfl
@[simp] theorem markDirty_visb (s : State) (c : Nat) : (markDirty s c).visb = s.visb := rfl
@[simp] theorem markDirty_visbPrev (s : State) (c : Nat) : (markDirty s c).visbPrev = s.visbPrev := rfl
@[simp] theorem markDirty_layer (s : State) (c : Nat) : (markDirty s c).layer = s.layer := rfl
@[simp] theorem markDirty_fb (s : State) (c : Nat) : (markDirty s c).fb = s.fb := rfl
@[simp] theorem markDirty_flip (s : State) (c : Nat) : (markDirty s c).flip = s.flip := rfl
@[simp] theorem markDirty_sprflip (s : State) (c : Nat) : (markDirty s c).sprflip = s.sprflip := rfl
@[simp] theorem markDirty_invert (s : State) (c : Nat) : (markDirty s c).invert = s.invert := rfl
@[simp] theorem markDirty_sndlatch (s : State) (c : Nat) : (markDirty s c).sndlatch = s.sndlatch := rfl
@[simp] theorem markDirty_phase (s : State) (c : Nat) : (markDirty s c).phase = s.phase := rfl
@[simp] theorem markDirty_frameValid (s : State) (c : Nat) : (markDirty s c).frameValid = s.frameValid := rfl
@[simp] theorem markDirty_palchg (s : State) (c : Nat) : (markDirty s c).palchg = s.palchg := rfl
@[simp] theorem markDirty_cfgErr (s : State) (c : Nat) : (markDirty s c).cfgErr = s.cfgErr := rfl
@[simp] theorem markDirty_evt (s : State) (c : Nat) : (markDirty s c).evt = s.evt := rfl
@[simp] theorem markDirty_ports (s : State) (c : Nat) : (markDirty s c).ports = s.ports := rfl
@[simp] theorem markDirty_sndstat (s : State) (c : Nat) : (markDirty s c).sndstat = s.sndstat := rfl
@[simp] theorem markDirty_rdata (s : State) (c : Nat) : (markDirty s c).rdata = s.rdata := rfl
@[simp] theorem markDirty_inbox (s : State) (c : Nat) : (markDirty s c).inbox = s.inbox := rfl
@[simp] theorem markDirty_draws (s : State) (c : Nat) : (markDirty s c).draws = s.draws := rfl

/-! emitEvent -/
@[simp] theorem emitEvent_variant (s : State) (e : Event) : (emitEvent s e).variant = s.variant := rfl
@[simp] theorem emitEvent_gfxTile (s : State) (e : Event) : (emitEvent s e).gfxTile = s.gfxTile := rfl
@[simp] theorem emitEvent_gfxSpr (s : State) (e : Event) : (emitEvent s e).gfxSpr = s.gfxSpr := rfl
@[simp] theorem emitEvent_penUse (s : State) (e : Event) : (emitEvent s e).penUse = s.penUse := rfl
@[simp] theorem emitEvent_rom (s : State) (e : Event) : (emitEvent s e).rom = s.rom := rfl
@[simp] theorem emitEvent_bankrom (s : State) (e : Event) : (emitEvent s e).bankrom = s.bankrom := rfl
@[simp] theorem emitEvent_wram (s : State) (e : Event) : (emitEvent s e).wram = s.wram := rfl
@[simp] theorem emitEvent_vram (s : State) (e : Event) : (emitEvent s e).vram = s.vram := rfl
@[simp] theorem emitEvent_sprram (s : State) (e : Event) : (emitEvent s e).sprram = s.sprram := rfl
@[simp] theorem emitEvent_palram (s : State) (e : Event) : (emitEvent s e).palram = s.palram := rfl
@[simp] theorem emitEvent_palrgb (s : State) (e : Event) : (emitEvent s e).palrgb = s.palrgb := rfl
@[simp] theorem emitEvent_dirty (s : State) (e : Event) : (emitEvent s e).dirty = s.dirty := rfl
@[simp] theorem emitEvent_tcache (s : State) (e : Event) : (emitEvent s e).tcache = s.tcache := rfl
@[simp] theorem emitEvent_visb (s : State) (e : Event) : (emitEvent s e).visb = s.visb := rfl
@[simp] theorem emitEvent_visbPrev (s : State) (e : Event) : (emitEvent s e).visbPrev = s.visbPrev := rfl
@[simp] theorem emitEvent_layer (s : State) (e : Event) : (emitEvent s e).layer = s.layer := rfl
@[simp] theorem emitEvent_fb (s : State) (e : Event) : (emitEvent s e).fb = s.fb := rfl
@[simp] theorem emitEvent_flip (s : State) (e : Event) : (emitEvent s e).flip = s.flip := rfl
@[simp] theorem emitEvent_sprflip (s : State) (e : Event) : (emitEvent s e).sprflip = s.sprflip := rfl
@[simp] theorem emitEvent_invert (s : State) (e : Event) : (emitEvent s e).invert = s.invert := rfl
@[simp] theorem emitEvent_sndlatch (s : State) (e : Event) : (emitEvent s e).sndlatch = s.sndlatch := rfl
@[simp] theorem emitEvent_phase (s : State) (e : Event) : (emitEvent s e).phase = s.phase := rfl
@[simp] theorem emitEvent_frameValid (s : State) (e : Event) : (emitEvent s e).frameValid = s.frameValid := rfl
@[simp] theorem emitEvent_palchg (s : State) (e : Event) : (emitEvent s e).palchg = s.palchg := rfl
@[simp] theorem emitEvent_cfgErr (s : State) (e : Event) : (emitEvent s e).cfgErr = s.cfgErr := rfl
@[simp] theorem emitEvent_evt (s : State) (e : Event) : (emitEvent s e).evt = s.evt ++ [e] := rfl
@[simp] theorem emitEvent_ports (s : State) (e : Event) : (emitEvent s e).ports = s.ports := rfl
@[simp] theorem emitEvent_sndstat (s : State) (e : Event) : (emitEvent s e).sndstat = s.sndstat := rfl
@[simp] theorem emitEvent_rdata (s : State) (e : Event) : (emitEvent s e).rdata = s.rdata := rfl
@[simp] theorem emitEvent_inbox (s : State) (e : Event) : (emitEvent s e).inbox = s.inbox := rfl
@[simp] theorem emitEvent_draws (s : State) (e : Event) : (emitEvent s e).draws = s.draws := rfl

/-! raiseSoundNmi -/
@[simp] theorem raiseSoundNmi_variant (s : State) (l : Byte) : (raiseSoundNmi s l).variant = s.variant := rfl
@[simp] theorem raiseSoundNmi_gfxTile (s : State) (l : Byte) : (raiseSoundNmi s l).gfxTile = s.gfxTile := rfl
@[simp] theorem raiseSoundNmi_gfxSpr (s : State) (l : Byte) : (raiseSoundNmi s l).gfxSpr = s.gfxSpr := rfl
@[simp] theorem raiseSoundNmi_penUse (s : State) (l : Byte) : (raiseSoundNmi s l).penUse = s.penUse := rfl
@[simp] theorem raiseSoundNmi_rom (s : State) (l : Byte) : (raiseSoundNmi s l).rom = s.rom := rfl
@[simp] theorem raiseSoundNmi_bankrom (s : State) (l : Byte) : (raiseSoundNmi s l).bankrom = s.bankrom := rfl
@[simp] theorem raiseSoundNmi_wram (s : State) (l : Byte) : (raiseSoundNmi s l).wram = s.wram := rfl
@[simp] theorem raiseSoundNmi_vram (s : State) (l : Byte) : (raiseSoundNmi s l).vram = s.vram := rfl
@[simp] theorem raiseSoundNmi_sprram (s : State) (l : Byte) : (raiseSoundNmi s l).sprram = s.sprram := rfl
@[simp] theorem raiseSoundNmi_palram (s : State) (l : Byte) : (raiseSoundNmi s l).palram = s.palram := rfl
@[simp] theorem raiseSoundNmi_palrgb (s : State) (l : Byte) : (raiseSoundNmi s l).palrgb = s.palrgb := rfl
@[simp] theorem raiseSoundNmi_dirty (s : State) (l : Byte) : (raiseSoundNmi s l).dirty = s.dirty := rfl
@[simp] theorem raiseSoundNmi_tcache (s : State) (l : Byte) : (raiseSoundNmi s l).tcache = s.tcache := rfl
@[simp] theorem raiseSoundNmi_visb (s : State) (l : Byte) : (raiseSoundNmi s l).visb = s.visb := rfl
@[simp] theorem raiseSoundNmi_visbPrev (s : State) (l : Byte) : (raiseSoundNmi s l).visbPrev = s.visbPrev := rfl
@[simp] theorem raiseSoundNmi_layer (s : State) (l : Byte) : (raiseSoundNmi s l).layer = s.layer := rfl
@[simp] theorem raiseSoundNmi_fb (s : State) (l : Byte) : (raiseSoundNmi s l).fb = s.fb := rfl
@[simp] theorem raiseSoundNmi_flip (s : State) (l : Byte) : (raiseSoundNmi s l).flip = s.flip := rfl
@[simp] theorem raiseSoundNmi_sprflip (s : State) (l : Byte) : (raiseSoundNmi s l).sprflip = s.sprflip := rfl
@[simp] theorem raiseSoundNmi_invert (s : State) (l : Byte) : (raiseSoundNmi s l).invert = s.invert := rfl
@[simp] theorem raiseSoundNmi_sndlatch (s : State) (l : Byte) : (raiseSoundNmi s l).sndlatch = l := rfl
@[simp] theorem raiseSoundNmi_phase (s : State) (l : Byte) : (raiseSoundNmi s l).phase = s.phase := rfl
@[simp] theorem raiseSoundNmi_frameValid (s : State) (l : Byte) : (raiseSoundNmi s l).frameValid = s.frameValid := rfl
@[simp] theorem raiseSoundNmi_palchg (s : State) (l : Byte) : (raiseSoundNmi s l).palchg = s.palchg := rfl
@[simp] theorem raiseSoundNmi_cfgErr (s : State) (l : Byte) : (raiseSoundNmi s l).cfgErr = s.cfgErr := rfl
@[simp] theorem raiseSoundNmi_evt (s : State) (l : Byte) : (raiseSoundNmi s l).evt = s.evt ++ [.nmiSound l] := rfl
@[simp] theorem raiseSoundNmi_ports (s : State) (l : Byte) : (raiseSoundNmi s l).ports = s.ports := rfl
@[simp] theorem raiseSoundNmi_sndstat (s : State) (l : Byte) : (raiseSoundNmi s l).sndstat = s.sndstat := rfl
@[simp] theorem raiseSoundNmi_rdata (s : State) (l : Byte) : (raiseSoundNmi s l).rdata = s.rdata := rfl
@[simp] theorem raiseSoundNmi_inbox (s : State) (l : Byte) : (raiseSoundNmi s l).inbox = s.inbox := rfl
@[simp] theorem raiseSoundNmi_draws (s : State) (l : Byte) : (raiseSoundNmi s l).draws = s.draws := rfl

/-! respond -/
@[simp] theorem respond_variant (s : State) (x : Long) : (respond s x).variant = s.variant := rfl
@[simp] theorem respond_gfxTile (s : State) (x : Long) : (respond s x).gfxTile = s.gfxTile := rfl
@[simp] theorem respond_gfxSpr (s : State) (x : Long) : (respond s x).gfxSpr = s.gfxSpr := rfl
@[simp] theorem respond_penUse (s : State) (x : Long) : (respond s x).penUse = s.penUse := rfl
@[simp] theorem respond_rom (s : State) (x : Long) : (respond s x).rom = s.rom := rfl
@[simp] theorem respond_bankrom (s : State) (x : Long) : (respond s x).bankrom = s.bankrom := rfl
@[simp] theorem respond_wram (s : State) (x : Long) : (respond s x).wram = s.wram := rfl
@[simp] theorem respond_vram (s : State) (x : Long) : (respond s x).vram = s.vram := rfl
@[simp] theorem respond_sprram (s : State) (x : Long) : (respond s x).sprram = s.sprram := rfl
@[simp] theorem respond_palram (s : State) (x : Long) : (respond s x).palram = s.palram := rfl
@[simp] theorem respond_palrgb (s : State) (x : Long) : (respond s x).palrgb = s.palrgb := rfl
@[simp] theorem respond_dirty (s : State) (x : Long) : (respond s x).dirty = s.dirty := rfl
@[simp] theorem respond_tcache (s : State) (x : Long) : (respond s x).tcache = s.tcache := rfl
@[simp] theorem respond_visb (s : State) (x : Long) : (respond s x).visb = s.visb := rfl
@[simp] theorem respond_visbPrev (s : State) (x : Long) : (respond s x).visbPrev = s.visbPrev := rfl
@[simp] theorem respond_layer (s : State) (x : Long) : (respond s x).layer = s.layer := rfl
@[simp] theorem respond_fb (s : State) (x : Long) : (respond s x).fb = s.fb := rfl
@[simp] theorem respond_flip (s : State) (x : Long) : (respond s x).flip = s.flip := rfl
@[simp] theorem respond_sprflip (s : State) (x : Long) : (respond s x).sprflip = s.sprflip := rfl
@[simp] theorem respond_invert (s : State) (x : Long) : (respond s x).invert = s.invert := rfl
@[simp] theorem respond_sndlatch (s : State) (x : Long) : (respond s x).sndlatch = s.sndlatch := rfl
@[simp] theorem respond_phase (s : State) (x : Long) : (respond s x).phase = s.phase := rfl
@[simp] theorem respond_frameValid (s : State) (x : Long) : (respond s x).frameValid = s.frameValid := rfl
@[simp] theorem respond_palchg (s : State) (x : Long) : (respond s x).palchg = s.palchg := rfl
@[simp] theorem respond_cfgErr (s : State) (x : Long) : (respond s x).cfgErr = s.cfgErr := rfl
@[simp] theorem respond_evt (s : State) (x : Long) : (respond s x).evt = s.evt := rfl
@[simp] theorem respond_ports (s : State) (x : Long) : (respond s x).ports = s.ports := rfl
@[simp] theorem respond_sndstat (s : State) (x : Long) : (respond s x).sndstat = s.sndstat := rfl
@[simp] theorem respond_rdata (s : State) (x : Long) : (respond s x).rdata = some x := rfl
@[simp] theorem respond_inbox (s : State) (x : Long) : (respond s x).inbox = s.inbox := rfl
@[simp] theorem respond_draws (s : State) (x : Long) : (respond s x).draws = s.draws := rfl

/-! noReply -/
@[simp] theorem noReply_variant (s : State) : (noReply s).variant = s.variant := rfl
@[simp] theorem noReply_gfxTile (s : State) : (noReply s).gfxTile = s.gfxTile := rfl
@[simp] theorem noReply_gfxSpr (s : State) : (noReply s).gfxSpr = s.gfxSpr := rfl
@[simp] theorem noReply_penUse (s : State) : (noReply s).penUse = s.penUse := rfl
@[simp] theorem noReply_rom (s : State) : (noReply s).rom = s.rom := rfl
@[simp] theorem noReply_bankrom (s : State) : (noReply s).bankrom = s.bankrom := rfl
@[simp] theorem noReply_wram (s : State) : (noReply s).wram = s.wram := rfl
@[simp] theorem noReply_vram (s : State) : (noReply s).vram = s.vram := rfl
@[simp] theorem noReply_sprram (s : State) : (noReply s).sprram = s.sprram := rfl
@[simp] theorem noReply_palram (s : State) : (noReply s).palram = s.palram := rfl
@[simp] theorem noReply_palrgb (s : State) : (noReply s).palrgb = s.palrgb := rfl
@[simp] theorem noReply_dirty (s : State) : (noReply s).dirty = s.dirty := rfl
@[simp] theorem noReply_tcache (s : State) : (noReply s).tcache = s.tcache := rfl
@[simp] theorem noReply_visb (s : State) : (noReply s).visb = s.visb := rfl
@[simp] theorem noReply_visbPrev (s : State) : (noReply s).visbPrev = s.visbPrev := rfl
@[simp] theorem noReply_layer (s : State) : (noReply s).layer = s.layer := rfl
@[simp] theorem noReply_fb (s : State) : (noReply s).fb = s.fb := rfl
@[simp] theorem noReply_flip (s : State) : (noReply s).flip = s.flip := rfl
@[simp] theorem noReply_sprflip (s : State) : (noReply s).sprflip = s.sprflip := rfl
@[simp] theorem noReply_invert (s : State) : (noReply s).invert = s.invert := rfl
@[simp] theorem noReply_sndlatch (s : State) : (noReply s).sndlatch = s.sndlatch := rfl
@[simp] theorem noReply_phase (s : State) : (noReply s).phase = s.phase := rfl
@[simp] theorem noReply_frameValid (s : State) : (noReply s).frameValid = s.frameValid := rfl
@[simp] theorem noReply_palchg (s : State) : (noReply s).palchg = s.palchg := rfl
@[simp] theorem noReply_cfgErr (s : State) : (noReply s).cfgErr = s.cfgErr := rfl
@[simp] theorem noReply_evt (s : State) : (noReply s).evt = s.evt := rfl
@[simp] theorem noReply_ports (s : State) : (noReply s).ports = s.ports := rfl
@[simp] theorem noReply_sndstat (s : State) : (noReply s).sndstat = s.sndstat := rfl
@[simp] theorem noReply_rdata (s : State) : (noReply s).rdata = none := rfl
@[simp] theorem noReply_inbox (s : State) : (noReply s).inbox = s.inbox := rfl
@[simp] theorem noReply_draws (s : State) : (noReply s).draws = s.draws := rfl

/-! setPhase -/
@[simp] theorem setPhase_variant (s : State) (p : Phase) : (setPhase s p).variant = s.variant := rfl
@[simp] theorem setPhase_gfxTile (s : State) (p : Phase) : (setPhase s p).gfxTile = s.gfxTile := rfl
@[simp] theorem setPhase_gfxSpr (s : State) (p : Phase) : (setPhase s p).gfxSpr = s.gfxSpr := rfl
@[simp] theorem setPhase_penUse (s : State) (p : Phase) : (setPhase s p).penUse = s.penUse := rfl
@[simp] theorem setPhase_rom (s : State) (p : Phase) : (setPhase s p).rom = s.rom := rfl
@[simp] theorem setPhase_bankrom (s : State) (p : Phase) : (setPhase s p).bankrom = s.bankrom := rfl
@[simp] theorem setPhase_wram (s : State) (p : Phase) : (setPhase s p).wram = s.wram := rfl
@[simp] theorem setPhase_vram (s : State) (p : Phase) : (setPhase s p).vram = s.vram := rfl
@[simp] theorem setPhase_sprram (s : State) (p : Phase) : (setPhase s p).sprram = s.sprram := rfl
@[simp] theorem setPhase_palram (s : State) (p : Phase) : (setPhase s p).palram = s.palram := rfl
@[simp] theorem setPhase_palrgb (s : State) (p : Phase) : (setPhase s p).palrgb = s.palrgb := rfl
@[simp] theorem setPhase_dirty (s : State) (p : Phase) : (setPhase s p).dirty = s.dirty := rfl
@[simp] theorem setPhase_tcache (s : State) (p : Phase) : (setPhase s p).tcache = s.tcache := rfl
@[simp] theorem setPhase_visb (s : State) (p : Phase) : (setPhase s p).visb = s.visb := rfl
@[simp] theorem setPhase_visbPrev (s : State) (p : Phase) : (setPhase s p).visbPrev = s.visbPrev := rfl
@[simp] theorem setPhase_layer (s : State) (p : Phase) : (setPhase s p).layer = s.layer := rfl
@[simp] theorem setPhase_fb (s : State) (p : Phase) : (setPhase s p).fb = s.fb := rfl
@[simp] theorem setPhase_flip (s : State) (p : Phase) : (setPhase s p).flip = s.flip := rfl
@[simp] theorem setPhase_sprflip (s : State) (p : Phase) : (setPhase s p).sprflip = s.sprflip := rfl
@[simp] theorem setPhase_invert (s : State) (p : Phase) : (setPhase s p).invert = s.invert := rfl
@[simp] theorem setPhase_sndlatch (s : State) (p : Phase) : (setPhase s p).sndlatch = s.sndlatch := rfl
@[simp] theorem setPhase_phase (s : State) (p : Phase) : (setPhase s p).phase = p := rfl
@[simp] theorem setPhase_frameValid (s : State) (p : Phase) : (setPhase s p).frameValid = s.frameValid := rfl
@[simp] theorem setPhase_palchg (s : State) (p : Phase) : (setPhase s p).palchg = s.palchg := rfl
@[simp] theorem setPhase_cfgErr (s : State) (p : Phase) : (setPhase s p).cfgErr = s.cfgErr := rfl
@[simp] theorem setPhase_evt (s : State) (p : Phase) : (setPhase s p).evt = s.evt := rfl
@[simp] theorem setPhase_ports (s : State) (p : Phase) : (setPhase s p).ports = s.ports := rfl
@[simp] theorem setPhase_sndstat (s : State) (p : Phase) : (setPhase s p).sndstat = s.sndstat := rfl
@[simp] theorem setPhase_rdata (s : State) (p : Phase) : (setPhase s p).rdata = s.rdata := rfl
@[simp] theorem setPhase_inbox (s : State) (p : Phase) : (setPhase s p).inbox = s.inbox := rfl
@[simp] theorem setPhase_draws (s : State) (p : Phase) : (setPhase s p).draws = s.draws := rfl

/-! startFrame -/
@[simp] theorem startFrame_variant (s : State) : (startFrame s).variant = s.variant := rfl
@[simp] theorem startFrame_gfxTile (s : State) : (startFrame s).gfxTile = s.gfxTile := rfl
@[simp] theorem startFrame_gfxSpr (s : State) : (startFrame s).gfxSpr = s.gfxSpr := rfl
@[simp] theorem startFrame_penUse (s : State) : (startFrame s).penUse = s.penUse := rfl
@[simp] theorem startFrame_rom (s : State) : (startFrame s).rom = s.rom := rfl
@[simp] theorem startFrame_bankrom (s : State) : (startFrame s).bankrom = s.bankrom := rfl
@[simp] theorem startFrame_wram (s : State) : (startFrame s).wram = s.wram := rfl
@[simp] theorem startFrame_vram (s : State) : (startFrame s).vram = s.vram := rfl
@[simp] theorem startFrame_sprram (s : State) : (startFrame s).sprram = s.sprram := rfl
@[simp] theorem startFrame_palram (s : State) : (startFrame s).palram = s.palram := rfl
@[simp] theorem startFrame_palrgb (s : State) : (startFrame s).palrgb = s.palrgb := rfl
@[simp] theorem startFrame_dirty (s : State) : (startFrame s).dirty = s.dirty := rfl
@[simp] theorem startFrame_tcache (s : State) : (startFrame s).tcache = s.tcache := rfl
@[simp] theorem startFrame_visb (s : State) : (startFrame s).visb = s.visb := rfl
@[simp] theorem startFrame_visbPrev (s : State) : (startFrame s).visbPrev = s.visbPrev := rfl
@[simp] theorem startFrame_layer (s : State) : (startFrame s).layer = s.layer := rfl
@[simp] theorem startFrame_fb (s : State) : (startFrame s).fb = s.fb := rfl
@[simp] theorem startFrame_flip (s : State) : (startFrame s).flip = s.flip := rfl
@[simp] theorem startFrame_sprflip (s : State) : (startFrame s).sprflip = s.sprflip := rfl
@[simp] theorem startFrame_invert (s : State) : (startFrame s).invert = s.invert := rfl
@[simp] theorem startFrame_sndlatch (s : State) : (startFrame s).sndlatch = s.sndlatch := rfl
@[simp] theorem startFrame_phase (s : State) : (startFrame s).phase = .updatingTiles := rfl
@[simp] theorem startFrame_frameValid (s : State) : (startFrame s).frameValid = false := rfl
@[simp] theorem startFrame_palchg (s : State) : (startFrame s).palchg = s.palchg := rfl
@[simp] theorem startFrame_cfgErr (s : State) : (startFrame s).cfgErr = s.cfgErr := rfl
@[simp] theorem startFrame_evt (s : State) : (startFrame s).evt = s.evt := rfl
@[simp] theorem startFrame_ports (s : State) : (startFrame s).ports = s.ports := rfl
@[simp] theorem startFrame_sndstat (s : State) : (startFrame s).sndstat = s.sndstat := rfl
@[simp] theorem startFrame_rdata (s : State) : (startFrame s).rdata = s.rdata := rfl
@[simp] theorem startFrame_inbox (s : State) : (startFrame s).inbox = s.inbox := rfl
@[simp] theorem startFrame_draws (s : State) : (startFrame s).draws = s.draws := rfl

/-! finishFrame -/
@[simp] theorem finishFrame_variant (s : State) : (finishFrame s).variant = s.variant := rfl
@[simp] theorem finishFrame_gfxTile (s : State) : (finishFrame s).gfxTile = s.gfxTile := rfl
@[simp] theorem finishFrame_gfxSpr (s : State) : (finishFrame s).gfxSpr = s.gfxSpr := rfl
@[simp] theorem finishFrame_penUse (s : State) : (finishFrame s).penUse = s.penUse := rfl
@[simp] theorem finishFrame_rom (s : State) : (finishFrame s).rom = s.rom := rfl
@[simp] theorem finishFrame_bankrom (s : State) : (finishFrame s).bankrom = s.bankrom := rfl
@[simp] theorem finishFrame_wram (s : State) : (finishFrame s).wram = s.wram := rfl
@[simp] theorem finishFrame_vram (s : State) : (finishFrame s).vram = s.vram := rfl
@[simp] theorem finishFrame_sprram (s : State) : (finishFrame s).sprram = s.sprram := rfl
@[simp] theorem finishFrame_palram (s : State) : (finishFrame s).palram = s.palram := rfl
@[simp] theorem finishFrame_palrgb (s : State) : (finishFrame s).palrgb = s.palrgb := rfl
@[simp] theorem finishFrame_dirty (s : State) : (finishFrame s).dirty = s.dirty := rfl
@[simp] theorem finishFrame_tcache (s : State) : (finishFrame s).tcache = s.tcache := rfl
@[simp] theorem finishFrame_visb (s : State) : (finishFrame s).visb = s.visb := rfl
@[simp] theorem finishFrame_visbPrev (s : State) : (finishFrame s).visbPrev = s.visbPrev := rfl
@[simp] theorem finishFrame_layer (s : State) : (finishFrame s).layer = s.layer := rfl
@[simp] theorem finishFrame_fb (s : State) : (finishFrame s).fb = s.fb := rfl
@[simp] theorem finishFrame_flip (s : State) : (finishFrame s).flip = s.flip := rfl
@[simp] theorem finishFrame_sprflip (s : State) : (finishFrame s).sprflip = s.sprflip := rfl
@[simp] theorem finishFrame_invert (s : State) : (finishFrame s).invert = s.invert := rfl
@[simp] theorem finishFrame_sndlatch (s : State) : (finishFrame s).sndlatch = s.sndlatch := rfl
@[simp] theorem finishFrame_phase (s : State) : (finishFrame s).phase = .idle := rfl
@[simp] theorem finishFrame_frameValid (s : State) : (finishFrame s).frameValid = true := rfl
@[simp] theorem finishFrame_palchg (s : State) : (finishFrame s).palchg = s.palchg := rfl
@[simp] theorem finishFrame_cfgErr (s : State) : (finishFrame s).cfgErr = s.cfgErr := rfl
@[simp] theorem finishFrame_evt (s : State) : (finishFrame s).evt = s.evt ++ [.frame (framePixels s)] := rfl
@[simp] theorem finishFrame_ports (s : State) : (finishFrame s).ports = s.ports := rfl
@[simp] theorem finishFrame_sndstat (s : State) : (finishFrame s).sndstat = s.sndstat := rfl
@[simp] theorem finishFrame_rdata (s : State) : (finishFrame s).rdata = s.rdata := rfl
@[simp] theorem finishFrame_inbox (s : State) : (finishFrame s).inbox = s.inbox := rfl
@[simp] theorem finishFrame_draws (s : State) : (finishFrame s).draws = s.draws := rfl

/-! updateTiles -/
@[simp] theorem updateTiles_variant (s : State) : (updateTiles s).variant = s.variant := rfl
@[simp] theorem updateTiles_gfxTile (s : State) : (updateTiles s).gfxTile = s.gfxTile := rfl
@[simp] theorem updateTiles_gfxSpr (s : State) : (updateTiles s).gfxSpr = s.gfxSpr := rfl
@[simp] theorem updateTiles_penUse (s : State) : (updateTiles s).penUse = s.penUse := rfl
@[simp] theorem updateTiles_rom (s : State) : (updateTiles s).rom = s.rom := rfl
@[simp] theorem updateTiles_bankrom (s : State) : (updateTiles s).bankrom = s.bankrom := rfl
@[simp] theorem updateTiles_wram (s : State) : (updateTiles s).wram = s.wram := rfl
@[simp] theorem updateTiles_vram (s : State) : (updateTiles s).vram = s.vram := rfl
@[simp] theorem updateTiles_sprram (s : State) : (updateTiles s).sprram = s.sprram := rfl
@[simp] theorem updateTiles_palram (s : State) : (updateTiles s).palram = s.palram := rfl
@[simp] theorem updateTiles_palrgb (s : State) : (updateTiles s).palrgb = s.palrgb := rfl
@[simp] theorem updateTiles_dirty (s : State) : (updateTiles s).dirty = (refreshedTables s).2 := rfl
@[simp] theorem updateTiles_tcache (s : State) : (updateTiles s).tcache = (refreshedTables s).1 := rfl
@[simp] theorem updateTiles_visb (s : State) : (updateTiles s).visb = s.visb := rfl
@[simp] theorem updateTiles_visbPrev (s : State) : (updateTiles s).visbPrev = s.visbPrev := rfl
@[simp] theorem updateTiles_layer (s : State) : (updateTiles s).layer = s.layer := rfl
@[simp] theorem updateTiles_fb (s : State) : (updateTiles s).fb = s.fb := rfl
@[simp] theorem updateTiles_flip (s : State) : (updateTiles s).flip = s.flip := rfl
@[simp] theorem updateTiles_sprflip (s : State) : (updateTiles s).sprflip = s.sprflip := rfl
@[simp] theorem updateTiles_invert (s : State) : (updateTiles s).invert = s.invert := rfl
@[simp] theorem updateTiles_sndlatch (s : State) : (updateTiles s).sndlatch = s.sndlatch := rfl
@[simp] theorem updateTiles_phase (s : State) : (updateTiles s).phase = s.phase := rfl
@[simp] theorem updateTiles_frameValid (s : State) : (updateTiles s).frameValid = s.frameValid := rfl
@[simp] theorem updateTiles_palchg (s : State) : (updateTiles s).palchg = s.palchg := rfl
@[simp] theorem updateTiles_cfgErr (s : State) : (updateTiles s).cfgErr = s.cfgErr := rfl
@[simp] theorem updateTiles_evt (s : State) : (updateTiles s).evt = s.evt := rfl
@[simp] theorem updateTiles_ports (s : State) : (updateTiles s).ports = s.ports := rfl
@[simp] theorem updateTiles_sndstat (s : State) : (updateTiles s).sndstat = s.sndstat := rfl
@[simp] theorem updateTiles_rdata (s : State) : (updateTiles s).rdata = s.rdata := rfl
@[simp] theorem updateTiles_inbox (s : State) : (updateTiles s).inbox = s.inbox := rfl
@[simp] theorem updateTiles_draws (s : State) : (updateTiles s).draws = s.draws := rfl

/-! rebuildVisibility -/
@[simp] theorem rebuildVisibility_variant (s : State) : (rebuildVisibility s).variant = s.variant := rfl
@[simp] theorem rebuildVisibility_gfxTile (s : State) : (rebuildVisibility s).gfxTile = s.gfxTile := rfl
@[simp] theorem rebuildVisibility_gfxSpr (s : State) : (rebuildVisibility s).gfxSpr = s.gfxSpr := rfl
@[simp] theorem rebuildVisibility_penUse (s : State) : (rebuildVisibility s).penUse = s.penUse := rfl
@[simp] theorem rebuildVisibility_rom (s : State) : (rebuildVisibility s).rom = s.rom := rfl
@[simp] theorem rebuildVisibility_bankrom (s : State) : (rebuildVisibility s).bankrom = s.bankrom := rfl
@[simp] theorem rebuildVisibility_wram (s : State) : (rebuildVisibility s).wram = s.wram := rfl
@[simp] theorem rebuildVisibility_vram (s : State) : (rebuildVisibility s).vram = s.vram := rfl
@[simp] theorem rebuildVisibility_sprram (s : State) : (rebuildVisibility s).sprram = s.sprram := rfl
@[simp] theorem rebuildVisibility_palram (s : State) : (rebuildVisibility s).palram = s.palram := rfl
@[simp] theorem rebuildVisibility_palrgb (s : State) : (rebuildVisibility s).palrgb = s.palrgb := rfl
@[simp] theorem rebuildVisibility_dirty (s : State) : (rebuildVisibility s).dirty = s.dirty := rfl
@[simp] theorem rebuildVisibility_tcache (s : State) : (rebuildVisibility s).tcache = s.tcache := rfl
@[simp] theorem rebuildVisibility_visb (s : State) : (rebuildVisibility s).visb = visibility s := rfl
@[simp] theorem rebuildVisibility_visbPrev (s : State) : (rebuildVisibility s).visbPrev = s.visbPrev := rfl
@[simp] theorem rebuildVisibility_layer (s : State) : (rebuildVisibility s).layer = s.layer := rfl
@[simp] theorem rebuildVisibility_fb (s : State) : (rebuildVisibility s).fb = s.fb := rfl
@[simp] theorem rebuildVisibility_flip (s : State) : (rebuildVisibility s).flip = s.flip := rfl
@[simp] theorem rebuildVisibility_sprflip (s : State) : (rebuildVisibility s).sprflip = s.sprflip := rfl
@[simp] theorem rebuildVisibility_invert (s : State) : (rebuildVisibility s).invert = s.invert := rfl
@[simp] theorem rebuildVisibility_sndlatch (s : State) : (rebuildVisibility s).sndlatch = s.sndlatch := rfl
@[simp] theorem rebuildVisibility_phase (s : State) : (rebuildVisibility s).phase = s.phase := rfl
@[simp] theorem rebuildVisibility_frameValid (s : State) : (rebuildVisibility s).frameValid = s.frameValid := rfl
@[simp] theorem rebuildVisibility_palchg (s : State) : (rebuildVisibility s).palchg = s.palchg := rfl
@[simp] theorem rebuildVisibility_cfgErr (s : State) : (rebuildVisibility s).cfgErr = s.cfgErr := rfl
@[simp] theorem rebuildVisibility_evt (s : State) : (rebuildVisibility s).evt = s.evt := rfl
@[simp] theorem rebuildVisibility_ports (s : State) : (rebuildVisibility s).ports = s.ports := rfl
@[simp] theorem rebuildVisibility_sndstat (s : State) : (rebuildVisibility s).sndstat = s.sndstat := rfl
@[simp] theorem rebuildVisibility_rdata (s : State) : (rebuildVisibility s).rdata = s.rdata := rfl
@[simp] theorem rebuildVisibility_inbox (s : State) : (rebuildVisibility s).inbox = s.inbox := rfl
@[simp] theorem rebuildVisibility_draws (s : State) : (rebuildVisibility s).draws = s.draws := rfl

/-! applyPaletteChange -/
@[simp] theorem applyPaletteChange_variant (s : State) : (applyPaletteChange s).variant = s.variant := rfl
@[simp] theorem applyPaletteChange_gfxTile (s : State) : (applyPaletteChange s).gfxTile = s.gfxTile := rfl
@[simp] theorem applyPaletteChange_gfxSpr (s : State) : (applyPaletteChange s).gfxSpr = s.gfxSpr := rfl
@[simp] theorem applyPaletteChange_penUse (s : State) : (applyPaletteChange s).penUse = s.penUse := rfl
@[simp] theorem applyPaletteChange_rom (s : State) : (applyPaletteChange s).rom = s.rom := rfl
@[simp] theorem applyPaletteChange_bankrom (s : State) : (applyPaletteChange s).bankrom = s.bankrom := rfl
@[simp] theorem applyPaletteChange_wram (s : State) : (applyPaletteChange s).wram = s.wram := rfl
@[simp] theorem applyPaletteChange_vram (s : State) : (applyPaletteChange s).vram = s.vram := rfl
@[simp] theorem applyPaletteChange_sprram (s : State) : (applyPaletteChange s).sprram = s.sprram := rfl
@[simp] theorem applyPaletteChange_palram (s : State) : (applyPaletteChange s).palram = s.palram := rfl
@[simp] theorem applyPaletteChange_palrgb (s : State) : (applyPaletteChange s).palrgb = s.palrgb := rfl
@[simp] theorem applyPaletteChange_dirty (s : State) : (applyPaletteChange s).dirty = s.dirty := rfl
@[simp] theorem applyPaletteChange_tcache (s : State) : (applyPaletteChange s).tcache = s.tcache := rfl
@[simp] theorem applyPaletteChange_visb (s : State) : (applyPaletteChange s).visb = s.visb := rfl
@[simp] theorem applyPaletteChange_visbPrev (s : State) : (applyPaletteChange s).visbPrev = s.visb := rfl
@[simp] theorem applyPaletteChange_layer (s : State) : (applyPaletteChange s).layer = s.layer := rfl
@[simp] theorem applyPaletteChange_fb (s : State) : (applyPaletteChange s).fb = s.fb := rfl
@[simp] theorem applyPaletteChange_flip (s : State) : (applyPaletteChange s).flip = s.flip := rfl
@[simp] theorem applyPaletteChange_sprflip (s : State) : (applyPaletteChange s).sprflip = s.sprflip := rfl
@[simp] theorem applyPaletteChange_invert (s : State) : (applyPaletteChange s).invert = s.invert := rfl
@[simp] theorem applyPaletteChange_sndlatch (s : State) : (applyPaletteChange s).sndlatch = s.sndlatch := rfl
@[simp] theorem applyPaletteChange_phase (s : State) : (applyPaletteChange s).phase = s.phase := rfl
@[simp] theorem applyPaletteChange_frameValid (s : State) : (applyPaletteChange s).frameValid = s.frameValid := rfl
@[simp] theorem applyPaletteChange_palchg (s : State) : (applyPaletteChange s).palchg = paletteChanged s.visb s.visbPrev := rfl
@[simp] theorem applyPaletteChange_cfgErr (s : State) : (applyPaletteChange s).cfgErr = s.cfgErr := rfl
@[simp] theorem applyPaletteChange_evt (s : State) : (applyPaletteChange s).evt = s.evt := rfl
@[simp] theorem applyPaletteChange_ports (s : State) : (applyPaletteChange s).ports = s.ports := rfl
@[simp] theorem applyPaletteChange_sndstat (s : State) : (applyPaletteChange s).sndstat = s.sndstat := rfl
@[simp] theorem applyPaletteChange_rdata (s : State) : (applyPaletteChange s).rdata = s.rdata := rfl
@[simp] theorem applyPaletteChange_inbox (s : State) : (applyPaletteChange s).inbox = s.inbox := rfl
@[simp] theorem applyPaletteChange_draws (s : State) : (applyPaletteChange s).draws = s.draws := rfl

/-! renderTiles -/
@[simp] theorem renderTiles_variant (s : State) : (renderTiles s).variant = s.variant := rfl
@[simp] theorem renderTiles_gfxTile (s : State) : (renderTiles s).gfxTile = s.gfxTile := rfl
@[simp] theorem renderTiles_gfxSpr (s : State) : (renderTiles s).gfxSpr = s.gfxSpr := rfl
@[simp] theorem renderTiles_penUse (s : State) : (renderTiles s).penUse = s.penUse := rfl
@[simp] theorem renderTiles_rom (s : State) : (renderTiles s).rom = s.rom := rfl
@[simp] theorem renderTiles_bankrom (s : State) : (renderTiles s).bankrom = s.bankrom := rfl
@[simp] theorem renderTiles_wram (s : State) : (renderTiles s).wram = s.wram := rfl
@[simp] theorem renderTiles_vram (s : State) : (renderTiles s).vram = s.vram := rfl
@[simp] theorem renderTiles_sprram (s : State) : (renderTiles s).sprram = s.sprram := rfl
@[simp] theorem renderTiles_palram (s : State) : (renderTiles s).palram = s.palram := rfl
@[simp] theorem renderTiles_palrgb (s : State) : (renderTiles s).palrgb = s.palrgb := rfl
@[simp] theorem renderTiles_dirty (s : State) : (renderTiles s).dirty = s.dirty := rfl
@[simp] theorem renderTiles_tcache (s : State) : (renderTiles s).tcache = s.tcache := rfl
@[simp] theorem renderTiles_visb (s : State) : (renderTiles s).visb = s.visb := rfl
@[simp] theorem renderTiles_visbPrev (s : State) : (renderTiles s).visbPrev = s.visbPrev := rfl
@[simp] theorem renderTiles_layer (s : State) : (renderTiles s).layer = renderedLayer s := rfl
@[simp] theorem renderTiles_fb (s : State) : (renderTiles s).fb = s.fb := rfl
@[simp] theorem renderTiles_flip (s : State) : (renderTiles s).flip = s.flip := rfl
@[simp] theorem renderTiles_sprflip (s : State) : (renderTiles s).sprflip = s.sprflip := rfl
@[simp] theorem renderTiles_invert (s : State) : (renderTiles s).invert = s.invert := rfl
@[simp] theorem renderTiles_sndlatch (s : State) : (renderTiles s).sndlatch = s.sndlatch := rfl
@[simp] theorem renderTiles_phase (s : State) : (renderTiles s).phase = s.phase := rfl
@[simp] theorem renderTiles_frameValid (s : State) : (renderTiles s).frameValid = s.frameValid := rfl
@[simp] theorem renderTiles_palchg (s : State) : (renderTiles s).palchg = s.palchg := rfl
@[simp] theorem renderTiles_cfgErr (s : State) : (renderTiles s).cfgErr = s.cfgErr := rfl
@[simp] theorem renderTiles_evt (s : State) : (renderTiles s).evt = s.evt := rfl
@[simp] theorem renderTiles_ports (s : State) : (renderTiles s).ports = s.ports := rfl
@[simp] theorem renderTiles_sndstat (s : State) : (renderTiles s).sndstat = s.sndstat := rfl
@[simp] theorem renderTiles_rdata (s : State) : (renderTiles s).rdata = s.rdata := rfl
@[simp] theorem renderTiles_inbox (s : State) : (renderTiles s).inbox = s.inbox := rfl
@[simp] theorem renderTiles_draws (s : State) : (renderTiles s).draws = s.draws := rfl

/-! renderSprites -/
@[simp] theorem renderSprites_variant (s : State) : (renderSprites s).variant = s.variant := rfl
@[simp] theorem renderSprites_gfxTile (s : State) : (renderSprites s).gfxTile = s.gfxTile := rfl
@[simp] theorem renderSprites_gfxSpr (s : State) : (renderSprites s).gfxSpr = s.gfxSpr := rfl
@[simp] theorem renderSprites_penUse (s : State) : (renderSprites s).penUse = s.penUse := rfl
@[simp] theorem renderSprites_rom (s : State) : (renderSprites s).rom = s.rom := rfl
@[simp] theorem renderSprites_bankrom (s : State) : (renderSprites s).bankrom = s.bankrom := rfl
@[simp] theorem renderSprites_wram (s : State) : (renderSprites s).wram = s.wram := rfl
@[simp] theorem renderSprites_vram (s : State) : (renderSprites s).vram = s.vram := rfl
@[simp] theorem renderSprites_sprram (s : State) : (renderSprites s).sprram = s.sprram := rfl
@[simp] theorem renderSprites_palram (s : State) : (renderSprites s).palram = s.palram := rfl
@[simp] theorem renderSprites_palrgb (s : State) : (renderSprites s).palrgb = s.palrgb := rfl
@[simp] theorem renderSprites_dirty (s : State) : (renderSprites s).dirty = s.dirty := rfl
@[simp] theorem renderSprites_tcache (s : State) : (renderSprites s).tcache = s.tcache := rfl
@[simp] theorem renderSprites_visb (s : State) : (renderSprites s).visb = s.visb := rfl
@[simp] theorem renderSprites_visbPrev (s : State) : (renderSprites s).visbPrev = s.visbPrev := rfl
@[simp] theorem renderSprites_layer (s : State) : (renderSprites s).layer = s.layer := rfl
@[simp] theorem renderSprites_fb (s : State) : (renderSprites s).fb = renderedSprites s := rfl
@[simp] theorem renderSprites_flip (s : State) : (renderSprites s).flip = s.flip := rfl
@[simp] theorem renderSprites_sprflip (s : State) : (renderSprites s).sprflip = s.sprflip := rfl
@[simp] theorem renderSprites_invert (s : State) : (renderSprites s).invert = s.invert := rfl
@[simp] theorem renderSprites_sndlatch (s : State) : (renderSprites s).sndlatch = s.sndlatch := rfl
@[simp] theorem renderSprites_phase (s : State) : (renderSprites s).phase = s.phase := rfl
@[simp] theorem renderSprites_frameValid (s : State) : (renderSprites s).frameValid = s.frameValid := rfl
@[simp] theorem renderSprites_palchg (s : State) : (renderSprites s).palchg = s.palchg := rfl
@[simp] theorem renderSprites_cfgErr (s : State) : (renderSprites s).cfgErr = s.cfgErr := rfl
@[simp] theorem renderSprites_evt (s : State) : (renderSprites s).evt = s.evt := rfl
@[simp] theorem renderSprites_ports (s : State) : (renderSprites s).ports = s.ports := rfl
@[simp] theorem renderSprites_sndstat (s : State) : (renderSprites s).sndstat = s.sndstat := rfl
@[simp] theorem renderSprites_rdata (s : State) : (renderSprites s).rdata = s.rdata := rfl
@[simp] theorem renderSprites_inbox (s : State) : (renderSprites s).inbox = s.inbox := rfl
@[simp] theorem renderSprites_draws (s : State) : (renderSprites s).draws = s.draws := rfl

/-! compositeLayers -/
@[simp] theorem compositeLayers_variant (s : State) : (compositeLayers s).variant = s.variant := rfl
@[simp] theorem compositeLayers_gfxTile (s : State) : (compositeLayers s).gfxTile = s.gfxTile := rfl
@[simp] theorem compositeLayers_gfxSpr (s : State) : (compositeLayers s).gfxSpr = s.gfxSpr := rfl
@[simp] theorem compositeLayers_penUse (s : State) : (compositeLayers s).penUse = s.penUse := rfl
@[simp] theorem compositeLayers_rom (s : State) : (compositeLayers s).rom = s.rom := rfl
@[simp] theorem compositeLayers_bankrom (s : State) : (compositeLayers s).bankrom = s.bankrom := rfl
@[simp] theorem compositeLayers_wram (s : State) : (compositeLayers s).wram = s.wram := rfl
@[simp] theorem compositeLayers_vram (s : State) : (compositeLayers s).vram = s.vram := rfl
@[simp] theorem compositeLayers_sprram (s : State) : (compositeLayers s).sprram = s.sprram := rfl
@[simp] theorem compositeLayers_palram (s : State) : (compositeLayers s).palram = s.palram := rfl
@[simp] theorem compositeLayers_palrgb (s : State) : (compositeLayers s).palrgb = s.palrgb := rfl
@[simp] theorem compositeLayers_dirty (s : State) : (compositeLayers s).dirty = s.dirty := rfl
@[simp] theorem compositeLayers_tcache (s : State) : (compositeLayers s).tcache = s.tcache := rfl
@[simp] theorem compositeLayers_visb (s : State) : (compositeLayers s).visb = s.visb := rfl
@[simp] theorem compositeLayers_visbPrev (s : State) : (compositeLayers s).visbPrev = s.visbPrev := rfl
@[simp] theorem compositeLayers_layer (s : State) : (compositeLayers s).layer = s.layer := rfl
@[simp] theorem compositeLayers_fb (s : State) : (compositeLayers s).fb = (clipPlaces s.variant.vis).foldl (compositePixel s) s.fb := rfl
@[simp] theorem compositeLayers_flip (s : State) : (compositeLayers s).flip = s.flip := rfl
@[simp] theorem compositeLayers_sprflip (s : State) : (compositeLayers s).sprflip = s.sprflip := rfl
@[simp] theorem compositeLayers_invert (s : State) : (compositeLayers s).invert = s.invert := rfl
@[simp] theorem compositeLayers_sndlatch (s : State) : (compositeLayers s).sndlatch = s.sndlatch := rfl
@[simp] theorem compositeLayers_phase (s : State) : (compositeLayers s).phase = s.phase := rfl
@[simp] theorem compositeLayers_frameValid (s : State) : (compositeLayers s).frameValid = s.frameValid := rfl
@[simp] theorem compositeLayers_palchg (s : State) : (compositeLayers s).palchg = s.palchg := rfl
@[simp] theorem compositeLayers_cfgErr (s : State) : (compositeLayers s).cfgErr = s.cfgErr := rfl
@[simp] theorem compositeLayers_evt (s : State) : (compositeLayers s).evt = s.evt := rfl
@[simp] theorem compositeLayers_ports (s : State) : (compositeLayers s).ports = s.ports := rfl
@[simp] theorem compositeLayers_sndstat (s : State) : (compositeLayers s).sndstat = s.sndstat := rfl
@[simp] theorem compositeLayers_rdata (s : State) : (compositeLayers s).rdata = s.rdata := rfl
@[simp] theorem compositeLayers_inbox (s : State) : (compositeLayers s).inbox = s.inbox := rfl
@[simp] theorem compositeLayers_draws (s : State) : (compositeLayers s).draws = s.draws := rfl

/-! withMemory, on every field that is no byte array -/
@[simp] theorem withMemory_variant (s : State) (r : Region) (m : Memory) : (withMemory s r m).variant = s.variant := by cases r <;> rfl
@[simp] theorem withMemory_gfxTile (s : State) (r : Region) (m : Memory) : (withMemory s r m).gfxTile = s.gfxTile := by cases r <;> rfl
@[simp] theorem withMemory_gfxSpr (s : State) (r : Region) (m : Memory) : (withMemory s r m).gfxSpr = s.gfxSpr := by cases r <;> rfl
@[simp] theorem withMemory_penUse (s : State) (r : Region) (m : Memory) : (withMemory s r m).penUse = s.penUse := by cases r <;> rfl
@[simp] theorem withMemory_palrgb (s : State) (r : Region) (m : Memory) : (withMemory s r m).palrgb = s.palrgb := by cases r <;> rfl
@[simp] theorem withMemory_dirty (s : State) (r : Region) (m : Memory) : (withMemory s r m).dirty = s.dirty := by cases r <;> rfl
@[simp] theorem withMemory_tcache (s : State) (r : Region) (m : Memory) : (withMemory s r m).tcache = s.tcache := by cases r <;> rfl
@[simp] theorem withMemory_visb (s : State) (r : Region) (m : Memory) : (withMemory s r m).visb = s.visb := by cases r <;> rfl
@[simp] theorem withMemory_visbPrev (s : State) (r : Region) (m : Memory) : (withMemory s r m).visbPrev = s.visbPrev := by cases r <;> rfl
@[simp] theorem withMemory_layer (s : State) (r : Region) (m : Memory) : (withMemory s r m).layer = s.layer := by cases r <;> rfl
@[simp] theorem withMemory_fb (s : State) (r : Region) (m : Memory) : (withMemory s r m).fb = s.fb := by cases r <;> rfl
@[simp] theorem withMemory_flip (s : State) (r : Region) (m : Memory) : (withMemory s r m).flip = s.flip := by cases r <;> rfl
@[simp] theorem withMemory_sprflip (s : State) (r : Region) (m : Memory) : (withMemory s r m).sprflip = s.sprflip := by cases r <;> rfl
@[simp] theorem withMemory_invert (s : State) (r : Region) (m : Memory) : (withMemory s r m).invert = s.invert := by cases r <;> rfl
@[simp] theorem withMemory_sndlatch (s : State) (r : Region) (m : Memory) : (withMemory s r m).sndlatch = s.sndlatch := by cases r <;> rfl
@[simp] theorem withMemory_phase (s : State) (r : Region) (m : Memory) : (withMemory s r m).phase = s.phase := by cases r <;> rfl
@[simp] theorem withMemory_frameValid (s : State) (r : Region) (m : Memory) : (withMemory s r m).frameValid = s.frameValid := by cases r <;> rfl
@[simp] theorem withMemory_palchg (s : State) (r : Region) (m : Memory) : (withMemory s r m).palchg = s.palchg := by cases r <;> rfl
@[simp] theorem withMemory_cfgErr (s : State) (r : Region) (m : Memory) : (withMemory s r m).cfgErr = s.cfgErr := by cases r <;> rfl
@[simp] theorem withMemory_evt (s : State) (r : Region) (m : Memory) : (withMemory s r m).evt = s.evt := by cases r <;> rfl
@[simp] theorem withMemory_ports (s : State) (r : Region) (m : Memory) : (withMemory s r m).ports = s.ports := by cases r <;> rfl
@[simp] theorem withMemory_sndstat (s : State) (r : Region) (m : Memory) : (withMemory s r m).sndstat = s.sndstat := by cases r <;> rfl
@[simp] theorem withMemory_rdata (s : State) (r : Region) (m : Memory) : (withMemory s r m).rdata = s.rdata := by cases r <;> rfl
@[simp] theorem withMemory_inbox (s : State) (r : Region) (m : Memory) : (withMemory s r m).inbox = s.inbox := by cases r <;> rfl
@[simp] theorem withMemory_draws (s : State) (r : Region) (m : Memory) : (withMemory s r m).draws = s.draws := by cases r <;> rfl

/-! setByteAt, on every field that is no byte array -/
@[simp] theorem setByteAt_variant (s : State) (r : Region) (off : Nat) (x : Byte) : (setByteAt s r off x).variant = s.variant := by cases r <;> rfl
@[simp] theorem setByteAt_gfxTile (s : State) (r : Region) (off : Nat) (x : Byte) : (setByteAt s r off x).gfxTile = s.gfxTile := by cases r <;> rfl
@[simp] theorem setByteAt_gfxSpr (s : State) (r : Region) (off : Nat) (x : Byte) : (setByteAt s r off x).gfxSpr = s.gfxSpr := by cases r <;> rfl
@[simp] theorem setByteAt_penUse (s : State) (r : Region) (off : Nat) (x : Byte) : (setByteAt s r off x).penUse = s.penUse := by cases r <;> rfl
@[simp] theorem setByteAt_palrgb (s : State) (r : Region) (off : Nat) (x : Byte) : (setByteAt s r off x).palrgb = s.palrgb := by cases r <;> rfl
@[simp] theorem setByteAt_dirty (s : State) (r : Region) (off : Nat) (x : Byte) : (setByteAt s r off x).dirty = s.dirty := by cases r <;> rfl
@[simp] theorem setByteAt_tcache (s : State) (r : Region) (off : Nat) (x : Byte) : (setByteAt s r off x).tcache = s.tcache := by cases r <;> rfl
@[simp] theorem setByteAt_visb (s : State) (r : Region) (off : Nat) (x : Byte) : (setByteAt s r off x).visb = s.visb := by cases r <;> rfl
@[simp] theorem setByteAt_visbPrev (s : State) (r : Region) (off : Nat) (x : Byte) : (setByteAt s r off x).visbPrev = s.visbPrev := by cases r <;> rfl
@[simp] theorem setByteAt_layer (s : State) (r : Region) (off : Nat) (x : Byte) : (setByteAt s r off x).layer = s.layer := by cases r <;> rfl
@[simp] theorem setByteAt_fb (s : State) (r : Region) (off : Nat) (x : Byte) : (setByteAt s r off x).fb = s.fb := by cases r <;> rfl
@[simp] theorem setByteAt_flip (s : State) (r : Region) (off : Nat) (x : Byte) : (setByteAt s r off x).flip = s.flip := by cases r <;> rfl
@[simp] theorem setByteAt_sprflip (s : State) (r : Region) (off : Nat) (x : Byte) : (setByteAt s r off x).sprflip = s.sprflip := by cases r <;> rfl
@[simp] theorem setByteAt_invert (s : State) (r : Region) (off : Nat) (x : Byte) : (setByteAt s r off x).invert = s.invert := by cases r <;> rfl
@[simp] theorem setByteAt_sndlatch (s : State) (r : Region) (off : Nat) (x : Byte) : (setByteAt s r off x).sndlatch = s.sndlatch := by cases r <;> rfl
@[simp] theorem setByteAt_phase (s : State) (r : Region) (off : Nat) (x : Byte) : (setByteAt s r off x).phase = s.phase := by cases r <;> rfl
@[simp] theorem setByteAt_frameValid (s : State) (r : Region) (off : Nat) (x : Byte) : (setByteAt s r off x).frameValid = s.frameValid := by cases r <;> rfl
@[simp] theorem setByteAt_palchg (s : State) (r : Region) (off : Nat) (x : Byte) : (setByteAt s r off x).palchg = s.palchg := by cases r <;> rfl
@[simp] theorem setByteAt_cfgErr (s : State) (r : Region) (off : Nat) (x : Byte) : (setByteAt s r off x).cfgErr = s.cfgErr := by cases r <;> rfl
@[simp] theorem setByteAt_evt (s : State) (r : Region) (off : Nat) (x : Byte) : (setByteAt s r off x).evt = s.evt := by cases r <;> rfl
@[simp] theorem setByteAt_ports (s : State) (r : Region) (off : Nat) (x : Byte) : (setByteAt s r off x).ports = s.ports := by cases r <;> rfl
@[simp] theorem setByteAt_sndstat (s : State) (r : Region) (off : Nat) (x : Byte) : (setByteAt s r off x).sndstat = s.sndstat := by cases r <;> rfl
@[simp] theorem setByteAt_rdata (s : State) (r : Region) (off : Nat) (x : Byte) : (setByteAt s r off x).rdata = s.rdata := by cases r <;> rfl
@[simp] theorem setByteAt_inbox (s : State) (r : Region) (off : Nat) (x : Byte) : (setByteAt s r off x).inbox = s.inbox := by cases r <;> rfl
@[simp] theorem setByteAt_draws (s : State) (r : Region) (off : Nat) (x : Byte) : (setByteAt s r off x).draws = s.draws := by cases r <;> rfl

/-! storeLanes, on every field that is no byte array -/
@[simp] theorem storeLanes_variant (s : State) (r : Region) (off : Nat) (be : Lanes) (d : Word) :
    (storeLanes s r off be d).variant = s.variant := by unfold storeLanes; split_ifs <;> simp
@[simp] theorem storeLanes_gfxTile (s : State) (r : Region) (off : Nat) (be : Lanes) (d : Word) :
    (storeLanes s r off be d).gfxTile = s.gfxTile := by unfold storeLanes; split_ifs <;> simp
@[simp] theorem storeLanes_gfxSpr (s : State) (r : Region) (off : Nat) (be : Lanes) (d : Word) :
    (storeLanes s r off be d).gfxSpr = s.gfxSpr := by unfold storeLanes; split_ifs <;> simp
@[simp] theorem storeLanes_penUse (s : State) (r : Region) (off : Nat) (be : Lanes) (d : Word) :
    (storeLanes s r off be d).penUse = s.penUse := by unfold storeLanes; split_ifs <;> simp
@[simp] theorem storeLanes_palrgb (s : State) (r : Region) (off : Nat) (be : Lanes) (d : Word) :
    (storeLanes s r off be d).palrgb = s.palrgb := by unfold storeLanes; split_ifs <;> simp
@[simp] theorem storeLanes_dirty (s : State) (r : Region) (off : Nat) (be : Lanes) (d : Word) :
    (storeLanes s r off be d).dirty = s.dirty := by unfold storeLanes; split_ifs <;> simp
@[simp] theorem storeLanes_tcache (s : State) (r : Region) (off : Nat) (be : Lanes) (d : Word) :
    (storeLanes s r off be d).tcache = s.tcache := by unfold storeLanes; split_ifs <;> simp
@[simp] theorem storeLanes_visb (s : State) (r : Region) (off : Nat) (be : Lanes) (d : Word) :
    (storeLanes s r off be d).visb = s.visb := by unfold storeLanes; split_ifs <;> simp
@[simp] theorem storeLanes_visbPrev (s : State) (r : Region) (off : Nat) (be : Lanes) (d : Word) :
    (storeLanes s r off be d).visbPrev = s.visbPrev := by unfold storeLanes; split_ifs <;> simp
@[simp] theorem storeLanes_layer (s : State) (r : Region) (off : Nat) (be : Lanes) (d : Word) :
    (storeLanes s r off be d).layer = s.layer := by unfold storeLanes; split_ifs <;> simp
@[simp] theorem storeLanes_fb (s : State) (r : Region) (off : Nat) (be : Lanes) (d : Word) :
    (storeLanes s r off be d).fb = s.fb := by unfold storeLanes; split_ifs <;> simp
@[simp] theorem storeLanes_flip (s : State) (r : Region) (off : Nat) (be : Lanes) (d : Word) :
    (storeLanes s r off be d).flip = s.flip := by unfold storeLanes; split_ifs <;> simp
@[simp] theorem storeLanes_sprflip (s : State) (r : Region) (off : Nat) (be : Lanes) (d : Word) :
    (storeLanes s r off be d).sprflip = s.sprflip := by unfold storeLanes; split_ifs <;> simp
@[simp] theorem storeLanes_invert (s : State) (r : Region) (off : Nat) (be : Lanes) (d : Word) :
    (storeLanes s r off be d).invert = s.invert := by unfold storeLanes; split_ifs <;> simp
@[simp] theorem storeLanes_sndlatch (s : State) (r : Region) (off : Nat) (be : Lanes) (d : Word) :
    (storeLanes s r off be d).sndlatch = s.sndlatch := by unfold storeLanes; split_ifs <;> simp
@[simp] theorem storeLanes_phase (s : State) (r : Region) (off : Nat) (be : Lanes) (d : Word) :
    (storeLanes s r off be d).phase = s.phase := by unfold storeLanes; split_ifs <;> simp
@[simp] theorem storeLanes_frameValid (s : State) (r : Region) (off : Nat) (be : Lanes) (d : Word) :
    (storeLanes s r off be d).frameValid = s.frameValid := by unfold storeLanes; split_ifs <;> simp
@[simp] theorem storeLanes_palchg (s : State) (r : Region) (off : Nat) (be : Lanes) (d : Word) :
    (storeLanes s r off be d).palchg = s.palchg := by unfold storeLanes; split_ifs <;> simp
@[simp] theorem storeLanes_cfgErr (s : State) (r : Region) (off : Nat) (be : Lanes) (d : Word) :
    (storeLanes s r off be d).cfgErr = s.cfgErr := by unfold storeLanes; split_ifs <;> simp
@[simp] theorem storeLanes_evt (s : State) (r : Region) (off : Nat) (be : Lanes) (d : Word) :
    (storeLanes s r off be d).evt = s.evt := by unfold storeLanes; split_ifs <;> simp
@[simp] theorem storeLanes_ports (s : State) (r : Region) (off : Nat) (be : Lanes) (d : Word) :
    (storeLanes s r off be d).ports = s.ports := by unfold storeLanes; split_ifs <;> simp
@[simp] theorem storeLanes_sndstat (s : State) (r : Region) (off : Nat) (be : Lanes) (d : Word) :
    (storeLanes s r off be d).sndstat = s.sndstat := by unfold storeLanes; split_ifs <;> simp
@[simp] theorem storeLanes_rdata (s : State) (r : Region) (off : Nat) (be : Lanes) (d : Word) :
    (storeLanes s r off be d).rdata = s.rdata := by unfold storeLanes; split_ifs <;> simp
@[simp] theorem storeLanes_inbox (s : State) (r : Region) (off : Nat) (be : Lanes) (d : Word) :
    (storeLanes s r off be d).inbox = s.inbox := by unfold storeLanes; split_ifs <;> simp
@[simp] theorem storeLanes_draws (s : State) (r : Region) (off : Nat) (be : Lanes) (d : Word) :
    (storeLanes s r off be d).draws = s.draws := by unfold storeLanes; split_ifs <;> simp

/-! The byte arrays under the updates that touch none of them -/
@[simp] theorem memoryOf_setRgb (s : State) (i : Nat) (c : Rgb) (r : Region) : memoryOf (setRgb s i c) r = memoryOf s r := by cases r <;> rfl
@[simp] theorem byteAt_setRgb (s : State) (i : Nat) (c : Rgb) (r : Region) (o : Nat) : byteAt (setRgb s i c) r o = byteAt s r o := by simp [byteAt]
@[simp] theorem wordAt_setRgb (s : State) (i : Nat) (c : Rgb) (r : Region) (o : Nat) : wordAt (setRgb s i c) r o = wordAt s r o := by simp [wordAt]
@[simp] theorem memoryOf_markDirty (s : State) (c : Nat) (r : Region) : memoryOf (markDirty s c) r = memoryOf s r := by cases r <;> rfl
@[simp] theorem byteAt_markDirty (s : State) (c : Nat) (r : Region) (o : Nat) : byteAt (markDirty s c) r o = byteAt s r o := by simp [byteAt]
@[simp] theorem wordAt_markDirty (s : State) (c : Nat) (r : Region) (o : Nat) : wordAt (markDirty s c) r o = wordAt s r o := by simp [wordAt]
@[simp] theorem memoryOf_emitEvent (s : State) (e : Event) (r : Region) : memoryOf (emitEvent s e) r = memoryOf s r := by cases r <;> rfl
@[simp] theorem byteAt_emitEvent (s : State) (e : Event) (r : Region) (o : Nat) : byteAt (emitEvent s e) r o = byteAt s r o := by simp [byteAt]
@[simp] theorem wordAt_emitEvent (s : State) (e : Event) (r : Region) (o : Nat) : wordAt (emitEvent s e) r o = wordAt s r o := by simp [wordAt]
@[simp] theorem memoryOf_raiseSoundNmi (s : State) (l : Byte) (r : Region) : memoryOf (raiseSoundNmi s l) r = memoryOf s r := by cases r <;> rfl
@[simp] theorem byteAt_raiseSoundNmi (s : State) (l : Byte) (r : Region) (o : Nat) : byteAt (raiseSoundNmi s l) r o = byteAt s r o := by simp [byteAt]
@[simp] theorem wordAt_raiseSoundNmi (s : State) (l : Byte) (r : Region) (o : Nat) : wordAt (raiseSoundNmi s l) r o = wordAt s r o := by simp [wordAt]
@[simp] theorem memoryOf_respond (s : State) (x : Long) (r : Region) : memoryOf (respond s x) r = memoryOf s r := by cases r <;> rfl
@[simp] theorem byteAt_respond (s : State) (x : Long) (r : Region) (o : Nat) : byteAt (respond s x) r o = byteAt s r o := by simp [byteAt]
@[simp] theorem wordAt_respond (s : State) (x : Long) (r : Region) (o : Nat) : wordAt (respond s x) r o = wordAt s r o := by simp [wordAt]
@[simp] theorem memoryOf_noReply (s : State) (r : Region) : memoryOf (noReply s) r = memoryOf s r := by cases r <;> rfl
@[simp] theorem byteAt_noReply (s : State) (r : Region) (o : Nat) : byteAt (noReply s) r o = byteAt s r o := by simp [byteAt]
@[simp] theorem wordAt_noReply (s : State) (r : Region) (o : Nat) : wordAt (noReply s) r o = wordAt s r o := by simp [wordAt]
@[simp] theorem memoryOf_setPhase (s : State) (p : Phase) (r : Region) : memoryOf (setPhase s p) r = memoryOf s r := by cases r <;> rfl
@[simp] theorem byteAt_setPhase (s : State) (p : Phase) (r : Region) (o : Nat) : byteAt (setPhase s p) r o = byteAt s r o := by simp [byteAt]
@[simp] theorem wordAt_setPhase (s : State) (p : Phase) (r : Region) (o : Nat) : wordAt (setPhase s p) r o = wordAt s r o := by simp [wordAt]
@[simp] theorem memoryOf_startFrame (s : State) (r : Region) : memoryOf (startFrame s) r = memoryOf s r := by cases r <;> rfl
@[simp] theorem byteAt_startFrame (s : State) (r : Region) (o : Nat) : byteAt (startFrame s) r o = byteAt s r o := by simp [byteAt]
@[simp] theorem wordAt_startFrame (s : State) (r : Region) (o : Nat) : wordAt (startFrame s) r o = wordAt s r o := by simp [wordAt]
@[simp] theorem memoryOf_finishFrame (s : State) (r : Region) : memoryOf (finishFrame s) r = memoryOf s r := by cases r <;> rfl
@[simp] theorem byteAt_finishFrame (s : State) (r : Region) (o : Nat) : byteAt (finishFrame s) r o = byteAt s r o := by simp [byteAt]
@[simp] theorem wordAt_finishFrame (s : State) (r : Region) (o : Nat) : wordAt (finishFrame s) r o = wordAt s r o := by simp [wordAt]
@[simp] theorem memoryOf_updateTiles (s : State) (r : Region) : memoryOf (updateTiles s) r = memoryOf s r := by cases r <;> rfl
@[simp] theorem byteAt_updateTiles (s : State) (r : Region) (o : Nat) : byteAt (updateTiles s) r o = byteAt s r o := by simp [byteAt]
@[simp] theorem wordAt_updateTiles (s : State) (r : Region) (o : Nat) : wordAt (updateTiles s) r o = wordAt s r o := by simp [wordAt]
@[simp] theorem memoryOf_rebuildVisibility (s : State) (r : Region) : memoryOf (rebuildVisibility s) r = memoryOf s r := by cases r <;> rfl
@[simp] theorem byteAt_rebuildVisibility (s : State) (r : Region) (o : Nat) : byteAt (rebuildVisibility s) r o = byteAt s r o := by simp [byteAt]
@[simp] theorem wordAt_rebuildVisibility (s : State) (r : Region) (o : Nat) : wordAt (rebuildVisibility s) r o = wordAt s r o := by simp [wordAt]
@[simp] theorem memoryOf_applyPaletteChange (s : State) (r : Region) : memoryOf (applyPaletteChange s) r = memoryOf s r := by cases r <;> rfl
@[simp] theorem byteAt_applyPaletteChange (s : State) (r : Region) (o : Nat) : byteAt (applyPaletteChange s) r o = byteAt s r o := by simp [byteAt]
@[simp] theorem wordAt_applyPaletteChange (s : State) (r : Region) (o : Nat) : wordAt (applyPaletteChange s) r o = wordAt s r o := by simp [wordAt]
@[simp] theorem memoryOf_renderTiles (s : State) (r : Region) : memoryOf (renderTiles s) r = memoryOf s r := by cases r <;> rfl
@[simp] theorem byteAt_renderTiles (s : State) (r : Region) (o : Nat) : byteAt (renderTiles s) r o = byteAt s r o := by simp [byteAt]
@[simp] theorem wordAt_renderTiles (s : State) (r : Region) (o : Nat) : wordAt (renderTiles s) r o = wordAt s r o := by simp [wordAt]
@[simp] theorem memoryOf_renderSprites (s : State) (r : Region) : memoryOf (renderSprites s) r = memoryOf s r := by cases r <;> rfl
@[simp] theorem byteAt_renderSprites (s : State) (r : Region) (o : Nat) : byteAt (renderSprites s) r o = byteAt s r o := by simp [byteAt]
@[simp] theorem wordAt_renderSprites (s : State) (r : Region) (o : Nat) : wordAt (renderSprites s) r o = wordAt s r o := by simp [wordAt]
@[simp] theorem memoryOf_compositeLayers (s : State) (r : Region) : memoryOf (compositeLayers s) r = memoryOf s r := by cases r <;> rfl
@[simp] theorem byteAt_compositeLayers (s : State) (r : Region) (o : Nat) : byteAt (compositeLayers s) r o = byteAt s r o := by simp [byteAt]
@[simp] theorem wordAt_compositeLayers (s : State) (r : Region) (o : Nat) : wordAt (compositeLayers s) r o = wordAt s r o := by simp [wordAt]

end Sys2Proof.Machine
end

