-- ==== Sys2Proof/Laws/Store.lean ====
section
/-! SUPPORT. The laws of a store: read after write, and the canonical form is kept. -/

namespace Sys2Proof.Machine

variable {α : Type}

theorem cellsFind_put_same (cells : List (Nat × α)) (i : Nat) (a : α) : cellsFind (cellsPut cells i a) i = some a := by
  induction cells with
  | nil => simp [cellsPut, cellsFind]
  | cons c rest ih =>
    obtain ⟨k, b⟩ := c
    simp only [cellsPut]
    split_ifs with h1 h2 <;> simp_all [cellsFind]

theorem cellsFind_put_other (cells : List (Nat × α)) {i j : Nat} (h : j ≠ i) (a : α) :
    cellsFind (cellsPut cells i a) j = cellsFind cells j := by
  induction cells with
  | nil => simp [cellsPut, cellsFind, h.symm]
  | cons c rest ih =>
    obtain ⟨k, b⟩ := c
    simp only [cellsPut]
    split_ifs with h1 h2
    · simp [cellsFind, h.symm]
    · subst h2; simp [cellsFind, h.symm]
    · simp [cellsFind, ih]

theorem cellsFind_drop_same (cells : List (Nat × α)) (i : Nat) : cellsFind (cellsDrop cells i) i = none := by
  induction cells with
  | nil => rfl
  | cons c rest ih =>
    obtain ⟨k, b⟩ := c
    by_cases h : k = i
    · subst h; simpa [cellsDrop] using ih
    · have : cellsDrop ((k, b) :: rest) i = (k, b) :: cellsDrop rest i := by simp [cellsDrop, h]
      simp [this, cellsFind, h, ih]

theorem cellsFind_drop_other (cells : List (Nat × α)) {i j : Nat} (h : j ≠ i) :
    cellsFind (cellsDrop cells i) j = cellsFind cells j := by
  induction cells with
  | nil => rfl
  | cons c rest ih =>
    obtain ⟨k, b⟩ := c
    by_cases hk : k = i
    · subst hk
      have : cellsDrop ((k, b) :: rest) k = cellsDrop rest k := by simp [cellsDrop]
      simp [this, cellsFind, h.symm, ih]
    · have : cellsDrop ((k, b) :: rest) i = (k, b) :: cellsDrop rest i := by simp [cellsDrop, hk]
      simp [this, cellsFind, ih]

@[simp] theorem Store.blank_set [DecidableEq α] (launch : Nat → Nat → α) (st : Store α) (i : Nat) (a : α) (j : Nat) :
    (st.set launch i a).blank launch j = st.blank launch j := rfl

/-- A read after a write to the same index gives the value written. -/
@[simp] theorem Store.get_set_same [DecidableEq α] (launch : Nat → Nat → α) (st : Store α) (i : Nat) (a : α) :
    (st.set launch i a).get launch i = a := by
  by_cases h : a = st.blank launch i
  · have : (st.set launch i a).get launch i = st.blank launch i := by
      simp [Store.get, Store.set, h, cellsFind_drop_same]; rfl
    rw [this, h]
  · simp [Store.get, Store.set, h, cellsFind_put_same]

/-- A write leaves every other index alone. -/
theorem Store.get_set_other [DecidableEq α] (launch : Nat → Nat → α) (st : Store α) {i j : Nat} (h : j ≠ i) (a : α) :
    (st.set launch i a).get launch j = st.get launch j := by
  by_cases hb : a = st.blank launch i
  · simp only [Store.get, Store.set, hb, if_true, cellsFind_drop_other st.cells h]; rfl
  · simp only [Store.get, Store.set, hb, if_false, cellsFind_put_other st.cells h]; rfl

/-- Reading after a write, at any index. -/
theorem Store.get_set [DecidableEq α] (launch : Nat → Nat → α) (st : Store α) (i j : Nat) (a : α) :
    (st.set launch i a).get launch j = if j = i then a else st.get launch j := by
  split_ifs with h
  · subst h; simp
  · exact st.get_set_other launch h a

theorem mem_cellsPut {cells : List (Nat × α)} {i : Nat} {a : α} {c : Nat × α} (h : c ∈ cellsPut cells i a) :
    c = (i, a) ∨ c ∈ cells := by
  induction cells with
  | nil => simpa [cellsPut] using h
  | cons d rest ih =>
    obtain ⟨k, b⟩ := d
    simp only [cellsPut] at h
    split_ifs at h with h1 h2
    · simpa using h
    · rcases List.mem_cons.1 h with h | h
      · exact .inl h
      · exact .inr (List.mem_cons_of_mem _ h)
    · rcases List.mem_cons.1 h with h | h
      · exact .inr (h ▸ List.mem_cons_self)
      · exact (ih h).imp id (List.mem_cons_of_mem _)

theorem cellsPut_rising {cells : List (Nat × α)} (h : cells.Pairwise fun c d => c.1 < d.1) (i : Nat) (a : α) :
    (cellsPut cells i a).Pairwise fun c d => c.1 < d.1 := by
  induction cells with
  | nil => simp [cellsPut]
  | cons d rest ih =>
    obtain ⟨k, b⟩ := d
    have hr := List.pairwise_cons.1 h
    simp only [cellsPut]
    split_ifs with h1 h2
    · refine List.pairwise_cons.2 ⟨fun c hc => ?_, h⟩
      rcases List.mem_cons.1 hc with rfl | hc
      · exact h1
      · exact lt_trans h1 (hr.1 c hc)
    · subst h2
      exact List.pairwise_cons.2 ⟨fun c hc => hr.1 c hc, hr.2⟩
    · refine List.pairwise_cons.2 ⟨fun c hc => ?_, ih hr.2⟩
      rcases mem_cellsPut hc with rfl | hc
      · show k < i; omega
      · exact hr.1 c hc

/-- A write keeps the canonical form. -/
theorem Store.set_wf [DecidableEq α] {launch : Nat → Nat → α} {st : Store α} (h : st.wf launch) (i : Nat) (a : α) :
    (st.set launch i a).wf launch := by
  by_cases hb : a = st.blank launch i
  · have hc : (st.set launch i a).cells = cellsDrop st.cells i := by simp [Store.set, hb]
    exact ⟨hc ▸ h.1.filter _, fun c m => h.2 c (List.mem_filter.1 (hc ▸ m)).1⟩
  · have hc : (st.set launch i a).cells = cellsPut st.cells i a := by simp [Store.set, hb]
    refine ⟨hc ▸ cellsPut_rising h.1 i a, fun c m => ?_⟩
    rcases mem_cellsPut (hc ▸ m) with rfl | m
    · exact hb
    · exact h.2 c m

/-- A store with nothing listed is canonical. -/
@[simp] theorem Store.drawn_wf (launch : Nat → Nat → α) (k : Nat) : (Store.drawn k : Store α).wf launch :=
  ⟨List.Pairwise.nil, fun _ m => absurd m List.not_mem_nil⟩

/-- A store filled with one value is canonical. -/
@[simp] theorem Store.filled_wf (launch : Nat → Nat → α) (a : α) : (Store.filled a : Store α).wf launch :=
  ⟨List.Pairwise.nil, fun _ m => absurd m List.not_mem_nil⟩

@[simp] theorem Store.get_drawn (launch : Nat → Nat → α) (k i : Nat) : (Store.drawn k : Store α).get launch i = launch k i :=
  rfl

@[simp] theorem Store.get_filled (launch : Nat → Nat → α) (a : α) (i : Nat) : (Store.filled a : Store α).get launch i = a :=
  rfl

end Sys2Proof.Machine
end

