-- ==== Sys2Proof/Laws/Ops.lean ====
section
/-! SUPPORT. For each shared operation one lemma that says once everything it can do. -/

namespace Sys2Proof.Machine

/-! Bytes. -/

@[simp] theorem memoryOf_withMemory_same (s : State) (r : Region) (m : Memory) : memoryOf (withMemory s r m) r = m := by
  cases r <;> rfl

theorem memoryOf_withMemory_other (s : State) {r r' : Region} (h : r' ≠ r) (m : Memory) :
    memoryOf (withMemory s r m) r' = memoryOf s r' := by
  cases r <;> cases r' <;> first | rfl | exact absurd rfl h

/-- A byte after a byte is stored. -/
theorem byteAt_setByteAt (s : State) (r r' : Region) (off o : Nat) (b : Byte) :
    byteAt (setByteAt s r off b) r' o = if r' = r ∧ o = off then b else byteAt s r' o := by
  by_cases h : r' = r
  · subst h; simp [byteAt, setByteAt, Store.get_set]
  · simp [byteAt, setByteAt, memoryOf_withMemory_other s h, h]

/-- A byte after the enabled lanes of a cycle are stored: the high lane at off, the low lane at off + 1. -/
theorem byteAt_storeLanes (s : State) (r r' : Region) (off o : Nat) (be : Lanes) (d : Word) :
    byteAt (storeLanes s r off be d) r' o =
      if r' = r ∧ o = off ∧ hasHi be then highByte d
      else if r' = r ∧ o = off + 1 ∧ hasLo be then lowByte d
      else byteAt s r' o := by
  unfold storeLanes
  cases be <;> simp [hasHi, hasLo, byteAt_setByteAt] <;> split_ifs <;> first | rfl | (exfalso; simp_all)

@[simp] theorem highByte_append (h l : Byte) : highByte (h ++ l) = h := by
  simp only [highByte]; exact BitVec.extractLsb'_append_eq_left

@[simp] theorem lowByte_append (h l : Byte) : lowByte (h ++ l) = l := by
  simp only [lowByte]; exact BitVec.extractLsb'_append_eq_right

theorem highByte_append_lowByte (x : Word) : highByte x ++ lowByte x = x := by
  apply BitVec.eq_of_getLsbD_eq
  intro i hi
  simp only [BitVec.getLsbD_append, highByte, lowByte, BitVec.getLsbD_extractLsb']
  split_ifs with h
  · simp [h]
  · have : 8 + (i - 8) = i := by omega
    simp [this]; omega

/-! Bitmaps. -/

@[simp] theorem bitAt_setBit (m i j : Nat) : bitAt (setBit m i) j = (bitAt m j || decide (i = j)) := by
  simp [bitAt, setBit, Nat.testBit_shiftLeft]
  by_cases h : i = j
  · subst h; simp
  · simp only [h, decide_false, Bool.or_false]
    by_cases h2 : i ≤ j
    · have : ¬ j - i = 0 := by omega
      have h3 : Nat.testBit 1 (j - i) = false := by
        simpa using (Nat.testBit_one_eq_true_iff_self_eq_zero (i := j - i)).not.2 this
      simp [h3]
    · simp [h2]

@[simp] theorem bitAt_clearBit (m i j : Nat) : bitAt (clearBit m i) j = (bitAt m j && !decide (i = j)) := by
  unfold bitAt clearBit
  have h1 : (1 <<< i : Nat).testBit j = decide (i = j) := by
    have := bitAt_setBit 0 i j
    simpa [bitAt, setBit] using this
  split_ifs with h
  · rw [Nat.testBit_xor, h1]
    by_cases hij : i = j
    · subst hij; simp [h]
    · simp [hij]
  · by_cases hij : i = j
    · subst hij; simp [h]
    · simp [hij]

@[simp] theorem bitAt_zero (i : Nat) : bitAt 0 i = false := by simp [bitAt]

@[simp] theorem bitAt_allOnes (n i : Nat) : bitAt (allOnes n) i = decide (i < n) := by
  simp [bitAt, allOnes, Nat.testBit_two_pow_sub_one]

/-- Two bitmaps are equal when every bit is. -/
theorem bitmap_ext {m n : Nat} (h : ∀ i, bitAt m i = bitAt n i) : m = n := Nat.eq_of_testBit_eq h

/-! Commands. -/

/-- An accepting session runs the command. -/
theorem accept_of {s : State} (hc : s.cfgErr = false) (hp : s.phase = .idle) (r : Result) : accept s r = r := by
  simp [accept, hc, hp]

/-- A command that completes was accepted, and its result is that of its meaning. -/
theorem accept_next {s t : State} {r : Result} (h : accept s r = .next t) :
    s.cfgErr = false ∧ s.phase = .idle ∧ r = .next t := by
  unfold accept at h
  split_ifs at h with h1 h2
  exact ⟨by simpa using h1, h2, h⟩

theorem accept_noSession {s : State} (hc : s.cfgErr = true) (r : Result) : accept s r = .refused .noSession := by
  simp [accept, hc]

theorem accept_frameInProgress {s : State} (hc : s.cfgErr = false) (hp : s.phase ≠ .idle) (r : Result) :
    accept s r = .refused .frameInProgress := by
  simp [accept, hc, hp]

/-- The entry a transaction of kind k selects. -/
theorem selectEntry_eq_some {m : List MapEntry} {k : Kind} {w : Width} {a : Addr} {e : MapEntry} :
    selectEntry m k w a = some e ↔ lookup m (busAddr w a) = some e ∧ e.kind = kindCode k := by
  simp [selectEntry, Option.filter_eq_some_iff]

/-- An address whose selected code is that of a kind other than open bus has an entry of that kind. -/
theorem selectEntry_of_selectedKind {m : List MapEntry} {k : Kind} (hk : k ≠ .openBus) {w : Width} {a : Addr}
    (h : selectedKind m w a = kindCode k) : ∃ e, selectEntry m k w a = some e := by
  unfold selectedKind at h
  split at h
  · next e he => exact ⟨e, selectEntry_eq_some.2 ⟨he, h⟩⟩
  · exfalso; revert hk h; cases k <;> decide

/-- A read that completes found an entry of its kind, and its only effect is its reply. -/
theorem readEntry_next {k : Kind} {word : State → MapEntry → Addr → Word} {w : Width} {a : Addr} {s t : State}
    (h : readEntry k word w a s = .next t) :
    s.cfgErr = false ∧ s.phase = .idle ∧ ∃ e, selectEntry s.variant.rmap k w a = some e ∧
      t = respond s (readResult s.variant.openBusByte e (word s e) w (busAddr w a)) := by
  obtain ⟨hc, hp, h⟩ := accept_next h
  split at h
  · next e he => exact ⟨hc, hp, e, he, by cases h; rfl⟩
  · cases h

/-- A read of a selected entry in an accepting session completes. -/
theorem readEntry_of {k : Kind} (word : State → MapEntry → Addr → Word) {w : Width} {a : Addr} {s : State} {e : MapEntry}
    (hc : s.cfgErr = false) (hp : s.phase = .idle) (he : selectEntry s.variant.rmap k w a = some e) :
    readEntry k word w a s = .next (respond s (readResult s.variant.openBusByte e (word s e) w (busAddr w a))) := by
  simp [readEntry, accept_of hc hp, he]

/-- A write that completes found an entry of its kind, and its effect is the one of its kind. -/
theorem writeEntry_next {k : Kind} {effect : MapEntry → State → State} {w : Width} {a : Addr} {s t : State}
    (h : writeEntry k effect w a s = .next t) :
    s.cfgErr = false ∧ s.phase = .idle ∧ ∃ e, selectEntry s.variant.wmap k w a = some e ∧ t = effect e (noReply s) := by
  obtain ⟨hc, hp, h⟩ := accept_next h
  split at h
  · next e he => exact ⟨hc, hp, e, he, by cases h; rfl⟩
  · cases h

/-- A write to a selected entry in an accepting session completes. -/
theorem writeEntry_of {k : Kind} (effect : MapEntry → State → State) {w : Width} {a : Addr} {s : State} {e : MapEntry}
    (hc : s.cfgErr = false) (hp : s.phase = .idle) (he : selectEntry s.variant.wmap k w a = some e) :
    writeEntry k effect w a s = .next (effect e (noReply s)) := by
  simp [writeEntry, accept_of hc hp, he]

/-- An open-bus command that completes found no entry, or one of the code 0x00. -/
theorem openBusCommand_next {m : List MapEntry} {w : Width} {a : Addr} {s t u : State}
    (h : openBusCommand m w a s t = .next u) :
    s.cfgErr = false ∧ s.phase = .idle ∧ selectedKind m w a = kindCode .openBus ∧ u = t := by
  obtain ⟨hc, hp, h⟩ := accept_next h
  split_ifs at h with hk
  exact ⟨hc, hp, hk, by cases h; rfl⟩

/-- A write cycle by cycle keeps whatever every cycle inside the entry keeps. -/
theorem writeCycles_keeps {cycle : Nat → Lanes → Word → State → State} (P : State → Prop) {e : MapEntry}
    (hcycle : ∀ (s : State) (c : Cycle), P s → insideEntry e c.wa → P (cycle (entryOffset e c.wa) c.be c.d s))
    {w : Width} {a : Addr} {v : Long} {s : State} (hs : P s) : P (writeCycles cycle w a v e s) := by
  unfold writeCycles
  generalize cycles w (busAddr w a) (zextValue w v) = cs
  induction cs generalizing s with
  | nil => exact hs
  | cons c rest ih =>
    simp only [List.foldl_cons]
    apply ih
    split_ifs with hi
    · exact hcycle s c hs hi
    · exact hs

/-! The step. -/

/-- A step that completes ran an operation and let the sequencer move on, or did what the fetch alone does. -/
theorem retire_next {r : Result} {t : State} (h : retire r = .next t) : ∃ u, r = .next u ∧ t = advancePhase u := by
  cases r with
  | next u => exact ⟨u, rfl, by cases h; rfl⟩
  | fault f => cases h
  | refused f => cases h

/-- What the sequencer's move leaves alone. -/
theorem advancePhase_of_idle {s : State} (h : s.phase = .idle) : advancePhase s = s := by simp [advancePhase, h]

end Sys2Proof.Machine
end

