-- ==== Sys2Proof/Laws/Session.lean ====
section
/-! SUPPORT. What a passed CONFIG says, check by check, and what it says of an entry a lookup finds. -/

namespace Sys2Proof.Machine

theorem firstEntry_none {v : Variant} {code : ConfigCode} {ok : Direction → MapEntry → Bool} :
    firstEntry v code ok = none ↔ (∀ e ∈ v.rmap, ok .read e = true) ∧ ∀ e ∈ v.wmap, ok .write e = true := by
  unfold firstEntry
  constructor
  · intro h
    split at h
    · cases h
    · next hr =>
      split at h
      · cases h
      · next hw =>
        exact ⟨fun e he => by simpa using List.findIdx?_eq_none_iff.1 hr e he,
          fun e he => by simpa using List.findIdx?_eq_none_iff.1 hw e he⟩
  · rintro ⟨hr, hw⟩
    have h1 : v.rmap.findIdx? (fun e => !ok .read e) = none :=
      List.findIdx?_eq_none_iff.2 fun e he => by simp [hr e he]
    have h2 : v.wmap.findIdx? (fun e => !ok .write e) = none :=
      List.findIdx?_eq_none_iff.2 fun e he => by simp [hw e he]
    simp [h1, h2]

theorem overlapIn_none {m : List MapEntry} : ∀ {n : Nat},
    overlapIn n m = none ↔ m.Pairwise fun e f => disjointEntries e f = true := by
  induction m with
  | nil => simp [overlapIn]
  | cons e rest ih =>
    intro n
    rw [List.pairwise_cons, ← ih (n := n + 1)]
    simp only [overlapIn]
    constructor
    · intro h
      split at h
      · cases h
      · next hf => exact ⟨fun f hf' => by simpa using List.findIdx?_eq_none_iff.1 hf f hf', h⟩
    · rintro ⟨h1, h2⟩
      have : rest.findIdx? (fun f => !disjointEntries e f) = none :=
        List.findIdx?_eq_none_iff.2 fun f hf => by simp [h1 f hf]
      simp [this, h2]

theorem firstOverlap_none {v : Variant} :
    firstOverlap v = none ↔ v.rmap.Pairwise (fun e f => disjointEntries e f = true) ∧
      v.wmap.Pairwise fun e f => disjointEntries e f = true := by
  unfold firstOverlap
  rw [← overlapIn_none (n := 0), ← overlapIn_none (n := 0)]
  cases overlapIn 0 v.rmap <;> cases overlapIn 0 v.wmap <;> simp

theorem failing_none {ok : Bool} {code : ConfigCode} {place : ConfigPlace} : failing ok code place = none ↔ ok = true := by
  cases ok <;> simp [failing]

theorem noRepeats_iff {l : List Nat} : noRepeats l = true ↔ l.Nodup := by
  induction l with
  | nil => simp [noRepeats]
  | cons b rest ih => simp [noRepeats, ih]

/-- CONFIG passes exactly when each of its checks does. -/
theorem configCheck_none {v : Variant} : configCheck v = none ↔ ∀ c ∈ configFailures v, c = none := by
  simp [configCheck, List.findSome?_eq_none_iff]

/-- What a per-entry check names: the earliest failing entry, of RMAP where RMAP has one. -/
theorem firstEntry_some {v : Variant} {code : ConfigCode} {ok : Direction → MapEntry → Bool} {err : ConfigError}
    (h : firstEntry v code ok = some err) :
    err.code = code ∧ ∃ d i e, err.place = .entry d i ∧ (mapOf v d)[i]? = some e ∧ ok d e = false ∧
      (∀ j f, j < i → (mapOf v d)[j]? = some f → ok d f = true) ∧ (d = .write → ∀ f ∈ v.rmap, ok .read f = true) := by
  have key : ∀ (d : Direction) (i : Nat), (mapOf v d).findIdx? (fun e => !ok d e) = some i →
      ∃ e, (mapOf v d)[i]? = some e ∧ ok d e = false ∧ ∀ j f, j < i → (mapOf v d)[j]? = some f → ok d f = true := by
    intro d i hi
    obtain ⟨hl, h1, h2⟩ := List.findIdx?_eq_some_iff_getElem.1 hi
    refine ⟨_, List.getElem?_eq_getElem hl, by simpa using h1, fun j f hj hf => ?_⟩
    obtain ⟨hj', rfl⟩ := List.getElem?_eq_some_iff.1 hf
    simpa using h2 j hj
  unfold firstEntry at h
  split at h
  · next i hi =>
    obtain rfl := Option.some.inj h
    obtain ⟨e, h1, h2, h3⟩ := key .read i hi
    exact ⟨rfl, .read, i, e, rfl, h1, h2, h3, fun hd => by cases hd⟩
  · next hr =>
    split at h
    · next i hi =>
      obtain rfl := Option.some.inj h
      obtain ⟨e, h1, h2, h3⟩ := key .write i hi
      exact ⟨rfl, .write, i, e, rfl, h1, h2, h3, fun _ f hf => by simpa using List.findIdx?_eq_none_iff.1 hr f hf⟩
    · cases h

/-- What the overlap scan of a map names: two overlapping entries, none before the first of which overlaps any. -/
theorem overlapIn_some {m : List MapEntry} : ∀ {n : Nat} {p : Nat × Nat}, overlapIn n m = some p →
    ∃ i j e f, p = (n + i, n + j) ∧ i < j ∧ m[i]? = some e ∧ m[j]? = some f ∧ disjointEntries e f = false ∧
      ∀ i' j' e' f', i' < i → i' < j' → m[i']? = some e' → m[j']? = some f' → disjointEntries e' f' = true := by
  induction m with
  | nil => intro n p h; cases h
  | cons e rest ih =>
    intro n p h
    simp only [overlapIn] at h
    split at h
    · next k hk =>
      obtain rfl := Option.some.inj h
      obtain ⟨hl, h1, _⟩ := List.findIdx?_eq_some_iff_getElem.1 hk
      exact ⟨0, k + 1, e, rest[k], by simp only [Nat.add_zero, Prod.mk.injEq, true_and]; omega, by omega, rfl,
        List.getElem?_eq_getElem hl, by simpa using h1, fun i' _ _ _ hi => absurd hi (Nat.not_lt_zero _)⟩
    · next hn =>
      obtain ⟨i, j, e', f', hp, hij, he, hf, ho, hb⟩ := ih h
      refine ⟨i + 1, j + 1, e', f', by rw [hp]; simp only [Prod.mk.injEq]; omega, by omega, by simpa using he,
        by simpa using hf, ho, fun i' j' a b hi hj ha hb' => ?_⟩
      obtain ⟨j', rfl⟩ : ∃ k, j' = k + 1 := ⟨j' - 1, by omega⟩
      cases i' with
      | zero =>
        obtain rfl : e = a := by simpa using ha
        simpa using List.findIdx?_eq_none_iff.1 hn b (List.mem_of_getElem? (by simpa using hb'))
      | succ i' => exact hb i' j' a b (by omega) (by omega) (by simpa using ha) (by simpa using hb')

/-- What check (3) names. -/
theorem firstOverlap_some {v : Variant} {err : ConfigError} (h : firstOverlap v = some err) :
    err.code = .overlap ∧ ∃ d i j e f, err.place = .entries d i j ∧ i < j ∧ (mapOf v d)[i]? = some e ∧
      (mapOf v d)[j]? = some f ∧ disjointEntries e f = false ∧
      (∀ i' j' e' f', i' < i → i' < j' → (mapOf v d)[i']? = some e' → (mapOf v d)[j']? = some f' →
        disjointEntries e' f' = true) ∧
      (d = .write → v.rmap.Pairwise fun e f => disjointEntries e f = true) := by
  unfold firstOverlap at h
  split at h
  · next p hp =>
    obtain rfl := Option.some.inj h
    obtain ⟨i, j, e, f, rfl, hij, he, hf, ho, hb⟩ := overlapIn_some hp
    exact ⟨rfl, .read, i, j, e, f, by simp, hij, he, hf, ho, hb, fun hd => by cases hd⟩
  · next hn =>
    split at h
    · next p hp =>
      obtain rfl := Option.some.inj h
      obtain ⟨i, j, e, f, rfl, hij, he, hf, ho, hb⟩ := overlapIn_some hp
      exact ⟨rfl, .write, i, j, e, f, by simp, hij, he, hf, ho, hb, fun _ => overlapIn_none.1 hn⟩
    · cases h

/-- What a check of a field names. -/
theorem failing_some {ok : Bool} {code : ConfigCode} {place : ConfigPlace} {err : ConfigError} :
    failing ok code place = some err ↔ ok = false ∧ err = ⟨code, place⟩ := by
  cases ok <;> simp [failing, eq_comm]

/-- What CONFIG reports is what the first failing check reports. -/
theorem configCheck_some {v : Variant} {err : ConfigError} (h : configCheck v = some err) :
    ∃ before after, configFailures v = before ++ some err :: after ∧ ∀ c ∈ before, c = none := by
  obtain ⟨l1, a, l2, h1, h2, h3⟩ := List.findSome?_eq_some_iff.1 h
  exact ⟨l1, l2, by rw [h1]; simp only [id] at h2; rw [h2], h3⟩

section Passed

variable {v : Variant} (h : configCheck v = none)
include h

theorem configured_rangeOk {e : MapEntry} (he : e ∈ v.rmap ∨ e ∈ v.wmap) : rangeOk e = true := by
  have := firstEntry_none.1 (configCheck_none.1 h (firstEntry v .range fun _ e => rangeOk e) (by simp [configFailures]))
  exact he.elim (this.1 e) (this.2 e)

theorem configured_backingOk {e : MapEntry} (he : e ∈ v.rmap ∨ e ∈ v.wmap) : backingOk v e = true := by
  have := firstEntry_none.1
    (configCheck_none.1 h (firstEntry v .backing fun _ e => backingOk v e) (by simp [configFailures]))
  exact he.elim (this.1 e) (this.2 e)

theorem configured_kindOk : (∀ e ∈ v.rmap, kindOk .read e = true) ∧ ∀ e ∈ v.wmap, kindOk .write e = true :=
  firstEntry_none.1 (configCheck_none.1 h (firstEntry v .kind kindOk) (by simp [configFailures]))

theorem configured_disjoint : v.rmap.Pairwise (fun e f => disjointEntries e f = true) ∧
    v.wmap.Pairwise fun e f => disjointEntries e f = true :=
  firstOverlap_none.1 (configCheck_none.1 h (firstOverlap v) (by simp [configFailures]))

theorem configured_visOk : visOk v = true :=
  failing_none.1 (configCheck_none.1 h (failing (visOk v) .geometry .vis) (by simp [configFailures]))

end Passed

/-- The entry a lookup finds is in the map and holds the address. -/
theorem lookup_some {m : List MapEntry} {a : Addr} {e : MapEntry} (h : lookup m a = some e) :
    e ∈ m ∧ e.start ≤ a ∧ a ≤ e.stop := by
  have h1 := List.mem_of_find?_eq_some h
  have h2 := List.find?_some h
  simp only [Bool.and_eq_true, decide_eq_true_eq] at h2
  exact ⟨h1, h2⟩

/-- The start of a good range is even and its end odd (42_frame_compositor.md R190 check (1)). -/
theorem rangeOk_iff {e : MapEntry} :
    rangeOk e = true ↔ e.start ≤ e.stop ∧ e.start.toNat % 2 = 0 ∧ e.stop.toNat % 2 = 1 := by
  have hb : ∀ x : Addr, x.getLsbD 0 = decide (x.toNat % 2 = 1) := fun x => by
    simp [BitVec.getLsbD, Nat.testBit_zero]
  simp only [rangeOk, Bool.and_eq_true, decide_eq_true_eq, Bool.not_eq_true', hb, decide_eq_false_iff_not, and_assoc,
    Nat.mod_two_ne_one]

/-- An address with bit 0 cleared. -/
theorem evenAddr_toNat (a : Addr) : (evenAddr a).toNat = a.toNat / 2 * 2 := by
  have h : ∀ x : BitVec 24, x &&& 0xFFFFFE#24 = x >>> 1 <<< 1 := by
    intro x
    apply BitVec.eq_of_getLsbD_eq
    intro i hi
    simp only [BitVec.getLsbD_and, BitVec.getLsbD_shiftLeft, BitVec.getLsbD_ushiftRight]
    interval_cases i <;> simp
  rw [evenAddr, h]
  have := a.isLt
  simp [Nat.shiftRight_eq_div_pow, Nat.shiftLeft_eq]
  omega

/-- A cycle at an even address that a good entry holds is inside the entry. -/
theorem insideEntry_of_even {e : MapEntry} {wa : Addr} (hr : rangeOk e = true) (hw : wa.toNat % 2 = 0)
    (h1 : e.start ≤ wa) (h2 : wa ≤ e.stop) : insideEntry e wa = true := by
  have := (rangeOk_iff.1 hr).2.2
  simp only [BitVec.le_def] at h1 h2
  simp [insideEntry, BitVec.le_def]
  omega

end Sys2Proof.Machine
end

