-- ==== Sys2Proof/Laws/Bus.lean ====
section
/-! SUPPORT. What a transaction on a found entry does once CONFIG has passed: its cycles, their offsets, and the write
cut into cycles at each width. -/

namespace Sys2Proof.Machine

theorem evenAddr_even (a : Addr) : (evenAddr a).toNat % 2 = 0 := by rw [evenAddr_toNat]; omega

@[simp] theorem evenAddr_evenAddr (a : Addr) : evenAddr (evenAddr a) = evenAddr a := by
  apply BitVec.eq_of_toNat_eq; rw [evenAddr_toNat, evenAddr_toNat]; omega

theorem evenAddr_of_even {a : Addr} (h : a.toNat % 2 = 0) : evenAddr a = a := by
  apply BitVec.eq_of_toNat_eq; rw [evenAddr_toNat]; omega

theorem getLsbD_zero_eq (a : Addr) : a.getLsbD 0 = decide (a.toNat % 2 = 1) := by
  simp [BitVec.getLsbD, Nat.testBit_zero]

@[simp] theorem evenAddr_busAddr (w : Width) (a : Addr) : evenAddr (busAddr w a) = evenAddr a := by
  cases w <;> simp [busAddr]

theorem secondAddr_toNat (a : Addr) : (evenAddr a + 2).toNat = ((evenAddr a).toNat + 2) % 2 ^ 24 := by simp

section Found

variable {v : Variant} {m : List MapEntry} {a : Addr} {e : MapEntry}
  (hm : m = v.rmap ∨ m = v.wmap) (hc : configCheck v = none) (h : lookup m a = some e)
include hm hc h

omit hc in
/-- A found entry is one of the session's. -/
theorem found_mem : e ∈ v.rmap ∨ e ∈ v.wmap := by
  have := (lookup_some h).1
  rcases hm with rfl | rfl
  · exact .inl this
  · exact .inr this

/-- A found entry's range is good, and holds the address. -/
theorem found_range : e.start.toNat ≤ a.toNat ∧ a.toNat ≤ e.stop.toNat ∧ e.start.toNat % 2 = 0 ∧ e.stop.toNat % 2 = 1 := by
  obtain ⟨_, h1, h2⟩ := lookup_some h
  have hr := rangeOk_iff.1 (configured_rangeOk hc (found_mem hm h))
  exact ⟨h1, h2, hr.2⟩

/-- The first cycle of a transaction is inside its entry. -/
theorem found_inside : insideEntry e (evenAddr a) = true := by
  obtain ⟨h1, h2, h3, h4⟩ := found_range hm hc h
  refine insideEntry_of_even (configured_rangeOk hc (found_mem hm h)) (evenAddr_even a) ?_ ?_ <;>
    simp only [BitVec.le_def, evenAddr_toNat] <;> omega

/-- The offset of a byte, from the offset of its cycle. -/
theorem found_byteOffset :
    e.base.toNat + (a.toNat - e.start.toNat) = entryOffset e (evenAddr a) + a.toNat % 2 := by
  obtain ⟨h1, h2, h3, h4⟩ := found_range hm hc h
  simp only [entryOffset, evenAddr_toNat]; omega

/-- A storage entry's base is even. -/
theorem found_base_even {r : Region} (hk : storageRegion e.kind = some r) : e.base.toNat % 2 = 0 := by
  have hb := configured_backingOk hc (found_mem hm h)
  rw [backingOk, hk] at hb
  simp only [Bool.and_eq_true, Bool.not_eq_true'] at hb
  simpa [BitVec.getLsbD, Nat.testBit_zero] using hb.1.1

/-- The cycles of a transaction on a storage entry are at even offsets. -/
theorem found_offset_even {r : Region} (hk : storageRegion e.kind = some r) : entryOffset e (evenAddr a) % 2 = 0 := by
  obtain ⟨h1, h2, h3, h4⟩ := found_range hm hc h
  have := found_base_even hm hc h hk
  simp only [entryOffset, evenAddr_toNat]; omega

theorem found_second_even {r : Region} (hk : storageRegion e.kind = some r)
    (hi : insideEntry e (evenAddr a + 2) = true) : entryOffset e (evenAddr a + 2) % 2 = 0 := by
  obtain ⟨h1, h2, h3, h4⟩ := found_range hm hc h
  have := found_base_even hm hc h hk
  have := evenAddr_even a
  simp only [insideEntry, Bool.and_eq_true, decide_eq_true_eq, BitVec.le_def] at hi
  simp only [entryOffset, secondAddr_toNat] at hi ⊢
  omega

/-- The two cycles of a 32-bit transaction reach four different bytes. -/
theorem found_second_disjoint (hi : insideEntry e (evenAddr a + 2) = true) :
    entryOffset e (evenAddr a + 2) ≠ entryOffset e (evenAddr a) ∧
      entryOffset e (evenAddr a + 2) ≠ entryOffset e (evenAddr a) + 1 ∧
      entryOffset e (evenAddr a + 2) + 1 ≠ entryOffset e (evenAddr a) := by
  obtain ⟨h1, h2, h3, h4⟩ := found_range hm hc h
  have := evenAddr_even a
  have := evenAddr_toNat a
  have := (evenAddr a).isLt
  have : e.stop.toNat < 2 ^ 24 := e.stop.isLt
  simp only [insideEntry, Bool.and_eq_true, decide_eq_true_eq, BitVec.le_def] at hi
  simp only [entryOffset, secondAddr_toNat] at hi ⊢
  omega

end Found

/-! Writes, cycle by cycle. -/

theorem extractLsb'_extractLsb' (v : Long) {p n m : Nat} (q : Nat) (h : p + n ≤ m) :
    (v.extractLsb' q m).extractLsb' p n = v.extractLsb' (q + p) n := by
  apply BitVec.eq_of_getLsbD_eq
  intro i hi
  simp only [BitVec.getLsbD_extractLsb', hi, decide_true, Bool.true_and]
  rw [decide_eq_true (by omega), Bool.true_and, Nat.add_assoc]

@[simp] theorem highByte_lowWord (v : Long) : highByte (v.extractLsb' 0 16) = v.extractLsb' 8 8 :=
  extractLsb'_extractLsb' v 0 (by omega)
@[simp] theorem lowByte_lowWord (v : Long) : lowByte (v.extractLsb' 0 16) = v.extractLsb' 0 8 :=
  extractLsb'_extractLsb' v 0 (by omega)
@[simp] theorem highByte_highWord (v : Long) : highByte (v.extractLsb' 16 16) = v.extractLsb' 24 8 :=
  extractLsb'_extractLsb' v 16 (by omega)
@[simp] theorem lowByte_highWord (v : Long) : lowByte (v.extractLsb' 16 16) = v.extractLsb' 16 8 :=
  extractLsb'_extractLsb' v 16 (by omega)

theorem extractLsb'_zext (n : Nat) (v : Long) (h : n ≤ 32) :
    ((v.extractLsb' 0 n).setWidth 32).extractLsb' 0 n = v.extractLsb' 0 n := by
  apply BitVec.eq_of_getLsbD_eq
  intro i hi
  simp only [BitVec.getLsbD_extractLsb', BitVec.getLsbD_setWidth, hi, decide_true, Bool.true_and, Nat.zero_add]
  rw [decide_eq_true (by omega), Bool.true_and]

section Cycles

variable (cycle : Nat → Lanes → Word → State → State) (a : Addr) (v : Long) {e : MapEntry} (s : State)
  (hi : insideEntry e (evenAddr a) = true)
include hi

/-- An 8-bit write at an even address is one cycle on the high lane. -/
theorem writeCycles_w8_even (h : a.toNat % 2 = 0) :
    writeCycles cycle .w8 a v e s = cycle (entryOffset e (evenAddr a)) .hi (v.extractLsb' 0 8 ++ 0#8) s := by
  rw [evenAddr_of_even h] at hi ⊢
  simp only [writeCycles, cycles, busAddr, getLsbD_zero_eq, h, zextValue, extractLsb'_zext 8 v (by omega)]
  simp [hi]

/-- An 8-bit write at an odd address is one cycle on the low lane. -/
theorem writeCycles_w8_odd (h : a.toNat % 2 = 1) :
    writeCycles cycle .w8 a v e s = cycle (entryOffset e (evenAddr a)) .lo (0#8 ++ v.extractLsb' 0 8) s := by
  simp only [writeCycles, cycles, busAddr, getLsbD_zero_eq, h, zextValue, extractLsb'_zext 8 v (by omega)]
  simp [hi]

/-- A 16-bit write is one cycle on both lanes. -/
theorem writeCycles_w16 :
    writeCycles cycle .w16 a v e s = cycle (entryOffset e (evenAddr a)) .both (v.extractLsb' 0 16) s := by
  simp only [writeCycles, cycles, busAddr, zextValue, extractLsb'_zext 16 v (by omega)]
  simp [hi]

/-- A 32-bit write is two cycles, the high word first, the second one dropped outside the entry. -/
theorem writeCycles_w32 :
    writeCycles cycle .w32 a v e s =
      (fun t => if insideEntry e (evenAddr a + 2) = true then
        cycle (entryOffset e (evenAddr a + 2)) .both (v.extractLsb' 0 16) t else t)
      (cycle (entryOffset e (evenAddr a)) .both (v.extractLsb' 16 16) s) := by
  simp [writeCycles, cycles, busAddr, zextValue, hi]

end Cycles

/-- Whatever every cycle at an even offset keeps, a write to a found storage entry keeps. -/
theorem writeCycles_found_keeps {cycle : Nat → Lanes → Word → State → State} (P : State → Prop) {vr : Variant}
    {mp : List MapEntry} {w : Width} {a : Addr} {v : Long} {e : MapEntry} {r : Region}
    (hm : mp = vr.rmap ∨ mp = vr.wmap) (hc : configCheck vr = none) (h : lookup mp (busAddr w a) = some e)
    (hk : storageRegion e.kind = some r)
    (hcycle : ∀ (off : Nat) (be : Lanes) (d : Word) (s : State), off % 2 = 0 → P s → P (cycle off be d s))
    {s : State} (hs : P s) : P (writeCycles cycle w a v e s) := by
  have hi : insideEntry e (evenAddr a) = true := by simpa using found_inside hm hc h
  have he : entryOffset e (evenAddr a) % 2 = 0 := by simpa using found_offset_even hm hc h hk
  cases w with
  | w8 =>
    rcases Nat.mod_two_eq_zero_or_one a.toNat with h2 | h2
    · rw [writeCycles_w8_even cycle a v s hi h2]; exact hcycle _ _ _ _ he hs
    · rw [writeCycles_w8_odd cycle a v s hi h2]; exact hcycle _ _ _ _ he hs
  | w16 => rw [writeCycles_w16 cycle a v s hi]; exact hcycle _ _ _ _ he hs
  | w32 =>
    rw [writeCycles_w32 cycle a v s hi]
    dsimp only
    have h1 := hcycle _ .both (v.extractLsb' 16 16) s he hs
    split_ifs with h2
    · have he2 : entryOffset e (evenAddr a + 2) % 2 = 0 := by
        simpa using found_second_even hm hc h hk (by simpa using h2)
      exact hcycle _ _ _ _ he2 h1
    · exact h1

end Sys2Proof.Machine
end

