-- ==== Sys2Proof/Laws/Compositor.lean ====
section
/-! SUPPORT. What the compositor's loops leave behind: the tables after TCUPD, and what a place of a plane shows after a
list of pixels is drawn over it. -/

namespace Sys2Proof.Machine

/-! TCUPD. -/

/-- The tables after the cells of a list are refreshed. -/
theorem refreshCells (s : State) (l : List Nat) (tables : Store TileEntry × Nat) (c : Nat) :
    bitAt (l.foldl (refreshCell s) tables).2 c = (bitAt tables.2 c && decide (c ∉ l)) ∧
      (l.foldl (refreshCell s) tables).1.get Config.launchTile c =
        if c ∈ l ∧ bitAt tables.2 c then decodedCell s c else tables.1.get Config.launchTile c := by
  induction l generalizing tables with
  | nil => simp
  | cons d rest ih =>
    rw [List.foldl_cons]
    obtain ⟨h1, h2⟩ := ih (refreshCell s tables d)
    rw [h1, h2]
    by_cases hd : bitAt tables.2 d = true
    · by_cases hc : c = d
      · subst hc; simp [refreshCell, hd]
      · simp [refreshCell, hd, Store.get_set, hc, Ne.symm hc]
    · by_cases hc : c = d
      · subst hc; simp [refreshCell, hd]
      · simp [refreshCell, hd, hc]

/-- TCUPD leaves the tables alone when no cell is dirty. -/
theorem refreshedTables_clean {s : State} (h : ∀ c, c < s.variant.nCells → bitAt s.dirty c = false) :
    refreshedTables s = (s.tcache, s.dirty) := by
  unfold refreshedTables
  have : ∀ l : List Nat, (∀ c ∈ l, bitAt s.dirty c = false) →
      l.foldl (refreshCell s) (s.tcache, s.dirty) = (s.tcache, s.dirty) := by
    intro l
    induction l with
    | nil => intro _; rfl
    | cons d rest ih =>
      intro hl
      rw [List.foldl_cons, refreshCell, if_neg (by simp [hl d List.mem_cons_self])]
      exact ih fun c hc => hl c (List.mem_cons_of_mem _ hc)
  exact this _ fun c hc => h c (List.mem_range.1 hc)

/-- The dirty bits after TCUPD. -/
theorem updateTiles_clears (s : State) (c : Nat) :
    bitAt (updateTiles s).dirty c = (bitAt s.dirty c && decide (¬ c < s.variant.nCells)) := by
  have := (refreshCells s (List.range s.variant.nCells) (s.tcache, s.dirty) c).1
  simpa [updateTiles, refreshedTables] using this

/-- The decode cache after TCUPD. -/
theorem updateTiles_decodes (s : State) (c : Nat) :
    tileAt (updateTiles s) c =
      if c < s.variant.nCells ∧ bitAt s.dirty c then decodedCell s c else tileAt s c := by
  have := (refreshCells s (List.range s.variant.nCells) (s.tcache, s.dirty) c).2
  simpa [updateTiles, refreshedTables, tileAt] using this

/-- TCUPD keeps the cache's canonical form. -/
theorem refreshedTables_wf {s : State} (h : Store.wf Config.launchTile s.tcache) :
    Store.wf Config.launchTile (refreshedTables s).1 := by
  unfold refreshedTables
  generalize List.range s.variant.nCells = l
  generalize s.dirty = d
  generalize s.tcache = tc at h
  induction l generalizing tc d with
  | nil => exact h
  | cons c rest ih =>
    rw [List.foldl_cons]
    unfold refreshCell
    split_ifs
    · exact ih _ _ (Store.set_wf h _ _)
    · exact ih _ _ h

/-! Planes. -/

section Planes

variable {α : Type}

@[simp] theorem planePut_size (v : Variant) (plane : Array α) (x y : Int) (a : α) :
    (planePut v plane x y a).size = plane.size := by
  unfold planePut; split_ifs <;> simp

@[simp] theorem planeFilled_size (v : Variant) (a : α) : (planeFilled v a).size = v.fbW * v.fbH := by
  simp [planeFilled]

/-- Different places of the frame are different entries of a plane. -/
theorem planeIndex_inj {v : Variant} {x y x' y' : Nat} (hx : x < v.fbW) (hx' : x' < v.fbW)
    (h : planeIndex v x y = planeIndex v x' y') : x = x' ∧ y = y' := by
  unfold planeIndex at h
  have hm := congrArg (· % v.fbW) h
  simp only [Nat.mul_comm _ v.fbW, Nat.mul_add_mod, Nat.mod_eq_of_lt hx, Nat.mod_eq_of_lt hx'] at hm
  subst hm
  have : v.fbW * y = v.fbW * y' := by rw [Nat.mul_comm, Nat.mul_comm v.fbW]; omega
  exact ⟨rfl, Nat.eq_of_mul_eq_mul_left (by omega) this⟩

theorem planeIndex_lt {v : Variant} {x y : Nat} (hx : x < v.fbW) (hy : y < v.fbH) :
    planeIndex v x y < v.fbW * v.fbH := by
  unfold planeIndex
  calc y * v.fbW + x < y * v.fbW + v.fbW := by omega
    _ = (y + 1) * v.fbW := by ring
    _ ≤ v.fbH * v.fbW := Nat.mul_le_mul_right _ hy
    _ = v.fbW * v.fbH := Nat.mul_comm _ _

/-- What a place of a plane shows after a pixel is put: the pixel where it falls on the place. -/
theorem planePut_get {v : Variant} {plane : Array α} (hs : plane.size = v.fbW * v.fbH) {x y : Nat} (hx : x < v.fbW)
    (hy : y < v.fbH) (X Y : Int) (a : α) :
    (planePut v plane X Y a)[planeIndex v x y]? =
      if X = x ∧ Y = y then some a else plane[planeIndex v x y]? := by
  unfold planePut
  have hlt := planeIndex_lt hx hy
  by_cases hin : 0 ≤ X ∧ X < v.fbW ∧ 0 ≤ Y ∧ Y < v.fbH
  · rw [if_pos hin, Array.getElem?_setIfInBounds]
    by_cases he : X = x ∧ Y = y
    · obtain ⟨rfl, rfl⟩ := he
      simp [hs, hlt]
    · rw [if_neg he, if_neg]
      intro h
      have := planeIndex_inj (v := v) (by omega) hx h
      omega
  · rw [if_neg hin, if_neg]
    omega

/-- A pixel to put: its place and its value. -/
abbrev Put (α : Type) := (Int × Int) × α

/-- A plane with a list of pixels put on it, in order. -/
def putAll (v : Variant) (plane : Array α) (l : List (Put α)) : Array α :=
  l.foldl (fun p q => planePut v p q.1.1 q.1.2 q.2) plane

@[simp] theorem putAll_size (v : Variant) (plane : Array α) (l : List (Put α)) :
    (putAll v plane l).size = plane.size := by
  unfold putAll
  induction l generalizing plane with
  | nil => rfl
  | cons q rest ih => rw [List.foldl_cons, ih, planePut_size]

theorem putAll_append (v : Variant) (plane : Array α) (l m : List (Put α)) :
    putAll v plane (l ++ m) = putAll v (putAll v plane l) m := by simp [putAll]

/-- A place on which no pixel of the list falls keeps what it showed. -/
theorem putAll_miss {v : Variant} {plane : Array α} (hs : plane.size = v.fbW * v.fbH) {x y : Nat} (hx : x < v.fbW)
    (hy : y < v.fbH) {l : List (Put α)} (h : ∀ q ∈ l, q.1 ≠ ((x : Int), (y : Int))) :
    (putAll v plane l)[planeIndex v x y]? = plane[planeIndex v x y]? := by
  induction l generalizing plane with
  | nil => rfl
  | cons q rest ih =>
    have hq := h q List.mem_cons_self
    show (putAll v (planePut v plane q.1.1 q.1.2 q.2) rest)[planeIndex v x y]? = _
    rw [ih (by simpa using hs) fun r hr => h r (List.mem_cons_of_mem _ hr), planePut_get hs hx hy, if_neg]
    rintro ⟨h1, h2⟩
    exact hq (Prod.ext h1 h2)

/-- A place shows the last pixel of the list that falls on it. -/
theorem putAll_last {v : Variant} {plane : Array α} (hs : plane.size = v.fbW * v.fbH) {x y : Nat} (hx : x < v.fbW)
    (hy : y < v.fbH) {before after : List (Put α)} {a : α} (h : ∀ q ∈ after, q.1 ≠ ((x : Int), (y : Int))) :
    (putAll v plane (before ++ (((x : Int), (y : Int)), a) :: after))[planeIndex v x y]? = some a := by
  rw [putAll_append]
  show (putAll v (planePut v (putAll v plane before) x y a) after)[planeIndex v x y]? = _
  rw [putAll_miss (by simpa using hs) hx hy h, planePut_get (by simpa using hs) hx hy, if_pos ⟨rfl, rfl⟩]

/-- A place on which some pixel falls, all that fall on it having one value, shows that value. -/
theorem putAll_agree {v : Variant} {plane : Array α} (hs : plane.size = v.fbW * v.fbH) {x y : Nat} (hx : x < v.fbW)
    (hy : y < v.fbH) {l : List (Put α)} {a : α} (hex : ∃ q ∈ l, q.1 = ((x : Int), (y : Int)))
    (hall : ∀ q ∈ l, q.1 = ((x : Int), (y : Int)) → q.2 = a) :
    (putAll v plane l)[planeIndex v x y]? = some a := by
  induction l generalizing plane with
  | nil => obtain ⟨q, hq, _⟩ := hex; cases hq
  | cons q rest ih =>
    by_cases hr : ∃ r ∈ rest, r.1 = ((x : Int), (y : Int))
    · exact ih (by simpa using hs) hr fun r hm => hall r (List.mem_cons_of_mem _ hm)
    · obtain ⟨r, hm, he⟩ := hex
      have hq : q.1 = ((x : Int), (y : Int)) := by
        rcases List.mem_cons.1 hm with rfl | hm
        · exact he
        · exact absurd ⟨r, hm, he⟩ hr
      have : q = (((x : Int), (y : Int)), a) := Prod.ext hq (hall q List.mem_cons_self hq)
      rw [this]
      exact putAll_last hs hx hy (before := []) fun r hm he => hr ⟨r, hm, he⟩

/-- Of several turns that put pixels, a place shows those of the last turn that puts one on it. -/
theorem putAll_lastTurn {β : Type} {v : Variant} {plane : Array α} (hs : plane.size = v.fbW * v.fbH) {x y : Nat}
    (hx : x < v.fbW) (hy : y < v.fbH) {g : β → List (Put α)} {before after : List β} {b : β} {a : α}
    (hex : ∃ q ∈ g b, q.1 = ((x : Int), (y : Int))) (hall : ∀ q ∈ g b, q.1 = ((x : Int), (y : Int)) → q.2 = a)
    (hafter : ∀ c ∈ after, ∀ q ∈ g c, q.1 ≠ ((x : Int), (y : Int))) :
    (putAll v plane ((before ++ b :: after).flatMap g))[planeIndex v x y]? = some a := by
  rw [List.flatMap_append, List.flatMap_cons, putAll_append, putAll_append, putAll_miss (by simpa using hs) hx hy]
  · exact putAll_agree (by simpa using hs) hx hy hex hall
  · intro q hq
    obtain ⟨c, hc, hq⟩ := List.mem_flatMap.1 hq
    exact hafter c hc q hq

/-- A range up to n, split at c. -/
theorem range_split {n c : Nat} (h : c < n) :
    List.range n = List.range c ++ c :: (List.range (n - c - 1)).map (c + 1 + ·) := by
  have h1 : n = c + (1 + (n - c - 1)) := by omega
  conv_lhs => rw [h1, List.range_add, List.range_add]
  simp [Nat.add_assoc, Function.comp_def]

/-- A loop whose every turn puts a list of pixels puts all of them. -/
theorem foldl_putAll {β : Type} (v : Variant) (f : Array α → β → Array α) (g : β → List (Put α))
    (h : ∀ p b, f p b = putAll v p (g b)) (plane : Array α) (l : List β) :
    l.foldl f plane = putAll v plane (l.flatMap g) := by
  induction l generalizing plane with
  | nil => rfl
  | cons b rest ih => rw [List.foldl_cons, List.flatMap_cons, putAll_append, ih, h]

end Planes

/-! TREND. -/

/-- The pixels of a cell of the tile layer (42_frame_compositor.md R200). -/
def tilePuts (s : State) (c : Nat) : List (Put (Option Nat)) :=
  if (tileAt s c).tile.toNat < s.variant.tileCount then
    (cellPlaces s.variant.tileW s.variant.tileH).flatMap fun p =>
      if tilePen s (tileAt s c).tile.toNat p.1 p.2 = s.variant.tileTransparentPen then []
      else [(tilePixelPos s.variant s.flip (cellPos s.variant c).1 (cellPos s.variant c).2 p.1 p.2,
        some (paletteIndex s.variant.tilePalBase (tileAt s c).colour.toNat
          (tilePen s (tileAt s c).tile.toNat p.1 p.2).toNat))]
  else []

/-- TREND puts the pixels of every cell, in the order of the cells, on an empty layer. -/
theorem renderedLayer_eq (s : State) :
    renderedLayer s =
      putAll s.variant (planeFilled s.variant none) ((List.range s.variant.nCells).flatMap (tilePuts s)) := by
  refine foldl_putAll _ _ _ (fun p c => ?_) _ _
  unfold drawTile tilePuts
  dsimp only
  split_ifs
  · refine foldl_putAll _ _ _ (fun p q => ?_) _ _
    unfold drawTilePixel
    dsimp only
    split_ifs <;> rfl
  · rfl

/-! SREND. -/

/-- The pixels of a row of a slot (42_frame_compositor.md R206, R211). -/
def rowPuts (s : State) (sl : Slot) (i : Nat) : List (Put Nat) :=
  let r := flippedRow s.flip (spriteRow s sl i)
  let pos := spritePos s.variant s.flip (wordAt s .sprram (slotBase sl)) (wordAt s .sprram (slotBase sl + 2))
  if rowShown s.variant r then
    (cellPlaces sprCell sprCell).flatMap fun p =>
      if spritePen s r.tile (flipSource r.fx p.1) (flipSource r.fy p.2) ≠ s.variant.sprTransparentPen ∧
          insideClip s.variant.vis (pos.1 + p.1) (rowY s.flip pos.2 i + p.2) then
        [((pos.1 + p.1, rowY s.flip pos.2 i + p.2), paletteIndex s.variant.sprPalBase r.colour.toNat
          (spritePen s r.tile (flipSource r.fx p.1) (flipSource r.fy p.2)).toNat)]
      else []
  else []

/-- The pixels of a slot, rows ascending. -/
def slotPuts (s : State) (sl : Slot) : List (Put Nat) := (List.range rowsPerSlot).flatMap (rowPuts s sl)

/-- SREND puts the pixels of every slot, in the order of the slots, on a background of TRANSPARENT_SLOT. -/
theorem renderedSprites_eq (s : State) :
    renderedSprites s =
      putAll s.variant (planeFilled s.variant s.variant.transparentSlot)
        ((slotsOf s.variant.bankOrder).flatMap (slotPuts s)) := by
  refine foldl_putAll _ _ _ (fun p sl => ?_) _ _
  refine foldl_putAll _ _ _ (fun p i => ?_) _ _
  unfold drawRow rowPuts
  dsimp only
  split_ifs
  · refine foldl_putAll _ _ _ (fun p q => ?_) _ _
    unfold drawCellPixel
    dsimp only
    split_ifs <;> rfl
  · rfl

/-! COMP. -/

/-- The pixels the tile layer puts on the frame (42_frame_compositor.md R213). -/
def layerPuts (s : State) : List (Put Nat) :=
  (clipPlaces s.variant.vis).flatMap fun p =>
    match layerAt s p.1 p.2 with
    | some i => [(((p.1 : Int), (p.2 : Int)), i)]
    | none => []

/-- COMP puts the opaque places of the tile layer on the frame. -/
theorem compositeLayers_putAll (s : State) : (compositeLayers s).fb = putAll s.variant s.fb (layerPuts s) := by
  refine foldl_putAll _ _ _ (fun p q => ?_) _ _
  unfold compositePixel
  cases layerAt s q.1 q.2 <;> rfl

/-- The places of the clip rectangle. -/
theorem mem_clipPlaces {c : Clip} {x y : Nat} :
    (x, y) ∈ clipPlaces c ↔ (c.x0 ≤ x ∧ x ≤ c.x1) ∧ c.y0 ≤ y ∧ y ≤ c.y1 := by
  simp only [clipPlaces, List.mem_flatMap, List.mem_map, List.mem_range, Prod.mk.injEq]
  constructor
  · rintro ⟨j, hj, i, hi, rfl, rfl⟩; omega
  · rintro ⟨⟨h1, h2⟩, h3, h4⟩; exact ⟨y - c.y0, by omega, x - c.x0, by omega, by omega, by omega⟩

/-- The places of a cell. -/
theorem mem_cellPlaces {w h px py : Nat} : (px, py) ∈ cellPlaces w h ↔ px < w ∧ py < h := by
  simp only [cellPlaces, List.mem_flatMap, List.mem_map, List.mem_range, Prod.mk.injEq]
  constructor
  · rintro ⟨j, hj, i, hi, rfl, rfl⟩; exact ⟨hi, hj⟩
  · rintro ⟨h1, h2⟩; exact ⟨py, h2, px, h1, rfl, rfl⟩

end Sys2Proof.Machine
end

