-- ==== Sys2Proof/Laws/Encoding.lean ====
section
/-! SUPPORT. The fields of a transaction word and of an operation word, and the decoding of what the encoder writes. -/

namespace Sys2Proof

open Sys2Proof.Machine

@[simp] theorem twCmd_twOf (c s : BitVec 2) (a : Addr) (d : Long) : twCmd (twOf c s a d) = c := by
  apply BitVec.eq_of_getLsbD_eq
  intro i hi
  simp only [twCmd, twOf, BitVec.getLsbD_extractLsb', BitVec.getLsbD_append]
  rw [if_neg (by omega), if_neg (by omega), if_neg (by omega), if_neg (by omega), decide_eq_true hi, Bool.true_and]
  exact congrArg (BitVec.getLsbD _) (by omega)

@[simp] theorem twSel_twOf (c s : BitVec 2) (a : Addr) (d : Long) : twSel (twOf c s a d) = s := by
  apply BitVec.eq_of_getLsbD_eq
  intro i hi
  simp only [twSel, twOf, BitVec.getLsbD_extractLsb', BitVec.getLsbD_append]
  rw [if_neg (by omega), if_neg (by omega), if_neg (by omega), if_pos (by omega), decide_eq_true hi, Bool.true_and]
  exact congrArg (BitVec.getLsbD _) (by omega)

@[simp] theorem twZero_twOf (c s : BitVec 2) (a : Addr) (d : Long) : twZero (twOf c s a d) = 0 := by
  apply BitVec.eq_of_getLsbD_eq
  intro i hi
  simp only [twZero, twOf, BitVec.getLsbD_extractLsb', BitVec.getLsbD_append]
  rw [if_neg (by omega), if_neg (by omega), if_pos (by omega)]
  simp [hi]

@[simp] theorem twAddr_twOf (c s : BitVec 2) (a : Addr) (d : Long) : twAddr (twOf c s a d) = a := by
  apply BitVec.eq_of_getLsbD_eq
  intro i hi
  simp only [twAddr, twOf, BitVec.getLsbD_extractLsb', BitVec.getLsbD_append]
  rw [if_neg (by omega), if_pos (by omega)]
  simp [hi]

@[simp] theorem twData_twOf (c s : BitVec 2) (a : Addr) (d : Long) : twData (twOf c s a d) = d := by
  apply BitVec.eq_of_getLsbD_eq
  intro i hi
  simp only [twData, twOf, BitVec.getLsbD_extractLsb', BitVec.getLsbD_append]
  rw [if_pos (by omega)]
  simp [hi]

/-- A word is put together from its fields. -/
theorem twOf_fields {tw : BitVec 64} (h : twZero tw = 0) :
    twOf (twCmd tw) (twSel tw) (twAddr tw) (twData tw) = tw := by
  have : twOf (twCmd tw) (twSel tw) (twAddr tw) (twData tw) =
      twCmd tw ++ twSel tw ++ twZero tw ++ twAddr tw ++ twData tw := by rw [h]; rfl
  rw [this]
  apply BitVec.eq_of_getLsbD_eq
  intro i hi
  simp only [twData, twCmd, twSel, twZero, twAddr, BitVec.getLsbD_extractLsb', BitVec.getLsbD_append]
  split_ifs
  · simp [*]
  all_goals (rw [decide_eq_true (by omega), Bool.true_and]; congr 1; omega)

@[simp] theorem widthOfSel_selOfWidth (w : Width) : widthOfSel (selOfWidth w) = some w := by cases w <;> rfl

theorem selOfWidth_of_widthOfSel {sel : BitVec 2} {w : Width} (h : widthOfSel sel = some w) : selOfWidth w = sel := by
  revert h w sel; decide

theorem widthOfSel_eq_none {sel : BitVec 2} : widthOfSel sel = none ↔ sel = 3 := by revert sel; decide

/-- An operation word with its width masked away, and with nothing masked away. -/
theorem opWord_masked (c sel : BitVec 2) (k : BitVec 8) : opWord c sel k &&& 0xCFFF = opWord c 0 k := by
  revert c sel k; decide

theorem opWord_sel (c sel : BitVec 2) (k : BitVec 8) : (opWord c sel k).extractLsb' 12 2 = sel := by
  revert c sel k; decide

theorem opWord_cmd (c sel : BitVec 2) (k : BitVec 8) : (opWord c sel k).extractLsb' 14 2 = c := by
  revert c sel k; decide

theorem opWord_kind (c sel : BitVec 2) (k : BitVec 8) : (opWord c sel k).extractLsb' 0 8 = k := by
  revert c sel k; decide

/-- A read's word decodes by the kind its address selects. -/
theorem decode_encodeRead (v : Variant) (w : Width) (a : Addr) :
    decodeEncoded v (encodeRead w a) = decodeOpWord (opWord 0 (selOfWidth w) (selectedKind v.rmap w a)) a 0 := by
  simp only [decodeEncoded, encodeRead, decode, twCmd_twOf, twSel_twOf, twZero_twOf, twAddr_twOf, twData_twOf,
    widthOfSel_selOfWidth]
  simp

/-- A write's word decodes by the kind its address selects, when its value fits. -/
theorem decode_encodeWrite (v : Variant) {w : Width} (a : Addr) {x : Long} (hx : valueFits w x = true) :
    decodeEncoded v (encodeWrite w a x) = decodeOpWord (opWord 1 (selOfWidth w) (selectedKind v.wmap w a)) a x := by
  simp only [decodeEncoded, encodeWrite, decode, twCmd_twOf, twSel_twOf, twZero_twOf, twAddr_twOf, twData_twOf,
    widthOfSel_selOfWidth]
  simp [hx]

/-- What an operation word decodes to comes from a row that it matches. -/
theorem decodeOpWord_ok {opw : Word} {a : Addr} {d : Long} {i : Instr} (h : decodeOpWord opw a d = .ok i) :
    ∃ w, widthOfSel (opw.extractLsb' 12 2) = some w ∧ ∃ r ∈ opRows, opw &&& r.mask = r.pattern ∧ i = r.build w a d := by
  unfold decodeOpWord at h
  split at h
  · cases h
  · next w hw =>
    split at h
    · next r hr =>
      exact ⟨w, hw, r, List.mem_of_find?_eq_some hr, by simpa using List.find?_some hr, by cases h; rfl⟩
    · cases h

end Sys2Proof
end

