-- ==== Sys2Proof/Laws/Exec.lean ====
section
/-! SUPPORT. Everything an operation can do when it completes, said once, and the step seen through it. -/

namespace Sys2Proof.Machine

/-- The thirteen reads. -/
def isRead : Instr → Bool
  | .rdOpen _ _ | .rdRom _ _ | .rdRam _ _ | .rdBankrom _ _ | .rdVideo _ _ | .rdSprite _ _ | .rdPalette _ _ => true
  | .rdCtrl _ _ | .rdDip _ _ | .rdSndbusy _ _ | .rdRot _ _ | .rdRotlo _ _ | .rdProtr _ _ => true
  | _ => false

/-- The writes that are discarded. -/
def isDiscarded : Instr → Bool
  | .wrOpen _ _ _ | .wrRom _ _ _ | .wrBankrom _ _ _ => true
  | _ => false

/-- What an operation that completes has done: a read replies, a write into ROM, banked ROM or nowhere only clears the
reply, every other write has the effect of its kind, and each system command and micro-operation its own. -/
inductive Performs (s : State) : Instr → State → Prop
  | reads {i : Instr} (hi : isRead i = true) (x : Long) : Performs s i (respond s x)
  | discards {i : Instr} (hi : isDiscarded i = true) : Performs s i (noReply s)
  | ram {w : Width} {a : Addr} {v : Long} (e : MapEntry) (he : selectEntry s.variant.wmap .ram w a = some e) :
      Performs s (.wrRam w a v) (writeCycles writeCycleRam w a v e (noReply s))
  | video {w : Width} {a : Addr} {v : Long} (e : MapEntry) (he : selectEntry s.variant.wmap .video w a = some e) :
      Performs s (.wrVideo w a v) (writeCycles writeCycleVideo w a v e (noReply s))
  | sprite {w : Width} {a : Addr} {v : Long} (e : MapEntry) (he : selectEntry s.variant.wmap .sprite w a = some e) :
      Performs s (.wrSprite w a v) (writeCycles writeCycleSprite w a v e (noReply s))
  | palette {w : Width} {a : Addr} {v : Long} (e : MapEntry) (he : selectEntry s.variant.wmap .palette w a = some e) :
      Performs s (.wrPalette w a v) (writeCycles writeCyclePalette w a v e (noReply s))
  | sndkick {w : Width} {a : Addr} {v : Long} :
      Performs s (.wrSndkick w a v) (raiseSoundNmi (noReply s) (latchOf (zextValue w v)))
  | flip {w : Width} {a : Addr} {v : Long} :
      Performs s (.wrFlip w a v)
        { noReply s with flip := flipOf (zextValue w v), sprflip := sprflipOf (zextValue w v) }
  | protw {w : Width} {a : Addr} {v : Long} :
      Performs s (.wrProtw w a v) { noReply s with invert := invertAfter s.invert (zextValue w v) }
  | frame : Performs s .frame (runFrame (noReply s))
  | reset : Performs s .reset (resetSession (noReply s))
  | tcupd : Performs s .tcupd (updateTiles s)
  | pvis : Performs s .pvis (rebuildVisibility s)
  | pchg : Performs s .pchg (applyPaletteChange s)
  | trend : Performs s .trend (renderTiles s)
  | srend : Performs s .srend (renderSprites s)
  | comp : Performs s .comp (compositeLayers s)

/-- A write to ROM or banked ROM, cycle by cycle, does nothing. -/
@[simp] theorem writeCycles_rom (w : Width) (a : Addr) (v : Long) (e : MapEntry) (s : State) :
    writeCycles writeCycleRom w a v e s = s :=
  writeCycles_keeps (fun t => t = s) (fun _ _ h _ => h) rfl

theorem reads_of {k : Kind} {word : State → MapEntry → Addr → Word} {w : Width} {a : Addr} {s t : State}
    (h : readEntry k word w a s = .next t) {i : Instr} (hi : isRead i = true) : Performs s i t := by
  obtain ⟨_, _, e, _, rfl⟩ := readEntry_next h
  exact .reads hi _

theorem discards_of {k : Kind} {w : Width} {a : Addr} {v : Long} {s t : State}
    (h : writeEntry k (writeCycles writeCycleRom w a v) w a s = .next t) {i : Instr} (hi : isDiscarded i = true) :
    Performs s i t := by
  obtain ⟨_, _, e, _, rfl⟩ := writeEntry_next h
  rw [writeCycles_rom]
  exact .discards hi

/-- An operation that completes has done what its constructor of `Performs` says. -/
theorem exec_next {i : Instr} {s t : State} (h : exec i s = .next t) : Performs s i t := by
  cases i with
  | rdOpen w a => obtain ⟨_, _, _, rfl⟩ := openBusCommand_next h; exact .reads rfl _
  | rdRom w a => exact reads_of h rfl
  | rdRam w a => exact reads_of h rfl
  | rdBankrom w a => exact reads_of h rfl
  | rdVideo w a => exact reads_of h rfl
  | rdSprite w a => exact reads_of h rfl
  | rdPalette w a => exact reads_of h rfl
  | rdCtrl w a => exact reads_of h rfl
  | rdDip w a => exact reads_of h rfl
  | rdSndbusy w a => exact reads_of h rfl
  | rdRot w a => exact reads_of h rfl
  | rdRotlo w a => exact reads_of h rfl
  | rdProtr w a => exact reads_of h rfl
  | wrOpen w a v => obtain ⟨_, _, _, rfl⟩ := openBusCommand_next h; exact .discards rfl
  | wrRom w a v => exact discards_of h rfl
  | wrRam w a v => obtain ⟨_, _, e, he, rfl⟩ := writeEntry_next h; exact .ram e he
  | wrBankrom w a v => exact discards_of h rfl
  | wrVideo w a v => obtain ⟨_, _, e, he, rfl⟩ := writeEntry_next h; exact .video e he
  | wrSprite w a v => obtain ⟨_, _, e, he, rfl⟩ := writeEntry_next h; exact .sprite e he
  | wrPalette w a v => obtain ⟨_, _, e, he, rfl⟩ := writeEntry_next h; exact .palette e he
  | wrSndkick w a v =>
    simp only [exec, execWrSndkick] at h
    obtain ⟨_, _, e, he, rfl⟩ := writeEntry_next h
    exact .sndkick
  | wrFlip w a v =>
    simp only [exec, execWrFlip] at h
    obtain ⟨_, _, e, he, rfl⟩ := writeEntry_next h
    exact .flip
  | wrProtw w a v =>
    simp only [exec, execWrProtw] at h
    obtain ⟨_, _, e, he, rfl⟩ := writeEntry_next h
    exact .protw
  | frame => obtain ⟨_, _, h⟩ := accept_next h; cases h; exact .frame
  | reset => obtain ⟨_, _, h⟩ := accept_next h; cases h; exact .reset
  | tcupd => cases h; exact .tcupd
  | pvis => cases h; exact .pvis
  | pchg => cases h; exact .pchg
  | trend => cases h; exact .trend
  | srend => cases h; exact .srend
  | comp => cases h; exact .comp

/-- Storing lanes writes one byte array and nothing else. -/
theorem storeLanes_eq (s : State) (r : Region) (off : Nat) (be : Lanes) (d : Word) :
    ∃ m, storeLanes s r off be d = withMemory s r m := by
  unfold storeLanes
  cases be <;> cases r <;> simp [hasHi, hasLo] <;> exact ⟨_, rfl⟩

/-- What a write to work RAM leaves alone: everything but WRAM. -/
theorem writeCycles_ram_eq (w : Width) (a : Addr) (v : Long) (e : MapEntry) (s : State) :
    ∃ m, writeCycles writeCycleRam w a v e s = { s with wram := m } := by
  refine writeCycles_keeps (fun t => ∃ m, t = { s with wram := m }) ?_ ⟨s.wram, rfl⟩
  rintro _ c ⟨m, rfl⟩ _
  obtain ⟨m', h⟩ := storeLanes_eq { s with wram := m } .wram (entryOffset e c.wa) c.be c.d
  exact ⟨m', h⟩

/-- What a write to video memory leaves alone: everything but VRAM and DIRTY. -/
theorem writeCycles_video_eq (w : Width) (a : Addr) (v : Long) (e : MapEntry) (s : State) :
    ∃ m d, writeCycles writeCycleVideo w a v e s = { s with vram := m, dirty := d } := by
  refine writeCycles_keeps (fun t => ∃ m d, t = { s with vram := m, dirty := d }) ?_ ⟨s.vram, s.dirty, rfl⟩
  rintro _ c ⟨m, d, rfl⟩ _
  obtain ⟨m', h⟩ := storeLanes_eq { s with vram := m, dirty := d } .vram (entryOffset e c.wa) (videoLanes c.be c.d) c.d
  exact ⟨m', _, by rw [writeCycleVideo, h]; rfl⟩

/-- What a write to sprite memory leaves alone: everything but SPRRAM. -/
theorem writeCycles_sprite_eq (w : Width) (a : Addr) (v : Long) (e : MapEntry) (s : State) :
    ∃ m, writeCycles writeCycleSprite w a v e s = { s with sprram := m } := by
  refine writeCycles_keeps (fun t => ∃ m, t = { s with sprram := m }) ?_ ⟨s.sprram, rfl⟩
  rintro _ c ⟨m, rfl⟩ _
  obtain ⟨m', h⟩ := storeLanes_eq { s with sprram := m } .sprram (entryOffset e c.wa) c.be
    (spriteData (entryOffset e c.wa) c.d)
  exact ⟨m', h⟩

/-- What a write to palette memory leaves alone: everything but PALRAM and PALRGB. -/
theorem writeCycles_palette_eq (w : Width) (a : Addr) (v : Long) (e : MapEntry) (s : State) :
    ∃ m p, writeCycles writeCyclePalette w a v e s = { s with palram := m, palrgb := p } := by
  refine writeCycles_keeps (fun t => ∃ m p, t = { s with palram := m, palrgb := p }) ?_ ⟨s.palram, s.palrgb, rfl⟩
  rintro _ c ⟨m, p, rfl⟩ _
  obtain ⟨m', h⟩ := storeLanes_eq { s with palram := m, palrgb := p } .palram (entryOffset e c.wa) .both
    (mergeLanes (wordAt { s with palram := m, palrgb := p } .palram (entryOffset e c.wa)) c.be c.d)
  exact ⟨m', _, by rw [writeCyclePalette]; dsimp only; rw [h]; rfl⟩

/-- What a frame leaves alone: everything but the compositor's tables, PHASE, FRAME_VALID, PALCHG and EVT. -/
theorem runFrame_eq (s : State) :
    ∃ d tc vi ly fb pc f, runFrame s =
      { s with dirty := d, tcache := tc, visb := vi, visbPrev := vi, palchg := pc, layer := ly, fb := fb,
               phase := .idle, frameValid := true, evt := s.evt ++ [f] } :=
  by
  simp only [runFrame, finishFrame, emitEvent, compositeLayers, setPhase, renderSprites, renderTiles,
    applyPaletteChange, rebuildVisibility, updateTiles, startFrame]
  exact ⟨_, _, _, _, _, _, _, rfl⟩

/-- An operation that completes leaves PHASE where it was, or ends at Idle. -/
theorem exec_phase {i : Instr} {s t : State} (h : exec i s = .next t) : t.phase = s.phase ∨ t.phase = .idle := by
  cases exec_next h with
  | ram e _ => obtain ⟨m, hm⟩ := writeCycles_ram_eq _ _ _ e (noReply s); exact .inl (by rw [hm]; rfl)
  | video e _ => obtain ⟨m, d, hm⟩ := writeCycles_video_eq _ _ _ e (noReply s); exact .inl (by rw [hm]; rfl)
  | sprite e _ => obtain ⟨m, hm⟩ := writeCycles_sprite_eq _ _ _ e (noReply s); exact .inl (by rw [hm]; rfl)
  | palette e _ => obtain ⟨m, p, hm⟩ := writeCycles_palette_eq _ _ _ e (noReply s); exact .inl (by rw [hm]; rfl)
  | frame => exact .inr rfl
  | reset => exact .inr rfl
  | _ => exact .inl rfl

/-- From Idle the sequencer does not move after an operation. -/
theorem retire_of_idle {s : State} (h : s.phase = .idle) (i : Instr) : retire (exec i s) = exec i s := by
  cases hr : exec i s with
  | next t => 
    have : t.phase = .idle := (exec_phase hr).elim (fun h' => h'.trans h) id
    simp [retire, advancePhase_of_idle this]
  | fault _ => rfl
  | refused _ => rfl

/-- What a step that completes has done: nothing (the inbox is empty), a host action, an operation of the oldest
command, or the sequencer's micro-operation. -/
inductive Steps (s : State) : State → Prop
  | rests : Steps s s
  | setsPort (rest : List Input) (n : Nat) (x : Byte) :
      Steps s { s with inbox := rest, ports := s.ports.set Config.hostPort n x }
  | setsSndStat (rest : List Input) (x : Word) : Steps s { s with inbox := rest, sndstat := x }
  | command (rest : List Input) (i : Instr) (t : State) (hp : s.phase = .idle)
      (h : exec i { s with inbox := rest } = .next t) : Steps s t
  | micro (i : Instr) (t : State) (hp : s.phase ≠ .idle) (hm : decodeMicro (phaseMicroCode s.phase) = .ok i)
      (h : exec i s = .next t) : Steps s (advancePhase t)

theorem step_next {s t : State} (h : step s = .next t) : Steps s t := by
  by_cases hc : s.cfgErr = true
  · simp [step, fetch, hc] at h
  by_cases hp : s.phase = .idle
  · cases hi : s.inbox with
    | nil =>
      simp only [step, fetch, hc, hp, hi, if_true, if_false, Bool.false_eq_true] at h
      cases h; exact .rests
    | cons inp rest =>
      simp only [step, fetch, hc, hp, hi, if_true, if_false, Bool.false_eq_true] at h
      cases inp with
      | command tw =>
        simp only [fetchInput] at h
        cases hd : decode s.variant tw with
        | error why => simp [hd] at h
        | ok i =>
          simp only [hd] at h
          refine .command rest i t hp ?_
          have hr := retire_of_idle (s := { s with inbox := rest }) hp i
          rw [← hr, ← h]
          simp [hp, hc]
      | setPort n x =>
        simp only [fetchInput] at h
        split_ifs at h with hn
        · cases h
          have := Steps.setsPort (s := s) rest n x
          simpa [hp, hc] using this
      | setSndStat x =>
        simp only [fetchInput] at h
        cases h
        have := Steps.setsSndStat (s := s) rest x
        simpa [hp, hc] using this
  · cases hm : decodeMicro (phaseMicroCode s.phase) with
    | error why => simp [step, fetch, hc, hp, hm] at h
    | ok i =>
      simp only [step, fetch, hc, hp, hm, if_false, Bool.false_eq_true] at h
      obtain ⟨u, hu, rfl⟩ := retire_next h
      exact .micro i u hp hm hu

end Sys2Proof.Machine
end

