-- ==== Sys2Proof/Laws/Frame.lean ====
section
/-! SUPPORT. What each phase of a frame depends on, and every piece of state after a whole FRAME. -/

namespace Sys2Proof.Machine

/-! The phases, and the states they agree on. -/

theorem byteAt_congr {s t : State} {r : Region} (h : memoryOf s r = memoryOf t r) (o : Nat) : byteAt s r o = byteAt t r o := by
  simp only [byteAt, h]

theorem wordAt_congr {s t : State} {r : Region} (h : memoryOf s r = memoryOf t r) (o : Nat) : wordAt s r o = wordAt t r o := by
  simp only [wordAt, byteAt_congr h]

/-- TCUPD depends on the variant, VRAM, TCACHE and DIRTY. -/
theorem refreshedTables_congr {s t : State} (hv : s.variant = t.variant) (hm : s.vram = t.vram)
    (hc : s.tcache = t.tcache) (hd : s.dirty = t.dirty) : refreshedTables s = refreshedTables t := by
  have hw := wordAt_congr (s := s) (t := t) (r := .vram) hm
  have : refreshCell s = refreshCell t := by
    funext tables c
    simp only [refreshCell, decodedCell, hw, hv]
  simp only [refreshedTables, this, hv, hc, hd]

/-- PVIS depends on the variant, SPRFLIP, SPRRAM and the pen-usage asset. -/
theorem visibility_congr {s t : State} (hv : s.variant = t.variant) (hf : s.sprflip = t.sprflip)
    (hm : s.sprram = t.sprram) (hp : s.penUse = t.penUse) : visibility s = visibility t := by
  have hw := wordAt_congr (s := s) (t := t) (r := .sprram) hm
  have hr : spriteRow s = spriteRow t := by funext sl i; simp only [spriteRow, hw, hv, hf]
  have hu : penUseAt s = penUseAt t := by funext i; simp only [penUseAt, hp]
  have : markRow s = markRow t := by
    funext sl vis i
    simp only [markRow, hr, hu, hv]
  simp only [visibility, this, hv]

/-- TREND depends on the variant, FLIP, TCACHE and the tile asset. -/
theorem renderedLayer_congr {s t : State} (hv : s.variant = t.variant) (hf : s.flip = t.flip)
    (hc : s.tcache = t.tcache) (hg : s.gfxTile = t.gfxTile) : renderedLayer s = renderedLayer t := by
  have ht : tileAt s = tileAt t := by funext c; simp only [tileAt, hc]
  have hpen : tilePen s = tilePen t := by funext i px py; simp only [tilePen, hv, hg]
  have hp : drawTilePixel s = drawTilePixel t := by
    funext e cx cy l p
    simp only [drawTilePixel, hpen, hv, hf]
  have : drawTile s = drawTile t := by
    funext l c
    simp only [drawTile, ht, hp, hv]
  simp only [renderedLayer, this, hv]

/-- SREND depends on the variant, FLIP, SPRFLIP, SPRRAM and the sprite asset. -/
theorem renderedSprites_congr {s t : State} (hv : s.variant = t.variant) (hf : s.flip = t.flip)
    (hsf : s.sprflip = t.sprflip) (hm : s.sprram = t.sprram) (hg : s.gfxSpr = t.gfxSpr) :
    renderedSprites s = renderedSprites t := by
  have hw := wordAt_congr (s := s) (t := t) (r := .sprram) hm
  have hr : spriteRow s = spriteRow t := by funext sl i; simp only [spriteRow, hw, hv, hsf]
  have hpen : spritePen s = spritePen t := by funext i px py; simp only [spritePen, hg]
  have hp : drawCellPixel s = drawCellPixel t := by
    funext r x y fb p
    simp only [drawCellPixel, hpen, hv]
  have hd : drawRow s = drawRow t := by
    funext sl pos fb i
    simp only [drawRow, drawCell, hr, hp, hv, hf]
  have : drawSlot s = drawSlot t := by
    funext fb sl
    simp only [drawSlot, hd, hw, hv, hf]
  simp only [renderedSprites, this, hv]

/-- COMP depends on the variant, LAYER and FB. -/
theorem compositeLayers_congr {s t : State} (hv : s.variant = t.variant) (hl : s.layer = t.layer) (hf : s.fb = t.fb) :
    (compositeLayers s).fb = (compositeLayers t).fb := by
  have ha : layerAt s = layerAt t := by funext x y; simp only [layerAt, hv, hl]
  have : compositePixel s = compositePixel t := by
    funext fb p
    simp only [compositePixel, ha, hv]
  simp only [compositeLayers, this, hv, hf]

/-- The pixel output depends on the variant, FB and PALRGB. -/
theorem framePixels_congr {s t : State} (hv : s.variant = t.variant) (hf : s.fb = t.fb) (hr : s.palrgb = t.palrgb) :
    framePixels s = framePixels t := by
  have hp : pixelAt s = pixelAt t := by funext x y; simp only [pixelAt, hv, hf]
  have hg : rgbAt s = rgbAt t := by funext i; simp only [rgbAt, hr]
  simp only [framePixels, hp, hg, hv]

@[simp] theorem compositeLayers_fb_size (s : State) : (compositeLayers s).fb.size = s.fb.size := by
  rw [compositeLayers_putAll]; simp

@[simp] theorem renderedLayer_size (s : State) : (renderedLayer s).size = s.variant.fbW * s.variant.fbH := by
  rw [renderedLayer_eq]; simp

@[simp] theorem renderedSprites_size (s : State) : (renderedSprites s).size = s.variant.fbW * s.variant.fbH := by
  rw [renderedSprites_eq]; simp

/-! The whole frame. -/

/-- The frame of a state: the sprites with the tile layer on top (42_frame_compositor.md R205, R213). -/
def finishedFb (s : State) : Array Nat :=
  (compositeLayers { s with layer := renderedLayer (updateTiles s), fb := renderedSprites s }).fb

@[simp] theorem finishedFb_size (s : State) : (finishedFb s).size = s.variant.fbW * s.variant.fbH := by
  rw [finishedFb, compositeLayers_fb_size]; simp

/-- FRAME, all at once: each table from the state before the frame, then the event (42_frame_compositor.md R192). -/
def framed (s : State) : State :=
  { s with
    tcache := (refreshedTables s).1
    dirty := (refreshedTables s).2
    visb := visibility s
    visbPrev := visibility s
    palchg := paletteChanged (visibility s) s.visbPrev
    layer := renderedLayer (updateTiles s)
    fb := finishedFb s
    phase := .idle
    frameValid := true }

theorem runFrame_framed (s : State) : runFrame s = emitEvent (framed s) (.frame (framePixels (framed s))) := by
  unfold runFrame
  dsimp only
  generalize h0 : startFrame s = s0
  have hr : refreshedTables s0 = refreshedTables s := by subst h0; exact refreshedTables_congr rfl rfl rfl rfl
  generalize h1 : setPhase (updateTiles s0) .rebuildingUsage = s1
  have e1 : s1 = { s with tcache := (refreshedTables s).1, dirty := (refreshedTables s).2, frameValid := false,
                          phase := .rebuildingUsage } := by
    subst h1; rw [updateTiles, hr]; subst h0; rfl
  have hvis : visibility s1 = visibility s := by rw [e1]; exact visibility_congr rfl rfl rfl rfl
  generalize h2 : setPhase (rebuildVisibility s1) .applyingChange = s2
  have e2 : s2 = { s with tcache := (refreshedTables s).1, dirty := (refreshedTables s).2, frameValid := false,
                          visb := visibility s, phase := .applyingChange } := by
    subst h2; rw [rebuildVisibility, hvis, e1]; rfl
  generalize h3 : setPhase (applyPaletteChange s2) .renderingTiles = s3
  have e3 : s3 = { s with tcache := (refreshedTables s).1, dirty := (refreshedTables s).2, frameValid := false,
                          visb := visibility s, visbPrev := visibility s,
                          palchg := paletteChanged (visibility s) s.visbPrev, phase := .renderingTiles } := by
    subst h3; rw [e2]; rfl
  have hl : renderedLayer s3 = renderedLayer (updateTiles s) := by rw [e3]; exact renderedLayer_congr rfl rfl rfl rfl
  generalize h4 : setPhase (renderTiles s3) .drawingSprites = s4
  have e4 : s4 = { s with tcache := (refreshedTables s).1, dirty := (refreshedTables s).2, frameValid := false,
                          visb := visibility s, visbPrev := visibility s,
                          palchg := paletteChanged (visibility s) s.visbPrev,
                          layer := renderedLayer (updateTiles s), phase := .drawingSprites } := by
    subst h4; rw [renderTiles, hl, e3]; rfl
  have hs : renderedSprites s4 = renderedSprites s := by rw [e4]; exact renderedSprites_congr rfl rfl rfl rfl rfl
  generalize h5 : setPhase (renderSprites s4) .compositing = s5
  have e5 : s5 = { s with tcache := (refreshedTables s).1, dirty := (refreshedTables s).2, frameValid := false,
                          visb := visibility s, visbPrev := visibility s,
                          palchg := paletteChanged (visibility s) s.visbPrev,
                          layer := renderedLayer (updateTiles s), fb := renderedSprites s, phase := .compositing } := by
    subst h5; rw [renderSprites, hs, e4]; rfl
  have hf : (compositeLayers s5).fb = finishedFb s := by rw [e5]; exact compositeLayers_congr rfl rfl rfl
  have e6 : compositeLayers s5 = { s5 with fb := finishedFb s } := by rw [← hf]; rfl
  have e7 : framePixels (compositeLayers s5) = framePixels (framed s) := by
    rw [e6, e5]; exact framePixels_congr rfl rfl rfl
  rw [finishFrame, e7, e6, e5]
  rfl

end Sys2Proof.Machine
end

