-- ==== Sys2Proof/Laws/PerInstr.lean ====
section
/-! SUPPORT. Statements about every instruction, one lemma per constructor. -/

namespace Sys2Proof.Laws

/-- The operation word or micro code an operation resolves to is in exactly one row of the opcode table, the one that
builds it back. -/
def SelectsRow.Statement (i : Instr) : Prop :=
  (∃ r ∈ opRows, ∃ w a d, resolvedWord i &&& r.mask = r.pattern ∧ r.build w a d = i ∧
      ∀ q ∈ opRows, resolvedWord i &&& q.mask = q.pattern → q.pattern = r.pattern) ∨
    ((resolvedWord i).setWidth 4, i) ∈ microRows

theorem SelectsRow.rdOpen (w : Width) (a : Addr) : SelectsRow.Statement (.rdOpen w a) := by
  refine .inl ⟨_, List.mem_of_getElem? (i := 0) rfl, w, a, 0, ?_, rfl, ?_⟩ <;> cases w <;> simp only [resolvedWord] <;> decide

theorem SelectsRow.rdRom (w : Width) (a : Addr) : SelectsRow.Statement (.rdRom w a) := by
  refine .inl ⟨_, List.mem_of_getElem? (i := 1) rfl, w, a, 0, ?_, rfl, ?_⟩ <;> cases w <;> simp only [resolvedWord] <;> decide

theorem SelectsRow.rdRam (w : Width) (a : Addr) : SelectsRow.Statement (.rdRam w a) := by
  refine .inl ⟨_, List.mem_of_getElem? (i := 2) rfl, w, a, 0, ?_, rfl, ?_⟩ <;> cases w <;> simp only [resolvedWord] <;> decide

theorem SelectsRow.rdBankrom (w : Width) (a : Addr) : SelectsRow.Statement (.rdBankrom w a) := by
  refine .inl ⟨_, List.mem_of_getElem? (i := 3) rfl, w, a, 0, ?_, rfl, ?_⟩ <;> cases w <;> simp only [resolvedWord] <;> decide

theorem SelectsRow.rdVideo (w : Width) (a : Addr) : SelectsRow.Statement (.rdVideo w a) := by
  refine .inl ⟨_, List.mem_of_getElem? (i := 4) rfl, w, a, 0, ?_, rfl, ?_⟩ <;> cases w <;> simp only [resolvedWord] <;> decide

theorem SelectsRow.rdSprite (w : Width) (a : Addr) : SelectsRow.Statement (.rdSprite w a) := by
  refine .inl ⟨_, List.mem_of_getElem? (i := 5) rfl, w, a, 0, ?_, rfl, ?_⟩ <;> cases w <;> simp only [resolvedWord] <;> decide

theorem SelectsRow.rdPalette (w : Width) (a : Addr) : SelectsRow.Statement (.rdPalette w a) := by
  refine .inl ⟨_, List.mem_of_getElem? (i := 6) rfl, w, a, 0, ?_, rfl, ?_⟩ <;> cases w <;> simp only [resolvedWord] <;> decide

theorem SelectsRow.rdCtrl (w : Width) (a : Addr) : SelectsRow.Statement (.rdCtrl w a) := by
  refine .inl ⟨_, List.mem_of_getElem? (i := 7) rfl, w, a, 0, ?_, rfl, ?_⟩ <;> cases w <;> simp only [resolvedWord] <;> decide

theorem SelectsRow.rdDip (w : Width) (a : Addr) : SelectsRow.Statement (.rdDip w a) := by
  refine .inl ⟨_, List.mem_of_getElem? (i := 8) rfl, w, a, 0, ?_, rfl, ?_⟩ <;> cases w <;> simp only [resolvedWord] <;> decide

theorem SelectsRow.rdSndbusy (w : Width) (a : Addr) : SelectsRow.Statement (.rdSndbusy w a) := by
  refine .inl ⟨_, List.mem_of_getElem? (i := 9) rfl, w, a, 0, ?_, rfl, ?_⟩ <;> cases w <;> simp only [resolvedWord] <;> decide

theorem SelectsRow.rdRot (w : Width) (a : Addr) : SelectsRow.Statement (.rdRot w a) := by
  refine .inl ⟨_, List.mem_of_getElem? (i := 10) rfl, w, a, 0, ?_, rfl, ?_⟩ <;> cases w <;> simp only [resolvedWord] <;> decide

theorem SelectsRow.rdRotlo (w : Width) (a : Addr) : SelectsRow.Statement (.rdRotlo w a) := by
  refine .inl ⟨_, List.mem_of_getElem? (i := 11) rfl, w, a, 0, ?_, rfl, ?_⟩ <;> cases w <;> simp only [resolvedWord] <;> decide

theorem SelectsRow.rdProtr (w : Width) (a : Addr) : SelectsRow.Statement (.rdProtr w a) := by
  refine .inl ⟨_, List.mem_of_getElem? (i := 12) rfl, w, a, 0, ?_, rfl, ?_⟩ <;> cases w <;> simp only [resolvedWord] <;> decide

theorem SelectsRow.wrOpen (w : Width) (a : Addr) (v : Long) : SelectsRow.Statement (.wrOpen w a v) := by
  refine .inl ⟨_, List.mem_of_getElem? (i := 13) rfl, w, a, v, ?_, rfl, ?_⟩ <;> cases w <;> simp only [resolvedWord] <;> decide

theorem SelectsRow.wrRom (w : Width) (a : Addr) (v : Long) : SelectsRow.Statement (.wrRom w a v) := by
  refine .inl ⟨_, List.mem_of_getElem? (i := 14) rfl, w, a, v, ?_, rfl, ?_⟩ <;> cases w <;> simp only [resolvedWord] <;> decide

theorem SelectsRow.wrRam (w : Width) (a : Addr) (v : Long) : SelectsRow.Statement (.wrRam w a v) := by
  refine .inl ⟨_, List.mem_of_getElem? (i := 15) rfl, w, a, v, ?_, rfl, ?_⟩ <;> cases w <;> simp only [resolvedWord] <;> decide

theorem SelectsRow.wrBankrom (w : Width) (a : Addr) (v : Long) : SelectsRow.Statement (.wrBankrom w a v) := by
  refine .inl ⟨_, List.mem_of_getElem? (i := 16) rfl, w, a, v, ?_, rfl, ?_⟩ <;> cases w <;> simp only [resolvedWord] <;> decide

theorem SelectsRow.wrVideo (w : Width) (a : Addr) (v : Long) : SelectsRow.Statement (.wrVideo w a v) := by
  refine .inl ⟨_, List.mem_of_getElem? (i := 17) rfl, w, a, v, ?_, rfl, ?_⟩ <;> cases w <;> simp only [resolvedWord] <;> decide

theorem SelectsRow.wrSprite (w : Width) (a : Addr) (v : Long) : SelectsRow.Statement (.wrSprite w a v) := by
  refine .inl ⟨_, List.mem_of_getElem? (i := 18) rfl, w, a, v, ?_, rfl, ?_⟩ <;> cases w <;> simp only [resolvedWord] <;> decide

theorem SelectsRow.wrPalette (w : Width) (a : Addr) (v : Long) : SelectsRow.Statement (.wrPalette w a v) := by
  refine .inl ⟨_, List.mem_of_getElem? (i := 19) rfl, w, a, v, ?_, rfl, ?_⟩ <;> cases w <;> simp only [resolvedWord] <;> decide

theorem SelectsRow.wrSndkick (w : Width) (a : Addr) (v : Long) : SelectsRow.Statement (.wrSndkick w a v) := by
  refine .inl ⟨_, List.mem_of_getElem? (i := 20) rfl, w, a, v, ?_, rfl, ?_⟩ <;> cases w <;> simp only [resolvedWord] <;> decide

theorem SelectsRow.wrFlip (w : Width) (a : Addr) (v : Long) : SelectsRow.Statement (.wrFlip w a v) := by
  refine .inl ⟨_, List.mem_of_getElem? (i := 21) rfl, w, a, v, ?_, rfl, ?_⟩ <;> cases w <;> simp only [resolvedWord] <;> decide

theorem SelectsRow.wrProtw (w : Width) (a : Addr) (v : Long) : SelectsRow.Statement (.wrProtw w a v) := by
  refine .inl ⟨_, List.mem_of_getElem? (i := 22) rfl, w, a, v, ?_, rfl, ?_⟩ <;> cases w <;> simp only [resolvedWord] <;> decide

theorem SelectsRow.frame : SelectsRow.Statement .frame := by
  refine .inl ⟨_, List.mem_of_getElem? (i := 23) rfl, .w8, 0, 0, ?_, rfl, ?_⟩ <;> decide

theorem SelectsRow.reset : SelectsRow.Statement .reset := by
  refine .inl ⟨_, List.mem_of_getElem? (i := 24) rfl, .w8, 0, 0, ?_, rfl, ?_⟩ <;> decide

theorem SelectsRow.tcupd : SelectsRow.Statement .tcupd := .inr (by decide)

theorem SelectsRow.pvis : SelectsRow.Statement .pvis := .inr (by decide)

theorem SelectsRow.pchg : SelectsRow.Statement .pchg := .inr (by decide)

theorem SelectsRow.trend : SelectsRow.Statement .trend := .inr (by decide)

theorem SelectsRow.srend : SelectsRow.Statement .srend := .inr (by decide)

theorem SelectsRow.comp : SelectsRow.Statement .comp := .inr (by decide)

end Sys2Proof.Laws
end

