-- ==== Sys2Proof/Machine/Commands.lean ====
section
/-! DEFINITION. The command notation of the spec as data: a command or directive (spec/30_encoding.md R119), a
pseudo-command (R120), and what each puts before the block. The spelling of numbers and comments is left out. -/

namespace Sys2Proof.Machine

/-- A line of a program (30_encoding.md R119, R120). -/
inductive ProgramLine where
  /-- R8, R16, R32. -/
  | readAt (w : Width) (addr : Addr)
  /-- W8, W16, W32; a value wider than w gives a reserved word (R93, R100). -/
  | writeAt (w : Width) (addr : Addr) (value : Long)
  | frame
  | reset
  /-- IN n = value. -/
  | inPort (n : Nat) (value : Byte)
  /-- SNDSTAT = value. -/
  | sndStat (value : Word)
  /-- CELL c, T, A. -/
  | cell (c : Nat) (t a : Word)
  /-- PAL i, v. -/
  | pal (i : Nat) (v : Word)
  /-- SPRPOS b,h,s,X,Y. -/
  | sprPos (sl : Slot) (x y : Word)
  /-- SPRROW b,h,s,i,C,T. -/
  | sprRow (sl : Slot) (i : Nat) (c t : Word)
  deriving DecidableEq, Repr

/-- The bus address at which WMAP places offset 0 of the region of a kind: VB, SB, PB of 30_encoding.md R120 (an entry
places offset e.base at its start, 20_memory.md R68). None where no entry does. -/
def windowBase (v : Variant) (k : Kind) : Option Addr :=
  (v.wmap.find? fun e => e.kind == kindCode k && e.base == 0).map MapEntry.start

/-- The word of a 16-bit WRITE. -/
def write16 (a : Addr) (x : Word) : BitVec 64 := twOf 1 (selOfWidth .w16) a (x.setWidth 32)

/-- Two 16-bit WRITEs of neighbouring words, at a byte offset from a window's base. -/
def writePair (window : Option Addr) (off : Nat) (x y : Word) : Option (List Input) :=
  window.map fun b =>
    [.command (write16 (b + BitVec.ofNat 24 off) x), .command (write16 (b + BitVec.ofNat 24 (off + 2)) y)]

/-- What a line puts before the block: one command or host action, or the expansion of 30_encoding.md R120; none where
WMAP has no window for a pseudo-command's region. -/
def expandLine (v : Variant) : ProgramLine → Option (List Input)
  | .readAt w a => some [.command (twOf 0 (selOfWidth w) a 0)]
  | .writeAt w a x => some [.command (twOf 1 (selOfWidth w) a x)]
  | .frame => some [.command (twOf 2 0 0 0)]
  | .reset => some [.command (twOf 2 0 0 1)]
  | .inPort n x => some [.setPort n x]
  | .sndStat x => some [.setSndStat x]
  | .cell c t a => writePair (windowBase v .video) (4 * c) t a
  | .pal i x => (windowBase v .palette).map fun b => [.command (write16 (b + BitVec.ofNat 24 (2 * i)) x)]
  | .sprPos sl x y => writePair (windowBase v .sprite) (slotBase sl) x y
  | .sprRow sl i c t => writePair (windowBase v .sprite) (slotBase sl + 4 + 4 * i) c t

/-- A program placed in the state's inbox, behind what waits there (20_memory.md R77, log 7). -/
def loadProgram (s : State) : List ProgramLine → Option State
  | [] => some s
  | l :: rest =>
    match expandLine s.variant l with
    | none => none
    | some is => loadProgram { s with inbox := s.inbox ++ is } rest

end Sys2Proof.Machine
end

