-- ==== Sys2Proof/Tests/Slice0.lean ====
section
/-! SUPPORT. Small tests, one step each, with the expected values of the spec's own examples (named in the comments), and
a concrete witness for the hypotheses of every statement that has some. -/

namespace Sys2Proof.Machine

/-! The states the tests start from: "the state after CONFIG and RESET with every byte preset to 0x00 by the test"
(95_test_vectors.md, opening; 70_reset_and_hazards.md R273). -/

/-- A session with every byte, port and pen 0. -/
def board : State :=
  { State.reset with
    gfxTile := .filled 0, gfxSpr := .filled 0, penUse := .filled 1, rom := .filled 0, bankrom := .filled 0,
    wram := .filled 0, vram := .filled 0, sprram := .filled 0, palram := .filled 0, palrgb := .filled ⟨0, 0, 0⟩,
    tcache := .filled ⟨0, 0⟩, layer := #[], fb := #[], sndlatch := 0, ports := .filled 0, sndstat := 0 }

/-- A region preset to bytes from an offset on. -/
def preset (s : State) (r : Region) (off : Nat) : List Byte → State
  | [] => s
  | b :: rest => preset (setByteAt s r off b) r (off + 1) rest

/-- The input ports preset. -/
def withPorts (s : State) (l : List (Nat × Byte)) : State := { s with ports := { fill := .const 0, cells := l } }

/-- The state with one command waiting. -/
def issue (s : State) (tw : BitVec 64) : State := { s with inbox := [.command tw] }

/-- What is seen in the state after one step that performs one command; none where the step stops. -/
def seen {α : Type} (f : State → α) (s : State) (tw : BitVec 64) : Option α :=
  match step (issue s tw) with
  | .next t => some (f t)
  | .fault _ => none
  | .refused _ => none

/-- The word a command returns. -/
def reply (s : State) (tw : BitVec 64) : Option (Option Long) := seen State.rdata s tw

/-- Bytes of a region from an offset on. -/
def bytesAt (r : Region) (off n : Nat) (s : State) : List Byte := (List.range n).map fun i => byteAt s r (off + i)

/-- Does an operation answer a next state? -/
def completes : Result → Bool
  | .next _ => true
  | .fault _ => false
  | .refused _ => false

/-- A small variant for the compositor: two cells of 2 by 1 pixels side by side, one sprite bank, a frame of 4 by 2. -/
def tiny : Variant :=
  { refA with
    rmap := [], wmap := [], nCells := 2, cellPos := .columnMajor 1, tileW := 2, tileH := 1, nBanks := 1,
    bankOrder := [0], pvisBanks := [0], sprTileMax := 0x10, fbW := 4, fbH := 2, vis := ⟨0, 3, 0, 1⟩ }

/-- The small board: tile 5 all pen 1; sprite tile 0x10 all pen 2 in its first row and 0 below. -/
def small : State :=
  { board with
    variant := tiny, dirty := 3, layer := Array.replicate 8 none, fb := Array.replicate 8 2047,
    gfxTile := { fill := .const 0, cells := [(10, 1), (11, 1)] },
    gfxSpr := { fill := .const 0, cells := (List.range 16).map fun i => (0x1000 + i, 2) },
    penUse := { fill := .const 1, cells := [(0x10, 0x0005)] } }

/-! Decoding, from the words of V1 to V3, P1 and R96. -/

theorem test_decode_reads :
    decode refA 0x1050000000000000 = .ok (.rdOpen .w16 0x500000) ∧
    decode refA 0x1000010000000000 = .ok (.rdRom .w16 0x000100) ∧
    decode refA 0x2004000000000000 = .ok (.rdRam .w32 0x040000) ∧
    decode refA 0x1030001000000000 = .ok (.rdBankrom .w16 0x300010) ∧
    decode refA 0x1010000000000000 = .ok (.rdVideo .w16 0x100000) ∧
    decode refA 0x1020000400000000 = .ok (.rdSprite .w16 0x200004) ∧
    decode refA 0x0040000000000000 = .ok (.rdPalette .w8 0x400000) ∧
    decode refA 0x0008000000000000 = .ok (.rdCtrl .w8 0x080000) ∧
    decode refA 0x100F000000000000 = .ok (.rdDip .w16 0x0F0000) ∧
    decode refA 0x100E000000000000 = .ok (.rdSndbusy .w16 0x0E0000) ∧
    decode refA 0x100C000000000000 = .ok (.rdRot .w16 0x0C0000) ∧
    decode refA 0x100D000000000000 = .ok (.rdRotlo .w16 0x0D0000) ∧
    decode refA 0x000F800100000000 = .ok (.rdProtr .w8 0x0F8001) := by decide

theorem test_decode_writes :
    decode refA 0x5050000000001234 = .ok (.wrOpen .w16 0x500000 0x1234) ∧
    decode refA 0x500001000000FFFF = .ok (.wrRom .w16 0x000100 0xFFFF) ∧
    decode refA 0x40040001000000AA = .ok (.wrRam .w8 0x040001 0xAA) ∧
    decode refA 0x5030001000000001 = .ok (.wrBankrom .w16 0x300010 0x0001) ∧
    decode refA 0x501000000000FF34 = .ok (.wrVideo .w16 0x100000 0xFF34) ∧
    decode refA 0x5020000400000005 = .ok (.wrSprite .w16 0x200004 0x0005) ∧
    decode refA 0x50400062000003E0 = .ok (.wrPalette .w16 0x400062 0x03E0) ∧
    decode refA 0x5008000000004200 = .ok (.wrSndkick .w16 0x080000 0x4200) ∧
    decode refA 0x500C000000000008 = .ok (.wrFlip .w16 0x0C0000 0x0008) ∧
    decode refA 0x600F800000010007 = .ok (.wrProtw .w32 0x0F8000 0x00010007) := by decide

theorem test_decode_system : decode refA 0x8000000000000000 = .ok .frame ∧ decode refA 0x8000000000000001 = .ok .reset := by
  decide

-- 30_encoding.md R102: USEQ = PHASE :: sub.
theorem test_decode_micro :
    decodeMicro 0b0010 = .ok .tcupd ∧ decodeMicro 0b0100 = .ok .pvis ∧ decodeMicro 0b0101 = .ok .pchg ∧
    decodeMicro 0b0110 = .ok .trend ∧ decodeMicro 0b1000 = .ok .srend ∧ decodeMicro 0b1010 = .ok .comp ∧
    decodeMicro 0b0000 = .error .reservedMicroCode ∧ decodeMicro 0b0111 = .error .reservedMicroCode := by decide

-- V2.
theorem test_reserved_words_refused :
    decode refA 0xC000000000000000 = .error .reservedCommand ∧
    decode refA 0x3000000000000000 = .error .reservedWidth ∧
    decode refA 0x0100000000000000 = .error .reservedBits ∧
    decode refA 0x1010000000000001 = .error .readWithData ∧
    decode refA 0x4004000000000100 = .error .dataAboveWidth ∧
    decode refA 0x8000000000000002 = .error .reservedSubcode ∧
    decode refA 0x9000000000000000 = .error .systemOperands := by decide

theorem test_reserved_word_stops_the_step :
    step (issue board 0xC000000000000000) = .refused (.reservedWord .reservedCommand) := rfl

-- V3: the operation words of resolved operations.
theorem test_operation_words :
    resolvedWord (.rdRom .w16 0x000100) = 0x1001 ∧ resolvedWord (.wrProtw .w32 0x0F8000 7) = 0x6022 ∧
    resolvedWord (.rdOpen .w8 0x500000) = 0x0000 ∧ resolvedWord (.wrVideo .w16 0x100000 0) = 0x5004 ∧
    decodeTableWord 16 0x6022 = some (.wrProtw .w32 0 0) ∧ decodeTableWord 16 0x8001 = some .reset ∧
    decodeTableWord 16 0x0007 = none ∧ decodeTableWord 8 0xA = some .comp := by decide

/-! Well-formedness: an ill-formed operation for each check. -/

theorem test_wrong_read_kind_refused :
    [Instr.rdOpen .w8 0x000000, .rdRom .w8 0x040000, .rdRam .w8 0x000000, .rdBankrom .w8 0x000000, .rdVideo .w8 0x000000,
      .rdSprite .w8 0x000000, .rdPalette .w8 0x000000, .rdCtrl .w8 0x000000, .rdDip .w8 0x000000,
      .rdSndbusy .w8 0x000000, .rdRot .w8 0x000000, .rdRotlo .w8 0x000000, .rdProtr .w8 0x0F8002].all
      (fun i => !wellFormed refA i) = true := by decide

theorem test_wrong_write_kind_refused :
    [Instr.wrOpen .w8 0x000000 0, .wrRom .w8 0x040000 0, .wrRam .w8 0x000000 0, .wrBankrom .w8 0x000000 0,
      .wrVideo .w8 0x000000 0, .wrSprite .w8 0x000000 0, .wrPalette .w8 0x000000 0, .wrSndkick .w8 0x000000 0,
      .wrFlip .w8 0x000000 0, .wrProtw .w8 0x0F8004 0].all (fun i => !wellFormed refA i) = true := by decide

theorem test_wide_value_refused :
    wellFormed refA (.wrRam .w8 0x040000 0x100) = false ∧ wellFormed refA (.wrRam .w16 0x040000 0x10000) = false ∧
    wellFormed refA (.wrRam .w8 0x040000 0xFF) = true ∧ wellFormed refA (.wrRam .w32 0x040000 0xFFFFFFFF) = true := by
  decide

/-! Reads. -/

-- S1.
theorem test_open_read :
    reply board 0x0050000000000000 = some (some 0xFF) ∧ reply board 0x2050000000000000 = some (some 0xFFFFFFFF) := by decide

-- V11, and the last word of the entry (40_bus_reads.md R132).
theorem test_rom_read_ignores_bit_zero :
    reply (preset board .rom 0x100 [0x12, 0x34, 0x56, 0x78]) 0x2000010100000000 = some (some 0x12345678) := by decide
theorem test_rom_read_leaves_the_entry :
    reply (preset board .rom 0x3FFFE [0xAB, 0xCD]) 0x2003FFFE00000000 = some (some 0xABCDFFFF) := by decide

-- V10, V12.
theorem test_ram_read_low_byte : reply (preset board .wram 0x10 [0xBE, 0xEF]) 0x0004001100000000 = some (some 0xEF) := by
  decide
theorem test_ram_read_leaves_the_entry :
    reply (preset board .wram 0x3FFE [0xBE, 0xEF]) 0x20043FFE00000000 = some (some 0xBEEFFFFF) := by decide

-- 40_bus_reads.md R133.
theorem test_bankrom_read : reply (preset board .bankrom 0x10 [0xCA, 0xFE]) 0x1030001000000000 = some (some 0xCAFE) := by
  decide

-- V13, through the mirror.
theorem test_video_read_mirror : reply (preset board .vram 6 [0x00, 0x12]) 0x1010100600000000 = some (some 0x0012) := by
  decide

-- S5, and 40_bus_reads.md R137.
theorem test_sprite_read : reply (preset board .sprram 6 [0x81, 0x23]) 0x1020000600000000 = some (some 0x8123) := by decide
theorem test_palette_read : reply (preset board .palram 0 [0x7C, 0x1F]) 0x0040000000000000 = some (some 0x7C) := by decide

-- V20.
theorem test_ctrl_read :
    reply (withPorts board [(0, 0x7F), (1, 0xFE)]) 0x2008000000000000 = some (some 0xFE7FFFFF) ∧
    reply (withPorts board [(0, 0x7F), (1, 0xFE)]) 0x0008000100000000 = some (some 0x7F) := by decide
theorem test_dip_read :
    reply (withPorts board [(2, 0xA5)]) 0x100F000000000000 = some (some 0xA500) ∧
    reply (withPorts board [(2, 0xA5)]) 0x000F000100000000 = some (some 0x00) := by decide
theorem test_sndbusy_read : reply { board with sndstat := 0x0100 } 0x100E000000000000 = some (some 0x0100) := by decide
theorem test_protr_read :
    reply { withPorts board [(3, 0xA5)] with invert := 0xFF } 0x200F800000000000 = some (some 0x005AFFFF) ∧
    reply (withPorts board [(3, 0x3C)]) 0x100F800000000000 = some (some 0x003C) := by decide

-- V21.
theorem test_rot_read :
    reply (withPorts board [(4, 21)]) 0x100C000000000000 = some (some 0xFFFE) ∧
    reply (withPorts board [(4, 22)]) 0x100C000000000000 = some (some 0xFFFD) ∧
    reply (withPorts board [(4, 235)]) 0x100C000000000000 = some (some 0xF7FF) := by decide
theorem test_rotlo_read :
    reply (withPorts board [(4, 0x00), (5, 0x2B)]) 0x100D000000000000 = some (some 0xFFBE) ∧
    reply (withPorts board [(4, 0x80), (5, 0xFF)]) 0x100D000000000000 = some (some 0xFFFF) := by decide

/-! Writes. -/

-- S1, S2: nothing changes, and nothing is recorded.
theorem test_open_write : seen (fun t => (t.evt, t.rdata)) board 0x6050000012345678 = some ([], none) := by decide
theorem test_rom_write :
    seen (bytesAt .rom 0x100 2) (preset board .rom 0x100 [0x12, 0x34]) 0x500001000000FFFF = some [0x12, 0x34] := by decide
theorem test_bankrom_write : seen (bytesAt .bankrom 0x10 2) board 0x5030001000000001 = some [0, 0] := by decide

-- V10, and the dropped second word of 41_bus_writes.md R164.
theorem test_ram_write :
    seen (bytesAt .wram 0 4) (preset board .wram 0 [0x11, 0x22, 0x33, 0x44]) 0x40040001000000AA =
      some [0x11, 0xAA, 0x33, 0x44] := by decide
theorem test_ram_write_leaves_the_entry :
    seen (bytesAt .wram 0x3FFC 6) board 0x60043FFE11223344 = some [0, 0, 0x11, 0x22, 0, 0] := by decide

-- V30, first line; V12, the dropped cycle marks nothing.
theorem test_video_write_quirk :
    seen (fun t => (bytesAt .vram 0 4 t, t.dirty)) { preset board .vram 0 [1, 2, 3, 4] with dirty := 0 } 0x60100000FF12FF34 =
      some ([1, 0x12, 3, 0x34], 1) := by decide
theorem test_video_write_leaves_the_entry :
    seen (fun t => (bytesAt .vram 0xFFE 2 t, bytesAt .vram 0 2 t, bitAt t.dirty 1023, bitAt t.dirty 0))
      { preset board .vram 0 [0xFF, 0x12] with dirty := 0 } 0x60100FFE11112222 =
      some ([0x11, 0x11], [0xFF, 0x12], true, false) := by decide

-- V31, first and last line.
theorem test_sprite_write_byte :
    seen (bytesAt .sprram 0 2) (preset board .sprram 0 [0x11, 0x22]) 0x4020000000000000 = some [0xFF, 0x22] := by decide
theorem test_sprite_write_long :
    seen (bytesAt .sprram 0 8) (preset board .sprram 0 [0xFF, 0xAB, 0xCD, 0x44, 0x55, 0x07, 0x77, 0x88])
      0x60200002A1B2C3D4 = some [0xFF, 0xAB, 0xA1, 0xB2, 0xFF, 0xD4, 0x77, 0x88] := by decide

-- V32.
theorem test_palette_write_merges :
    seen (fun t => (bytesAt .palram 0 2 t, rgbAt t 0)) (preset board .palram 0 [0x00, 0x1F]) 0x404000000000007C =
      some ([0x7C, 0x1F], ⟨255, 0, 255⟩) := by decide
theorem test_palette_write_expands : seen (rgbAt · 0) board 0x5040000000001234 = some ⟨165, 140, 33⟩ := by decide

-- S13, V33.
theorem test_sndkick_write :
    seen (fun t => (t.sndlatch, t.evt)) board 0x5008000000004200 = some (0x42, [.nmiSound 0x42]) ∧
    seen (fun t => (t.sndlatch, t.evt)) board 0x6008000012345678 = some (0x56, [.nmiSound 0x56]) := by decide
theorem test_flip_write :
    seen (fun t => (t.flip, t.sprflip)) board 0x500C000000000008 = some (true, false) ∧
    seen (fun t => (t.flip, t.sprflip)) board 0x400C00010000000C = some (true, true) := by decide

-- S6, V33.
theorem test_protw_write :
    seen State.invert board 0x500F80000000AB07 = some 0xFF ∧
    seen State.invert { board with invert := 0xFF } 0x500F800200000000 = some 0x00 := by decide
theorem test_protw_guard :
    seen State.invert { board with invert := 0xFF } 0x600F800000010006 = some 0xFF ∧
    seen State.invert board 0x600F800000010007 = some 0x00 := by decide

/-! The system commands. -/

-- 42_frame_compositor.md R191, example.
theorem test_reset :
    seen (fun t => (t.flip, t.sprflip, t.invert, bitAt t.dirty 1023, t.evt))
      { board with flip := true, sprflip := true, invert := 0xFF, dirty := 0, evt := [.nmiSound 1] } 0x8000000000000001 =
      some (false, false, 0x00, true, []) := by decide +kernel

-- 42_frame_compositor.md R192 to R215 by hand: cell 0 is tile 5, colour 3, so its two pixels are 0x31 above the sprite.
theorem test_frame :
    seen (fun t => (t.fb, t.dirty, t.frameValid, t.palchg, tileAt t 0))
      (preset small .vram 0 [0x00, 0x05, 0x00, 0x03]) 0x8000000000000000 =
      some (#[0x31, 0x31, 2047, 2047, 2047, 2047, 2047, 2047], 0, true, true, ⟨5, 3⟩) := by decide +kernel

/-! The micro-operations, on the sequencer (42_frame_compositor.md R193, R194, R196, R200, R205, R213 by hand). -/

/-- What is seen after a sequencer step at a phase. -/
def seenAt {α : Type} (f : State → α) (s : State) (p : Phase) : Option α :=
  match step { s with phase := p } with
  | .next t => some (f t)
  | .fault _ => none
  | .refused _ => none

-- S9, S10.
theorem test_tcupd :
    seenAt (fun t => (tileAt t 0, t.dirty, t.phase)) (preset small .vram 0 [0x00, 0x05, 0x00, 0x03]) .updatingTiles =
      some (⟨5, 3⟩, 0, .rebuildingUsage) := by decide
theorem test_tile_decode_c :
    decodeCell .c 0x1234 0x80FF = ⟨0x2CA, 7⟩ ∧ decodeCell .c 0 0x80FE = ⟨0x0FE, 8⟩ ∧
    decodeCell .b 0 0x80FF = ⟨0x0FF, 8⟩ ∧ decodeCell .a 0xAB34 0xCDEF = ⟨0xE34, 15⟩ := by decide

-- Row 0 of slot 0: colour 5, tile 0x10, pens 0 and 2 used.
theorem test_pvis :
    seenAt (fun t => (bitAt t.visb 0x50, bitAt t.visb 0x51, bitAt t.visb 0x52, bitAt t.visb 2047))
      (preset small .sprram 4 [0xFF, 0x05, 0x00, 0x10]) .rebuildingUsage = some (true, false, true, true) := by
  decide +kernel
theorem test_pchg :
    seenAt (fun t => (t.palchg, t.visbPrev)) { small with visb := 6, visbPrev := 2 } .applyingChange = some (true, 6) ∧
    seenAt State.palchg { small with visb := 6, visbPrev := 6 } .applyingChange = some false := by decide
theorem test_trend :
    seenAt State.layer { small with tcache := { fill := .const ⟨0, 0⟩, cells := [(0, ⟨5, 3⟩)] } } .renderingTiles =
      some #[some 0x31, some 0x31, none, none, none, none, none, none] := by decide +kernel
theorem test_trend_flipped :
    seenAt State.layer { small with flip := true, tcache := { fill := .const ⟨0, 0⟩, cells := [(0, ⟨5, 3⟩)] } }
      .renderingTiles = some #[none, none, none, none, none, none, some 0x31, some 0x31] := by decide +kernel

-- X word 0xFF00 and Y word 0x0000 put slot 0 at (0, 0); its first row is pen 2, the rows below pen 0, transparent.
theorem test_srend :
    seenAt State.fb (preset small .sprram 0 [0xFF, 0x00, 0x00, 0x00, 0xFF, 0x05, 0x00, 0x10]) .drawingSprites =
      some #[0x52, 0x52, 0x52, 0x52, 2047, 2047, 2047, 2047] := by decide +kernel

-- V41.
theorem test_sprite_positions :
    spritePos refA false 0xFF1F 0x81F0 = (-8, 16) ∧ spritePos refA false 0xFF10 0x0100 = (-256, 256) ∧
    spritePos refA true 0xFF01 0x01F0 = (224, 224) := by decide
theorem test_comp :
    seenAt (fun t => (t.fb, t.phase, t.frameValid))
      { small with layer := #[some 0x31, none, none, none, none, none, none, none] } .compositing =
      some (#[0x31, 2047, 2047, 2047, 2047, 2047, 2047, 2047], .idle, true) := by decide +kernel

/-! CONFIG, from V50; entries are counted from 0 here. -/

/-- A map with one entry replaced. -/
def replaced (m : List MapEntry) (i : Nat) (e : MapEntry) : List MapEntry := m.set i e

theorem test_config_overlap :
    configCheck { refA with rmap := replaced refRmap 1 (mapEntry 0x03FFFE 0x043FFF .ram 0 0) } =
      some ⟨.overlap, .entries .read 0 1⟩ ∧
    configCheck { refA with wmap := replaced refWmap 4 (mapEntry 0x0F8000 0x100001 .protw 0 0) } =
      some ⟨.overlap, .entries .write 4 5⟩ := by decide +kernel
theorem test_config_range :
    configCheck { refA with rmap := replaced refRmap 2 (mapEntry 0x080001 0x080002 .ctrl 0 0) } =
      some ⟨.range, .entry .read 2⟩ := by decide +kernel
theorem test_config_kind :
    configCheck { refA with rmap := refRmap ++ [mapEntry 0x600000 0x600001 .sndkick 0 0] } =
      some ⟨.kind, .entry .read 14⟩ := by decide +kernel
theorem test_config_backing :
    configCheck { refA with rmap := (replaced refRmap 9 (mapEntry 0x100000 0x101FFF .video 0 0)).eraseIdx 10 } =
      some ⟨.backing, .entry .read 9⟩ := by decide +kernel
theorem test_config_port :
    configCheck { refA with rmap := replaced refRmap 2 (mapEntry 0x080000 0x080001 .ctrl 7 0) } =
      some ⟨.port, .entry .read 2⟩ := by decide +kernel
theorem test_config_banks : configCheck { refA with bankOrder := [1, 1, 2] } = some ⟨.banks, .bankOrder⟩ := by
  decide +kernel
-- R112 and D21 for a layout the spec does not write out: its R field at bits 15:11, or not marked.
theorem test_free_palette_layout :
    palFields { refA with palFields := .other 3 0xF800 } 0 = ⟨0, 0, 0⟩ ∧
      (palFields { refA with palFields := .other 3 0xF800 } 0xF801).r = 0x1F ∧
      (palFields { refA with palFields := .other 3 0 } 0xFFFF).r = 0x1F := ⟨rfl, rfl, rfl⟩
theorem test_config_empty_maps : configCheck { refA with rmap := [], wmap := [] } = none := by decide +kernel

/-! How a program comes to run: every table row's operation runs at the first step from State.reset with it placed. -/

theorem test_fetch_word_commands :
    [0x0000, 0x0001, 0x0002, 0x0003, 0x0004, 0x0005, 0x0006, 0x0010, 0x0011, 0x0012, 0x0013, 0x0014, 0x0015, 0x4000,
      0x4001, 0x4002, 0x4003, 0x4004, 0x4005, 0x4006, 0x4020, 0x4021, 0x4022, 0x8000, 0x8001].all
      (fun w => completes (step (State.reset.withFetchWord 16 w))) = true := by decide
theorem test_fetch_word_micro :
    [2, 4, 5, 6, 8, 10].all (fun w => completes (step (State.reset.withFetchWord 8 w))) = true := by decide

/-! Witnesses: a concrete state and operands for the hypotheses of each statement. -/

theorem board_accepting : Accepting board := by decide
theorem board_configured : Configured board := by decide +kernel
theorem small_configured : Configured small := by decide +kernel
theorem small_planes : PlanesSized small := by decide

/-- One operation of every constructor, well formed under REF_A. -/
def everyOperation : List Instr :=
  [ .rdOpen .w16 0xFFFFFF, .rdRom .w8 0x03FFFF, .rdRam .w32 0x040000, .rdBankrom .w16 0x300010, .rdVideo .w8 0x101FFF,
    .rdSprite .w8 0x205FFF, .rdPalette .w8 0x400FFF, .rdCtrl .w8 0x080001, .rdDip .w16 0x0F0001, .rdSndbusy .w32 0x0E0000,
    .rdRot .w8 0x0C8000, .rdRotlo .w16 0x0D0000, .rdProtr .w8 0x0F8001, .wrOpen .w8 0xFFFFFF 0xFF,
    .wrRom .w16 0x000000 0xFFFF, .wrRam .w32 0x043FFE 0xFFFFFFFF, .wrBankrom .w8 0x33FFFF 0, .wrVideo .w8 0x101FFF 0xFF,
    .wrSprite .w8 0x200000 0, .wrPalette .w16 0x400FFE 0, .wrSndkick .w8 0x080001 0xFF, .wrFlip .w32 0x0C0000 0,
    .wrProtw .w8 0x0F8003 7, .frame, .reset, .tcupd, .pvis, .pchg, .trend, .srend, .comp ]

theorem witness_EncodeThenDecode : everyOperation.all (wellFormed refA) = true := by decide
theorem witness_DecodedWord :
    decodeEncoded refA (.tw 0x60043FFEFFFFFFFF) = .ok (.wrRam .w32 0x043FFE 0xFFFFFFFF) ∧
      decodeEncoded refA (.useq 0b1010) = .ok .comp := by decide
theorem witness_Configured : configCheck refA = none ∧ configCheck refB = none ∧ configCheck refC = none := by
  decide +kernel
theorem witness_StepRunsTheDecodedCommand :
    Accepting (issue board 0x8000000000000000) ∧
      (issue board 0x8000000000000000).inbox = .command 0x8000000000000000 :: [] ∧
      decode (issue board 0x8000000000000000).variant 0x8000000000000000 = .ok .frame := ⟨board_accepting, rfl, by decide⟩
theorem witness_StepRunsThePhase :
    ∀ p ∈ ([(.updatingTiles, .tcupd), (.rebuildingUsage, .pvis), (.applyingChange, .pchg), (.renderingTiles, .trend),
        (.drawingSprites, .srend), (.compositing, .comp)] : List (Phase × Instr)),
      { board with phase := p.1 }.cfgErr = false ∧ completes (exec p.2 { board with phase := p.1 }) = true := by decide
theorem witness_EveryWellFormedOperation :
    Accepting board ∧ everyOperation.all (wellFormed board.variant) = true := ⟨board_accepting, by decide⟩
theorem witness_HostActions :
    Accepting { board with inbox := [.setPort 7 0xFF] } ∧ (7 : Nat) < board.variant.nPorts ∧
      Accepting { board with inbox := [.setSndStat 0xFFFF] } := by decide

/-- The addresses at both sides of a gap of REF_RMAP, and the 32-bit one of 40_bus_reads.md R131. -/
theorem witness_OpenBusRead :
    Accepting board ∧ ∀ p ∈ ([(.w8, 0x044000), (.w16, 0x07FFFF), (.w32, 0x0FFFFE), (.w8, 0xFFFFFF)] : List (Width × Addr)),
      ∀ e ∈ board.variant.rmap, ¬ (e.start ≤ busAddr p.1 p.2 ∧ busAddr p.1 p.2 ≤ e.stop) := by decide
theorem witness_OpenBusWrite :
    Accepting board ∧ ∀ p ∈ ([(.w8, 0x044000), (.w16, 0x07FFFF), (.w32, 0x0FFFFE), (.w8, 0xFFFFFF)] : List (Width × Addr)),
      ∀ e ∈ board.variant.wmap, ¬ (e.start ≤ busAddr p.1 p.2 ∧ busAddr p.1 p.2 ≤ e.stop) := by decide

/-- The entry a read at an address finds, by its kind. -/
def readKindAt (s : State) (w : Width) (a : Addr) : Option (BitVec 8) := (lookup s.variant.rmap (busAddr w a)).map (·.kind)
/-- The entry a write at an address finds, by its kind. -/
def writeKindAt (s : State) (w : Width) (a : Addr) : Option (BitVec 8) := (lookup s.variant.wmap (busAddr w a)).map (·.kind)

/-- The first and the last address of an entry of each storage kind, at each width. -/
theorem witness_StorageReads :
    Accepting board ∧ Configured board ∧
      ∀ p ∈ ([(.rom, 0x000000, 0x03FFFF), (.ram, 0x040000, 0x043FFF), (.bankrom, 0x300000, 0x33FFFF),
          (.video, 0x101000, 0x101FFF), (.sprite, 0x200000, 0x205FFF), (.palette, 0x400000, 0x400FFF)] :
          List (Kind × Addr × Addr)), ∀ w ∈ [Width.w8, .w16, .w32],
        readKindAt board w p.2.1 = some (kindCode p.1) ∧ readKindAt board w p.2.2 = some (kindCode p.1) :=
  ⟨board_accepting, board_configured, by decide⟩
/-- A second cycle inside the entry, and one outside. -/
theorem witness_SecondCycle :
    (lookup board.variant.rmap 0x040000).map (insideEntry · (0x040000 + 2)) = some true ∧
      (lookup board.variant.rmap 0x043FFE).map (insideEntry · (0x043FFE + 2)) = some false := by decide
theorem witness_HandlerReads :
    Accepting board ∧ Configured board ∧
      ∀ p ∈ ([(.ctrl, 0x080000), (.dip, 0x0F0001), (.sndbusy, 0x0E0000), (.rot, 0x0C8001), (.rotlo, 0x0D0000),
          (.protr, 0x0F8001)] : List (Kind × Addr)), ∀ w ∈ [Width.w8, .w16, .w32],
        readKindAt board w p.2 = some (kindCode p.1) := ⟨board_accepting, board_configured, by decide⟩
theorem witness_StorageWrites :
    Accepting board ∧ Configured board ∧
      ∀ p ∈ ([(.rom, 0x000000, 0x03FFFF), (.ram, 0x040000, 0x043FFF), (.bankrom, 0x300000, 0x33FFFF),
          (.video, 0x101000, 0x101FFF), (.sprite, 0x200000, 0x205FFF), (.palette, 0x400000, 0x400FFF),
          (.sndkick, 0x080000, 0x080001), (.flip, 0x0C0000, 0x0C0001), (.protw, 0x0F8000, 0x0F8003)] :
          List (Kind × Addr × Addr)), ∀ w ∈ [Width.w8, .w16, .w32],
        writeKindAt board w p.2.1 = some (kindCode p.1) ∧ writeKindAt board w p.2.2 = some (kindCode p.1) :=
  ⟨board_accepting, board_configured, by decide⟩
/-- The second cycle of a 32-bit write inside the entry, and outside: RAM, video, sprite and palette. -/
theorem witness_SecondWriteCycle :
    (lookup board.variant.wmap 0x040000).map (insideEntry · (0x040000 + 2)) = some true ∧
      (lookup board.variant.wmap 0x043FFE).map (insideEntry · (0x043FFE + 2)) = some false ∧
      (lookup board.variant.wmap 0x100000).map (insideEntry · (0x100000 + 2)) = some true ∧
      (lookup board.variant.wmap 0x100FFE).map (insideEntry · (0x100FFE + 2)) = some false ∧
      (lookup board.variant.wmap 0x200000).map (insideEntry · (0x200000 + 2)) = some true ∧
      (lookup board.variant.wmap 0x205FFE).map (insideEntry · (0x205FFE + 2)) = some false ∧
      (lookup board.variant.wmap 0x400000).map (insideEntry · (0x400000 + 2)) = some true ∧
      (lookup board.variant.wmap 0x400FFE).map (insideEntry · (0x400FFE + 2)) = some false := by decide

/-- Every operation of the list completes on the board (the reads, writes and frames of the laws and the frames). -/
theorem witness_completes : everyOperation.all (fun i => completes (exec i board)) = true := by
  decide +kernel
theorem witness_CompositePutsTheTileLayerOnTop : Configured small ∧ PlanesSized small := ⟨small_configured, small_planes⟩
theorem witness_EveryDrawnSpriteIndexIsVisible :
    PenUseConsistent { board with variant := { refA with sprTileMax := 0 } } ∧
      (∀ b ∈ refA.bankOrder, b ∈ refA.pvisBanks) ∧
      completes (exec .pvis { board with variant := { refA with sprTileMax := 0 } }) = true ∧
      completes (exec .srend { board with variant := { refA with sprTileMax := 0 } }) = true := by
  refine ⟨fun t _ p hp => ?_, by decide, rfl, rfl⟩
  have h : ∀ p, p < 16 → ((1#16).getLsbD p = true ↔ (0#4).toNat = p) := by decide
  exact (h p hp).trans ⟨fun e => ⟨0, by decide, 0, by decide, e⟩, fun ⟨_, _, _, _, e⟩ => e⟩

/-- Two frames in a row, and a frame after a RESET, complete. -/
theorem witness_SecondFrame :
    ∃ t u, exec .frame board = .next t ∧ exec .frame t = .next u := ⟨_, _, rfl, rfl⟩
theorem witness_FirstFrameAfterReset :
    ∃ t u, exec .reset board = .next t ∧ exec .frame t = .next u := ⟨_, _, rfl, rfl⟩
theorem witness_SessionIsBuilt :
    configCheck refA = none ∧ configCheck { refA with tileCount := 0x1001 } = some ⟨.geometry, .tileCount⟩ := by
  decide +kernel
/-- Several checks fail at once: the lowest code is reported, and RMAP before WMAP. -/
theorem witness_ConfigReportsTheLowestCodeFirst :
    configCheck { refA with
        rmap := refRmap ++ [mapEntry 0x600000 0x600001 .sndkick 0 0], wmap := [mapEntry 0x000001 0x000002 .ctrl 0 0] } =
      some ⟨.range, .entry .write 0⟩ ∧
    configCheck { refA with
        rmap := refRmap ++ [mapEntry 0x600000 0x600001 .sndkick 0 0], wmap := [mapEntry 0x000000 0x000001 .ctrl 0 0] } =
      some ⟨.kind, .entry .read 14⟩ ∧
    configCheck { refA with sprPalBase := 1, tileCount := 0x1001 } = some ⟨.palette, .sprPalBase⟩ ∧
    configCheck { refA with pvisBanks := [0, 3], tileCount := 0x1001 } = some ⟨.banks, .pvisBanks⟩ := by decide +kernel
/-- The reference parameters, premises of the clauses about ROT_PLACE, ROTLO_PACK, PAL_FIELDS and SPR_POS, with a word
at the R field's upper boundary. -/
theorem witness_reference_parameters :
    refA.rotPlace = .reference ∧ refA.rotloPack = .reference ∧ refA.palFields = .fields555 ∧ refA.sprPos = .reference ∧
      (0x801F : Word) &&& redField refA.palFields = redField refA.palFields := by decide
/-- The base, the slots and the rows that the statement about SREND spells out. -/
theorem witness_SpriteLayer :
    (∀ sl : Slot, slotBase sl = sl.bank * 0x2000 + sl.half * 0x1000 + sl.index * 0x80) ∧
      (slotsOf refA.bankOrder).length = 192 ∧ (slotsOf refA.bankOrder)[33]? = some ⟨1, 1, 1⟩ ∧
      ∀ f r, flippedRow f r = { r with fx := if f then !r.fx else r.fx, fy := if f then !r.fy else r.fy } :=
  ⟨fun _ => rfl, rfl, rfl, fun f _ => by cases f <;> rfl⟩
theorem witness_CommandsAreRefused :
    { board with cfgErr := true }.cfgErr = true ∧ { board with phase := .compositing }.cfgErr = false ∧
      { board with phase := .compositing }.phase ≠ .idle := by decide
theorem witness_StorageCycles :
    ∀ e ∈ [mapEntry 0x040000 0x043FFF .ram 0 0], e ∈ refA.rmap ∧ storageRegion e.kind = some .wram ∧
      insideEntry e 0x043FFE = true := by decide

/-- The invariants hold together in the state after reset with a command waiting, and the step completes. -/
theorem witness_invariants :
    StoresCanonical (issue State.reset 0x5040000000001234) ∧ InvertLegal (issue State.reset 0x5040000000001234) ∧
      PlanesSized (issue State.reset 0x5040000000001234) ∧ Configured (issue State.reset 0x5040000000001234) ∧
      CleanCellsDecoded (issue State.reset 0x5040000000001234) ∧
      completes (step (issue State.reset 0x5040000000001234)) = true := by
  refine ⟨⟨fun r => by cases r <;> exact Store.drawn_wf _ _, Store.drawn_wf _ _, Store.drawn_wf _ _, Store.drawn_wf _ _⟩,
    .inl rfl, ⟨?_, ?_⟩, board_configured, fun c hc hb => ?_, by decide⟩
  · simp [issue, State.reset, layerDrawn]
  · simp [issue, State.reset, fbDrawn]
  · have h : bitAt (allOnes refA.nCells) c = false := hb
    have hc' : c < refA.nCells := hc
    simp at h
    omega
theorem witness_PaletteInSync :
    Configured (issue board 0x5040000000001234) ∧ EntryInSync 0 (issue board 0x5040000000001234) ∧
      seen State.draws board 0x5040000000001234 = some board.draws ∧
      writeKindAt board .w16 0x400000 = some (kindCode .palette) ∧
      completes (exec (.wrPalette .w16 0x400000 0x1234) board) = true :=
  ⟨board_configured, by decide, by decide, by decide, by decide⟩
theorem witness_StepsFromIdle :
    (issue board 0x8000000000000000).phase = .idle ∧ completes (step (issue board 0x8000000000000000)) = true := by decide

/-! The pseudo-commands of 30_encoding.md R120, with the transaction words that P1 to P3 give for them. -/

/-- Steps 1, 2, 9 and 10 of P3. -/
theorem test_sprite_pseudo_commands :
    expandLine refB (.sprPos ⟨0, 0, 0⟩ 0x0001 0x01F0) =
        some [.command 0x5020000000000001, .command 0x50200002000001F0] ∧
      expandLine refB (.sprRow ⟨1, 0, 0⟩ 1 0x0006 0x8010) =
        some [.command 0x5020200800000006, .command 0x5020200A00008010] := by decide
/-- Step 11 of P3 is the second half of its CELL; the first palette window is at 0x400000 (R120). -/
theorem test_cell_and_palette_pseudo_commands :
    expandLine refB (.cell 98 0x0000 0x2007) = some [.command 0x5010018800000000, .command 0x5010018A00002007] ∧
      expandLine refA (.pal 1 0x001F) = some [.command 0x504000020000001F] := by decide
/-- A program is issued in the order of its lines, the host's actions among them (20_memory.md R77). -/
theorem test_program_order :
    (loadProgram board [.inPort 2 0x55, .frame, .reset]).map State.inbox =
      some [.setPort 2 0x55, .command 0x8000000000000000, .command 0x8000000000000001] := by decide

end Sys2Proof.Machine
end

section
/-! The data formats of 30_encoding.md §3: the three tile decodes as equations of `decodeCell`, and channel expansion
as arithmetic. -/

namespace Sys2Proof.Machine

/-! Tile decode. -/

/-- Variant B reads both fields from the attribute word (30_encoding.md R105). -/
theorem decodeCell_b (t a : Word) : decodeCell .b t a = ⟨a.extractLsb' 0 12, a.extractLsb' 12 4⟩ := rfl

/-- The one attribute word that variant C substitutes (30_encoding.md R106). -/
theorem decodeCell_c_substitute (t : Word) : decodeCell .c t 0x80FF = ⟨0x2CA, 7⟩ := by
  rw [decodeCell, if_pos rfl]

/-- Off the substituted word, variant C is variant B (30_encoding.md R106). -/
theorem decodeCell_c_of_ne (t : Word) {a : Word} (ha : a ≠ 0x80FF) : decodeCell .c t a = decodeCell .b t a := by
  rw [decodeCell_b, decodeCell, if_neg ha]

/-- Settles O31. -/
theorem tileDecodeB : Obligations.TileDecodeB := decodeCell_b

/-- Settles O32, by the two branches of variant C. -/
theorem tileDecodeCSubstitutes : Obligations.TileDecodeCSubstitutes :=
  ⟨decodeCell_c_substitute, fun t _ ha => decodeCell_c_of_ne t ha⟩

/-! Channel expansion. -/

/-- The formula of 30_encoding.md R113 loses no bit: a 5-bit channel shifted up by three fits the 8-bit result. -/
theorem expand5to8_toNat (x : BitVec 5) : (expand5to8 x).toNat = (x.toNat <<< 3) ||| (x.toNat >>> 2) := by
  have hx : x.toNat < 32 := x.isLt
  have hchannel : x.toNat % 2 ^ 8 = x.toNat := Nat.mod_eq_of_lt (by omega)
  have hshift : x.toNat <<< 3 % 2 ^ 8 = x.toNat <<< 3 := Nat.mod_eq_of_lt (by rw [Nat.shiftLeft_eq]; omega)
  rw [expand5to8, BitVec.toNat_or, BitVec.toNat_shiftLeft, BitVec.toNat_ushiftRight, BitVec.toNat_setWidth, hchannel,
    hshift]

/-- The replicated top bits fill the three bits that the shift leaves free, so the join is a sum. -/
theorem expand5to8_toNat_eq_add (x : BitVec 5) : (expand5to8 x).toNat = 8 * x.toNat + x.toNat / 4 := by
  have hx : x.toNat < 32 := x.isLt
  have htop : x.toNat >>> 2 < 2 ^ 3 := by rw [Nat.shiftRight_eq_div_pow]; omega
  rw [expand5to8_toNat, ← Nat.shiftLeft_add_eq_or_of_lt htop, Nat.shiftLeft_eq, Nat.shiftRight_eq_div_pow]
  omega

/-- Strictly increasing: in the sum, the first part grows and the second does not shrink. -/
theorem expand5to8_lt_expand5to8 {x y : BitVec 5} (h : x < y) : expand5to8 x < expand5to8 y := by
  rw [BitVec.lt_def] at h ⊢
  rw [expand5to8_toNat_eq_add, expand5to8_toNat_eq_add]
  omega

/-- Settles O30. -/
theorem channelExpansionReplicatesTopBits : Obligations.ChannelExpansionReplicatesTopBits :=
  ⟨expand5to8_toNat, by decide, by decide, by decide, by decide, fun _ _ => expand5to8_lt_expand5to8, fun _ => rfl⟩

end Sys2Proof.Machine
end

section
/-! An address that no map entry holds (40_bus_reads.md R131): what the lookup answers there, and what a command of such an
address does. The read and the write map share these laws; the entry of 20_memory.md R67 is looked up once, so a second
word that an entry would hold plays no part. -/

namespace Sys2Proof.Machine

/-- The lookup fails exactly where no entry's range holds the address, both ends included (20_memory.md R67). -/
theorem lookup_eq_none_iff {m : List MapEntry} {a : Addr} :
    lookup m a = none ↔ ∀ e ∈ m, ¬ (e.start ≤ a ∧ a ≤ e.stop) := by
  simp [lookup, List.find?_eq_none]

/-- An address that no entry holds selects open bus, K = 0x00 (30_encoding.md R95). -/
theorem selectedKind_of_lookup_none {m : List MapEntry} {w : Width} {a : Addr} (h : lookup m (busAddr w a) = none) :
    selectedKind m w a = kindCode .openBus := by
  rw [selectedKind, h]

/-- An open-bus command at an address that no entry holds completes in an accepting session. -/
theorem openBusCommand_of {m : List MapEntry} {w : Width} {a : Addr} {s : State} (t : State)
    (hc : s.cfgErr = false) (hp : s.phase = .idle) (h : lookup m (busAddr w a) = none) :
    openBusCommand m w a s t = .next t := by
  rw [openBusCommand, accept_of hc hp, if_pos (selectedKind_of_lookup_none h)]

theorem exec_rdOpen (w : Width) (a : Addr) (s : State) :
    exec (.rdOpen w a) s =
      openBusCommand s.variant.rmap w a s (respond s (openBusValue s.variant.openBusByte w)) := rfl

/-- Settles O10: the lookup finds nothing, so the command completes with the sentinel as its only effect. -/
theorem openBusReadReturnsTheSentinel : Obligations.OpenBusReadReturnsTheSentinel := by
  intro s w a ⟨hc, hp⟩ hunmapped
  have hread : exec (.rdOpen w a) s = .next (respond s (openBusValue s.variant.openBusByte w)) := by
    rw [exec_rdOpen, openBusCommand_of _ hc hp (lookup_eq_none_iff.2 hunmapped)]
  rw [hread]
  cases w <;> rfl

end Sys2Proof.Machine
end

section
/-! The writes that are discarded: to an address that no entry holds (41_bus_writes.md R161), and to read-only storage
(41_bus_writes.md R162), where every cycle leaves the state as it is. Both complete with no reply as their only effect. -/

namespace Sys2Proof.Machine

theorem exec_wrOpen (w : Width) (a : Addr) (v : Long) (s : State) :
    exec (.wrOpen w a v) s = openBusCommand s.variant.wmap w a s (noReply s) := rfl

theorem exec_wrRom (w : Width) (a : Addr) (v : Long) (s : State) :
    exec (.wrRom w a v) s = writeEntry .rom (writeCycles writeCycleRom w a v) w a s := rfl

/-- A write whose cycles store nothing, to an entry of its kind k, completes with no reply as its only effect: none of
its cycles, inside the entry or dropped, changes the state. -/
theorem writeEntry_discarded_of {k : Kind} {w : Width} {a : Addr} (v : Long) {s : State} {e : MapEntry}
    (hc : s.cfgErr = false) (hp : s.phase = .idle) (he : selectEntry s.variant.wmap k w a = some e) :
    writeEntry k (writeCycles writeCycleRom w a v) w a s = .next (noReply s) := by
  rw [writeEntry_of _ hc hp he, writeCycles_rom]

/-- Settles O17: the lookup finds nothing, so the command completes as open bus. -/
theorem openBusWriteChangesNothing : Obligations.OpenBusWriteChangesNothing := by
  intro s w a v ⟨hc, hp⟩ hunmapped
  rw [exec_wrOpen, openBusCommand_of _ hc hp (lookup_eq_none_iff.2 hunmapped), noReply]

/-- Settles O18: the entry found is selected by its kind, and ROM's cycles store nothing. -/
theorem romWriteIsDiscarded : Obligations.RomWriteIsDiscarded := by
  intro s w a v e ⟨hc, hp⟩ hfound hkind
  have hselected : selectEntry s.variant.wmap .rom w a = some e := selectEntry_eq_some.2 ⟨hfound, hkind⟩
  rw [exec_wrRom, writeEntry_discarded_of v hc hp hselected, noReply]

end Sys2Proof.Machine
end

section
/-! The decoder and the encoder as inverses of each other (30_encoding.md §1, §2): a row of the opcode table names the
operations whose word it matches, so a word decodes exactly when its fields are in order and some row matches. -/

namespace Sys2Proof

open Sys2Proof.Machine

/-! The rows of the table. -/

/-- A command code and a kind code are read back from their operation word. -/
theorem opWord_inj {c c' sel sel' : BitVec 2} {k k' : BitVec 8} (h : opWord c sel k = opWord c' sel' k') : c = c' ∧ k = k' :=
  ⟨by simpa [opWord_cmd] using congrArg (BitVec.extractLsb' 14 2) h,
    by simpa [opWord_kind] using congrArg (BitVec.extractLsb' 0 8) h⟩

/-- A row of the reads of kind k: it masks the width away, and builds operations spelled by a READ (30_encoding.md R121). -/
def IsReadRow (r : OpRow) (k : Kind) : Prop :=
  r.mask = 0xCFFF ∧ r.pattern = opWord 0 0 (kindCode k) ∧
    ∀ (v : Variant) (w : Width) (a : Addr) (d : Long),
      encode (r.build w a d) = encodeRead w a ∧ wellFormed v (r.build w a d) = readSelects v k w a

/-- A row of the writes of kind k (30_encoding.md R121). -/
def IsWriteRow (r : OpRow) (k : Kind) : Prop :=
  r.mask = 0xCFFF ∧ r.pattern = opWord 1 0 (kindCode k) ∧
    ∀ (v : Variant) (w : Width) (a : Addr) (d : Long),
      encode (r.build w a d) = encodeWrite w a d ∧ wellFormed v (r.build w a d) = writeWellFormed v k w a d

/-- A row of the system command with a subcode: it masks nothing away (30_encoding.md R101). -/
def IsSystemRow (r : OpRow) (sub : BitVec 8) : Prop :=
  r.mask = 0xFFFF ∧ r.pattern = opWord 2 0 sub ∧
    ∀ (v : Variant) (w : Width) (a : Addr) (d : Long),
      encode (r.build w a d) = encodeSystem sub ∧ wellFormed v (r.build w a d) = true

theorem isReadRow_of_mem {r : OpRow} (hr : r ∈ readRows) : ∃ k, IsReadRow r k := by
  have hrows : List.Forall₂ IsReadRow readRows (.openBus :: readKinds) := by
    repeat' constructor
    all_goals exact fun _ _ _ _ => ⟨rfl, rfl⟩
  obtain ⟨i, hi, rfl⟩ := List.getElem_of_mem hr
  exact ⟨_, hrows.get hi (hrows.length_eq ▸ hi)⟩

theorem isWriteRow_of_mem {r : OpRow} (hr : r ∈ writeRows) : ∃ k, IsWriteRow r k := by
  have hrows : List.Forall₂ IsWriteRow writeRows (.openBus :: writeKinds) := by
    repeat' constructor
    all_goals exact fun _ _ _ _ => ⟨rfl, rfl⟩
  obtain ⟨i, hi, rfl⟩ := List.getElem_of_mem hr
  exact ⟨_, hrows.get hi (hrows.length_eq ▸ hi)⟩

theorem isSystemRow_of_mem {r : OpRow} (hr : r ∈ systemRows) : ∃ sub, IsSystemRow r sub := by
  have hrows : List.Forall₂ IsSystemRow systemRows [0, 1] := by
    repeat' constructor
    all_goals exact fun _ _ _ _ => ⟨rfl, rfl⟩
  obtain ⟨i, hi, rfl⟩ := List.getElem_of_mem hr
  exact ⟨_, hrows.get hi (hrows.length_eq ▸ hi)⟩

/-- The micro-sequence rows: each names the operation its own code spells (30_encoding.md R102). -/
theorem microRows_encode (v : Variant) : ∀ r ∈ microRows, encode r.2 = .useq r.1 ∧ wellFormed v r.2 = true := by
  simp [microRows, encode, wellFormed]

/-! What decodes. -/

/-- A micro-sequence code that decodes is that of a row. -/
theorem decodeMicro_ok {code : BitVec 4} {i : Instr} (h : decodeMicro code = .ok i) : (code, i) ∈ microRows := by
  unfold decodeMicro at h
  split at h
  · next r hr =>
    obtain rfl : r.1 = code := by simpa using List.find?_some hr
    obtain rfl : r.2 = i := by simpa using h
    exact List.mem_of_find?_eq_some hr
  · cases h

/-- A transaction word decodes exactly when its must-be-zero bits are 0, its width is one of the three, its operands fit
its command, and its operation word decodes (30_encoding.md R99, R100). -/
theorem decode_eq_ok_iff {v : Variant} {tw : BitVec 64} {i : Instr} :
    decode v tw = .ok i ↔ twZero tw = 0 ∧ ∃ w, widthOfSel (twSel tw) = some w ∧
      ((twCmd tw = 0 ∧ twData tw = 0 ∧
          decodeOpWord (opWord 0 (twSel tw) (selectedKind v.rmap w (twAddr tw))) (twAddr tw) 0 = .ok i) ∨
        (twCmd tw = 1 ∧ valueFits w (twData tw) = true ∧
          decodeOpWord (opWord 1 (twSel tw) (selectedKind v.wmap w (twAddr tw))) (twAddr tw) (twData tw) = .ok i) ∨
        (twCmd tw = 2 ∧ twSel tw = 0 ∧ twAddr tw = 0 ∧ (twData tw).extractLsb' 8 24 = 0 ∧
          decodeOpWord (opWord 2 0 ((twData tw).extractLsb' 0 8)) 0 0 = .ok i)) := by
  have hcmd : ∀ c : BitVec 2, c = 0 ∨ c = 1 ∨ c = 2 ∨ c = 3 := by decide
  unfold decode
  by_cases hz : twZero tw = 0#4
  · cases hw : widthOfSel (twSel tw) with
    | none => rcases hcmd (twCmd tw) with hc | hc | hc | hc <;> simp [hz, hc]
    | some w =>
      rcases hcmd (twCmd tw) with hc | hc | hc | hc
      · by_cases hd : twData tw = 0#32 <;> simp [hz, hc, hd]
      · by_cases hd : valueFits w (twData tw) = true <;> simp [hz, hc, hd]
      · by_cases hs : twSel tw = 0#2 <;> by_cases ha : twAddr tw = 0#24 <;>
          by_cases hd : (twData tw).extractLsb' 8 24 = 0#24 <;> simp [hz, hc, hs, ha, hd]
      · simp [hz, hc]
  · simp [hz]

/-! O1: every operation is found again. -/

theorem decode_of_readSelects {v : Variant} {k : Kind} {w : Width} {a : Addr} {i : Instr}
    (h : readSelects v k w a = true) (hrow : decodeOpWord (opWord 0 (selOfWidth w) (kindCode k)) a 0 = .ok i) :
    decodeEncoded v (encodeRead w a) = .ok i := by
  rw [decode_encodeRead, beq_iff_eq.1 h, hrow]

theorem decode_of_writeWellFormed {v : Variant} {k : Kind} {w : Width} {a : Addr} {x : Long} {i : Instr}
    (h : writeWellFormed v k w a x = true)
    (hrow : decodeOpWord (opWord 1 (selOfWidth w) (kindCode k)) a x = .ok i) :
    decodeEncoded v (encodeWrite w a x) = .ok i := by
  obtain ⟨hk, hfits⟩ : writeSelects v k w a = true ∧ valueFits w x = true := by simpa [writeWellFormed] using h
  rw [decode_encodeWrite v a hfits, beq_iff_eq.1 hk, hrow]

/-- Settles O1: the kind that the address of a well-formed operation selects is the one in the row that builds it. -/
theorem encodeThenDecodeGivesTheOperation : Obligations.EncodeThenDecodeGivesTheOperation := by
  intro v i h
  cases i with
  | rdOpen w a => exact decode_of_readSelects h (by cases w <;> rfl)
  | rdRom w a => exact decode_of_readSelects h (by cases w <;> rfl)
  | rdRam w a => exact decode_of_readSelects h (by cases w <;> rfl)
  | rdBankrom w a => exact decode_of_readSelects h (by cases w <;> rfl)
  | rdVideo w a => exact decode_of_readSelects h (by cases w <;> rfl)
  | rdSprite w a => exact decode_of_readSelects h (by cases w <;> rfl)
  | rdPalette w a => exact decode_of_readSelects h (by cases w <;> rfl)
  | rdCtrl w a => exact decode_of_readSelects h (by cases w <;> rfl)
  | rdDip w a => exact decode_of_readSelects h (by cases w <;> rfl)
  | rdSndbusy w a => exact decode_of_readSelects h (by cases w <;> rfl)
  | rdRot w a => exact decode_of_readSelects h (by cases w <;> rfl)
  | rdRotlo w a => exact decode_of_readSelects h (by cases w <;> rfl)
  | rdProtr w a => exact decode_of_readSelects h (by cases w <;> rfl)
  | wrOpen w a x => exact decode_of_writeWellFormed h (by cases w <;> rfl)
  | wrRom w a x => exact decode_of_writeWellFormed h (by cases w <;> rfl)
  | wrRam w a x => exact decode_of_writeWellFormed h (by cases w <;> rfl)
  | wrBankrom w a x => exact decode_of_writeWellFormed h (by cases w <;> rfl)
  | wrVideo w a x => exact decode_of_writeWellFormed h (by cases w <;> rfl)
  | wrSprite w a x => exact decode_of_writeWellFormed h (by cases w <;> rfl)
  | wrPalette w a x => exact decode_of_writeWellFormed h (by cases w <;> rfl)
  | wrSndkick w a x => exact decode_of_writeWellFormed h (by cases w <;> rfl)
  | wrFlip w a x => exact decode_of_writeWellFormed h (by cases w <;> rfl)
  | wrProtw w a x => exact decode_of_writeWellFormed h (by cases w <;> rfl)
  | frame => rfl
  | reset => rfl
  | tcupd => rfl
  | pvis => rfl
  | pchg => rfl
  | trend => rfl
  | srend => rfl
  | comp => rfl

/-! O2: no two words spell one operation. -/

/-- The operation word of a bus command or a system command decodes by a row of that command alone, with the width of the
word. -/
theorem decodeOpWord_opWord_ok {c sel : BitVec 2} {k : BitVec 8} {w : Width} {a : Addr} {d : Long} {i : Instr}
    (hw : widthOfSel sel = some w) (h : decodeOpWord (opWord c sel k) a d = .ok i) :
    ∃ r, i = r.build w a d ∧ ((∃ kd, IsReadRow r kd ∧ c = 0 ∧ k = kindCode kd) ∨
      (∃ kd, IsWriteRow r kd ∧ c = 1 ∧ k = kindCode kd) ∨ ∃ sub, IsSystemRow r sub ∧ c = 2 ∧ k = sub) := by
  obtain ⟨w', hw', r, hr, hmatch, rfl⟩ := decodeOpWord_ok h
  obtain rfl : w' = w := by rw [opWord_sel, hw] at hw'; exact (Option.some.inj hw').symm
  refine ⟨r, rfl, ?_⟩
  simp only [opRows, List.mem_append] at hr
  rcases hr with (hr | hr) | hr
  · obtain ⟨kd, hrow⟩ := isReadRow_of_mem hr
    rw [hrow.1, hrow.2.1, opWord_masked] at hmatch
    exact .inl ⟨kd, hrow, opWord_inj hmatch⟩
  · obtain ⟨kd, hrow⟩ := isWriteRow_of_mem hr
    rw [hrow.1, hrow.2.1, opWord_masked] at hmatch
    exact .inr (.inl ⟨kd, hrow, opWord_inj hmatch⟩)
  · obtain ⟨sub, hrow⟩ := isSystemRow_of_mem hr
    refine .inr (.inr ⟨sub, hrow, ?_⟩)
    rw [hrow.1, hrow.2.1, show opWord c sel k &&& 0xFFFF = opWord c sel k from BitVec.and_allOnes] at hmatch
    exact opWord_inj hmatch

/-- A subcode that fills the low byte of a data field with nothing above it is that data field. -/
theorem setWidth_lowByte {d : Long} (h : d.extractLsb' 8 24 = 0) : (d.extractLsb' 0 8).setWidth 32 = d := by
  have hlt : d.toNat / 2 ^ 8 % 2 ^ 24 = 0 := by
    simpa [Nat.shiftRight_eq_div_pow] using congrArg BitVec.toNat h
  apply BitVec.eq_of_toNat_eq
  have hd : d.toNat < 2 ^ 32 := d.isLt
  simp only [BitVec.toNat_setWidth, BitVec.extractLsb'_toNat, Nat.shiftRight_zero]
  omega

theorem encode_eq_of_decode {v : Variant} {tw : BitVec 64} {i : Instr} (h : decode v tw = .ok i) :
    encode i = .tw tw ∧ wellFormed v i = true := by
  obtain ⟨hz, w, hw, ⟨hc, hd, hop⟩ | ⟨hc, hfits, hop⟩ | ⟨hc, hs, ha, hd, hop⟩⟩ := decode_eq_ok_iff.1 h
  · obtain ⟨r, rfl, ⟨k, hrow, -, hk⟩ | ⟨_, _, hne, _⟩ | ⟨_, _, hne, _⟩⟩ := decodeOpWord_opWord_ok hw hop
    · obtain ⟨hencode, hwf⟩ := hrow.2.2 v w (twAddr tw) 0
      refine ⟨?_, by rw [hwf]; exact beq_iff_eq.2 hk⟩
      rw [hencode, encodeRead, selOfWidth_of_widthOfSel hw]
      conv_rhs => rw [← twOf_fields hz, hc, hd]
    · exact absurd hne (by decide)
    · exact absurd hne (by decide)
  · obtain ⟨r, rfl, ⟨_, _, hne, _⟩ | ⟨k, hrow, -, hk⟩ | ⟨_, _, hne, _⟩⟩ := decodeOpWord_opWord_ok hw hop
    · exact absurd hne (by decide)
    · obtain ⟨hencode, hwf⟩ := hrow.2.2 v w (twAddr tw) (twData tw)
      refine ⟨?_, by rw [hwf, writeWellFormed, hfits, Bool.and_true]; exact beq_iff_eq.2 hk⟩
      rw [hencode, encodeWrite, selOfWidth_of_widthOfSel hw]
      conv_rhs => rw [← twOf_fields hz, hc]
    · exact absurd hne (by decide)
  · rw [hs] at hw
    obtain ⟨r, rfl, ⟨_, _, hne, _⟩ | ⟨_, _, hne, _⟩ | ⟨sub, hrow, -, hsub⟩⟩ := decodeOpWord_opWord_ok hw hop
    · exact absurd hne (by decide)
    · exact absurd hne (by decide)
    · obtain ⟨hencode, hwf⟩ := hrow.2.2 v w 0 0
      refine ⟨?_, hwf⟩
      rw [hencode, encodeSystem, ← hsub, setWidth_lowByte hd]
      conv_rhs => rw [← twOf_fields hz, hc, hs, ha]

/-- Settles O2: the fields of a word that decodes are those the encoder writes for the row it matches. -/
theorem decodedWordIsTheOperationsWord : Obligations.DecodedWordIsTheOperationsWord := by
  intro v e i h
  cases e with
  | tw word => exact encode_eq_of_decode h
  | useq code => exact microRows_encode v _ (decodeMicro_ok h)

/-! O3: after CONFIG every legal kind has its row. -/

/-- An operation word decodes exactly when its width is one of the three and some row matches it. -/
theorem decodeOpWord_ok_iff {opw : Word} {a : Addr} {d : Long} :
    (∃ i, decodeOpWord opw a d = .ok i) ↔
      widthOfSel (opw.extractLsb' 12 2) ≠ none ∧ ∃ r ∈ opRows, opw &&& r.mask = r.pattern := by
  unfold decodeOpWord
  cases hw : widthOfSel (opw.extractLsb' 12 2) with
  | none => simp
  | some w =>
    cases hr : opRows.find? fun r => opw &&& r.mask == r.pattern with
    | none => simpa using List.find?_eq_none.1 hr
    | some r => simpa using ⟨r, List.mem_of_find?_eq_some hr, by simpa using List.find?_some hr⟩

/-- The kinds a read can select once CONFIG has passed each have a row (30_encoding.md R98). -/
theorem selectedKind_mem {m : List MapEntry} {ks : List Kind} (hks : ∀ e ∈ m, kindIn ks e.kind = true) (w : Width)
    (a : Addr) : ∃ k ∈ .openBus :: ks, selectedKind m w a = kindCode k := by
  unfold selectedKind
  split
  · next e he =>
    obtain ⟨k, hk, heq⟩ : ∃ k ∈ ks, kindCode k = e.kind := by
      simpa [kindIn] using hks e (lookup_some he).1
    exact ⟨k, List.mem_cons_of_mem _ hk, heq.symm⟩
  · exact ⟨.openBus, List.mem_cons_self, rfl⟩

theorem opRows_read (sel : BitVec 2) : ∀ k ∈ .openBus :: readKinds,
    ∃ r ∈ opRows, opWord 0 sel (kindCode k) &&& r.mask = r.pattern := by
  revert sel; decide

theorem opRows_write (sel : BitVec 2) : ∀ k ∈ .openBus :: writeKinds,
    ∃ r ∈ opRows, opWord 1 sel (kindCode k) &&& r.mask = r.pattern := by
  revert sel; decide

theorem opRows_system (sub : BitVec 8) :
    (∃ r ∈ opRows, opWord 2 0 sub &&& r.mask = r.pattern) ↔ sub.toNat < 2 := by
  revert sub; decide

theorem valueFits_iff {sel : BitVec 2} {w : Width} (hw : widthOfSel sel = some w) (d : Long) :
    valueFits w d = true ↔ d.toNat < 2 ^ (8 * 2 ^ sel.toNat) := by
  rw [← selOfWidth_of_widthOfSel hw, valueFits, decide_eq_true_iff]
  cases w <;> exact Iff.rfl

theorem system_data_iff (d : Long) :
    d.extractLsb' 8 24 = 0 ∧ (d.extractLsb' 0 8).toNat < 2 ↔ d.toNat < 2 := by
  have hd : d.toNat < 2 ^ 32 := d.isLt
  rw [← BitVec.toNat_inj]
  simp only [BitVec.extractLsb'_toNat, Nat.shiftRight_eq_div_pow, BitVec.ofNat_eq_ofNat, BitVec.toNat_ofNat]
  omega

/-- Once CONFIG has passed, every transaction word in order decodes: no kind is without its row (30_encoding.md R98). -/
theorem decode_completes_iff {v : Variant} (hv : configCheck v = none) (tw : BitVec 64) :
    (∃ i, decode v tw = .ok i) ↔ twZero tw = 0 ∧ twSel tw ≠ 3 ∧
      ((twCmd tw = 0 ∧ twData tw = 0) ∨ (twCmd tw = 1 ∧ (twData tw).toNat < 2 ^ (8 * 2 ^ (twSel tw).toNat)) ∨
        (twCmd tw = 2 ∧ twSel tw = 0 ∧ twAddr tw = 0 ∧ (twData tw).toNat < 2)) := by
  obtain ⟨hread, hwrite⟩ := configured_kindOk hv
  have hsel : ∀ {sel : BitVec 2} {w : Width}, widthOfSel sel = some w → widthOfSel sel ≠ none := by
    intro sel w hw; simp [hw]
  constructor
  · rintro ⟨i, h⟩
    obtain ⟨hz, w, hw, hcmd⟩ := decode_eq_ok_iff.1 h
    refine ⟨hz, fun h3 => hsel hw (widthOfSel_eq_none.2 h3), ?_⟩
    rcases hcmd with ⟨hc, hd, -⟩ | ⟨hc, hfits, -⟩ | ⟨hc, hs, ha, hd, hop⟩
    · exact .inl ⟨hc, hd⟩
    · exact .inr (.inl ⟨hc, (valueFits_iff hw _).1 hfits⟩)
    · have hsub := (opRows_system _).1 (decodeOpWord_ok_iff.1 ⟨i, hop⟩).2
      exact .inr (.inr ⟨hc, hs, ha, (system_data_iff _).1 ⟨hd, hsub⟩⟩)
  · rintro ⟨hz, h3, hcmd⟩
    obtain ⟨w, hw⟩ := Option.ne_none_iff_exists'.1 fun h => h3 (widthOfSel_eq_none.1 h)
    rcases hcmd with ⟨hc, hd⟩ | ⟨hc, hfits⟩ | ⟨hc, hs, ha, hd⟩
    · obtain ⟨k, hk, heq⟩ := selectedKind_mem hread w (twAddr tw)
      obtain ⟨i, hi⟩ := decodeOpWord_ok_iff.2
        ⟨by rw [opWord_sel]; exact hsel hw, heq ▸ opRows_read (twSel tw) k hk⟩
      exact ⟨i, decode_eq_ok_iff.2 ⟨hz, w, hw, .inl ⟨hc, hd, hi⟩⟩⟩
    · obtain ⟨k, hk, heq⟩ := selectedKind_mem hwrite w (twAddr tw)
      obtain ⟨i, hi⟩ := decodeOpWord_ok_iff.2
        ⟨by rw [opWord_sel]; exact hsel hw, heq ▸ opRows_write (twSel tw) k hk⟩
      exact ⟨i, decode_eq_ok_iff.2 ⟨hz, w, hw, .inr (.inl ⟨hc, (valueFits_iff hw _).2 hfits, hi⟩)⟩⟩
    · obtain ⟨hhigh, hsub⟩ := (system_data_iff _).2 hd
      obtain ⟨i, hi⟩ := decodeOpWord_ok_iff.2 ⟨by rw [opWord_sel]; decide, (opRows_system _).2 hsub⟩
      exact ⟨i, decode_eq_ok_iff.2 ⟨hz, w, hw, .inr (.inr ⟨hc, hs, ha, hhigh, hi⟩)⟩⟩

/-- Settles O3: a word is refused exactly when it does not decode. -/
theorem refusedWordsAreExactlyTheReserved : Obligations.RefusedWordsAreExactlyTheReserved := by
  intro v tw hv
  have hrefused : (∃ why, decode v tw = .error why) ↔ ¬ ∃ i, decode v tw = .ok i := by
    cases decode v tw <;> simp
  have hcmd : twCmd tw = 0 ∨ twCmd tw = 1 ∨ twCmd tw = 2 ∨ twCmd tw = 3 := by
    generalize twCmd tw = c; revert c; decide
  rw [hrefused, decode_completes_iff hv]
  grind

/-- Settles O4, by decoding each word. -/
theorem specWordsDecodeAsWritten : Obligations.SpecWordsDecodeAsWritten := by
  unfold Obligations.SpecWordsDecodeAsWritten
  decide

end Sys2Proof
end

section
/-! What operations and steps leave unchanged: each piece of state has its own writers (10_state.md §1, 20_memory.md §4),
and what every operation, every host action and the sequencer keep, every step keeps. -/

namespace Sys2Proof.Machine

/-! The write commands as instances of `writeEntry`. -/

theorem exec_wrRam (w : Width) (a : Addr) (v : Long) (s : State) :
    exec (.wrRam w a v) s = writeEntry .ram (writeCycles writeCycleRam w a v) w a s := rfl

theorem exec_wrBankrom (w : Width) (a : Addr) (v : Long) (s : State) :
    exec (.wrBankrom w a v) s = writeEntry .bankrom (writeCycles writeCycleRom w a v) w a s := rfl

theorem exec_wrVideo (w : Width) (a : Addr) (v : Long) (s : State) :
    exec (.wrVideo w a v) s = writeEntry .video (writeCycles writeCycleVideo w a v) w a s := rfl

theorem exec_wrSprite (w : Width) (a : Addr) (v : Long) (s : State) :
    exec (.wrSprite w a v) s = writeEntry .sprite (writeCycles writeCycleSprite w a v) w a s := rfl

theorem exec_wrPalette (w : Width) (a : Addr) (v : Long) (s : State) :
    exec (.wrPalette w a v) s = writeEntry .palette (writeCycles writeCyclePalette w a v) w a s := rfl

theorem exec_wrSndkick (w : Width) (a : Addr) (v : Long) (s : State) :
    exec (.wrSndkick w a v) s =
      writeEntry .sndkick (fun _ s => raiseSoundNmi s (latchOf (zextValue w v))) w a s := rfl

theorem exec_wrFlip (w : Width) (a : Addr) (v : Long) (s : State) :
    exec (.wrFlip w a v) s = writeEntry .flip
      (fun _ s => { s with flip := flipOf (zextValue w v), sprflip := sprflipOf (zextValue w v) }) w a s := rfl

theorem exec_wrProtw (w : Width) (a : Addr) (v : Long) (s : State) :
    exec (.wrProtw w a v) s =
      writeEntry .protw (fun _ s => { s with invert := invertAfter s.invert (zextValue w v) }) w a s := rfl

/-! Writers. -/

/-- Settles O29: every constructor of `Performs` names the fields it writes. -/
theorem onlyItsWritersChangeAPieceOfState : Obligations.OnlyItsWritersChangeAPieceOfState := by
  intro s t i h hreset
  cases exec_next h with
  | reset => exact absurd rfl hreset
  | ram e _ => obtain ⟨m, hm⟩ := writeCycles_ram_eq _ _ _ e (noReply s); rw [hm]; simp
  | video e _ => obtain ⟨m, d, hm⟩ := writeCycles_video_eq _ _ _ e (noReply s); rw [hm]; simp
  | sprite e _ => obtain ⟨m, hm⟩ := writeCycles_sprite_eq _ _ _ e (noReply s); rw [hm]; simp
  | palette e _ => obtain ⟨m, p, hm⟩ := writeCycles_palette_eq _ _ _ e (noReply s); rw [hm]; simp
  | frame =>
    obtain ⟨d, tc, vi, ly, fb, pc, f, hf⟩ := runFrame_eq (noReply s)
    rw [hf]
    simp
  | _ => simp

/-- No write to video memory clears a dirty bit (41_bus_writes.md R165). -/
theorem writeCycles_video_keeps_dirty (w : Width) (a : Addr) (v : Long) (e : MapEntry) (s : State) {c : Nat}
    (h : bitAt s.dirty c = true) : bitAt (writeCycles writeCycleVideo w a v e s).dirty c = true := by
  refine writeCycles_keeps (fun t => bitAt t.dirty c = true) (fun t cy ht _ => ?_) h
  simp [writeCycleVideo, ht]

/-- Only FRAME, RESET and TCUPD can clear a dirty bit (10_state.md R38). -/
theorem exec_keeps_dirty {s t : State} {i : Instr} (h : exec i s = .next t)
    (hi : i ≠ .reset ∧ i ≠ .frame ∧ i ≠ .tcupd) {c : Nat} (hc : bitAt s.dirty c = true) : bitAt t.dirty c = true := by
  obtain ⟨hreset, hframe, htcupd⟩ := hi
  by_cases hvideo : ∀ w a v, i ≠ .wrVideo w a v
  · obtain ⟨-, -, -, -, -, -, -, hdirty, -⟩ := onlyItsWritersChangeAPieceOfState s t i h hreset
    rwa [hdirty hvideo hframe htcupd]
  · push Not at hvideo
    obtain ⟨w, a, v, rfl⟩ := hvideo
    cases exec_next h with
    | reads hi _ => cases hi
    | discards hi => cases hi
    | video e _ => exact writeCycles_video_keeps_dirty w a v e (noReply s) hc

/-- Settles O28, from the table of writers: a write is none of the operations that may change these fields. -/
theorem writesNeverTouchTheCompositor : Obligations.WritesNeverTouchTheCompositor := by
  intro s t w a v i hi h
  have hwrite : ∀ j ∈ [Instr.reset, .frame, .tcupd, .pvis, .pchg, .trend, .srend, .comp], i ≠ j := by
    simp only [List.mem_cons, List.not_mem_nil, or_false] at hi ⊢
    rcases hi with rfl | rfl | rfl | rfl | rfl | rfl | rfl | rfl | rfl | rfl <;> simp
  simp only [List.forall_mem_cons, List.not_mem_nil, false_imp_iff, implies_true, and_true] at hwrite
  obtain ⟨hreset, hframe, htcupd, hpvis, hpchg, htrend, hsrend, hcomp⟩ := hwrite
  obtain ⟨-, -, -, -, -, -, -, -, htcache, hvisb, hprev, hlayer, hfb, hphase, -, hcfg, hvar, hrom, hbank, -⟩ :=
    onlyItsWritersChangeAPieceOfState s t i h hreset
  obtain ⟨hvisbPrev, hpalchg⟩ := hprev hframe hpchg
  obtain ⟨hvalid, hph⟩ := hphase hframe
  exact ⟨hrom, hbank, hvar, htcache hframe htcupd, hvisb hframe hpvis, hvisbPrev, hlayer hframe htrend,
    hfb hframe hsrend hcomp, hph, hvalid, hpalchg, hcfg, fun c => exec_keeps_dirty h ⟨hreset, hframe, htcupd⟩⟩

/-! Reads repeat. -/

/-- A read whose word does not depend on the last reply answers the same again (40_bus_reads.md R145). -/
theorem readEntry_repeats {k : Kind} {word : State → MapEntry → Addr → Word} {w : Width} {a : Addr} {s t : State}
    (hword : ∀ s x, word (respond s x) = word s) (h : readEntry k word w a s = .next t) :
    t = { s with rdata := t.rdata } ∧ readEntry k word w a t = .next t := by
  obtain ⟨hc, hp, e, he, rfl⟩ := readEntry_next h
  refine ⟨rfl, ?_⟩
  rw [readEntry_of (s := respond s _) word hc hp he, hword]
  rfl

theorem openBusCommand_read_repeats {w : Width} {a : Addr} {s t : State} (h : exec (.rdOpen w a) s = .next t) :
    t = { s with rdata := t.rdata } ∧ exec (.rdOpen w a) t = .next t := by
  obtain ⟨hc, hp, hk, rfl⟩ := openBusCommand_next h
  refine ⟨rfl, ?_⟩
  rw [exec_rdOpen, openBusCommand, accept_of (s := respond s _) hc hp]
  exact if_pos hk

/-- Settles O16: a read's only effect is its reply, and no read's word depends on a reply. -/
theorem readsChangeNothing : Obligations.ReadsChangeNothing := by
  intro s t w a i hi h
  simp only [List.mem_cons, List.not_mem_nil, or_false] at hi
  rcases hi with rfl | rfl | rfl | rfl | rfl | rfl | rfl | rfl | rfl | rfl | rfl | rfl | rfl
  · exact openBusCommand_read_repeats h
  all_goals exact readEntry_repeats (fun _ _ => rfl) h

/-! Steps. -/

/-- What the sequencer's move leaves alone: everything but PHASE, FRAME_VALID and EVT. -/
theorem advancePhase_eq (s : State) :
    ∃ p f ev, advancePhase s = { s with phase := p, frameValid := f, evt := ev } := by
  unfold advancePhase
  split <;> exact ⟨_, _, _, rfl⟩

/-- What every operation, every host action and the sequencer keep, every step keeps. -/
theorem step_keeps (P : State → Prop) {s t : State}
    (hinbox : ∀ u rest, P u → P { u with inbox := rest })
    (hports : ∀ u n x, P u → P { u with ports := u.ports.set Config.hostPort n x })
    (hsndstat : ∀ u x, P u → P { u with sndstat := x })
    (hsequencer : ∀ u p f ev, P u → P { u with phase := p, frameValid := f, evt := ev })
    (hexec : ∀ u i u', P u → exec i u = .next u' → P u') (hs : P s) (h : step s = .next t) : P t := by
  cases step_next h with
  | rests => exact hs
  | setsPort rest n x => exact hports { s with inbox := rest } n x (hinbox s rest hs)
  | setsSndStat rest x => exact hsndstat { s with inbox := rest } x (hinbox s rest hs)
  | command rest i _ _ hi => exact hexec _ i _ (hinbox s rest hs) hi
  | micro i u _ _ hi =>
    obtain ⟨p, f, ev, hadv⟩ := advancePhase_eq u
    rw [hadv]
    exact hsequencer u p f ev (hexec s i u hs hi)

/-- No operation, RESET included, changes a parameter of the session (10_state.md R46, 70_reset_and_hazards.md R272). -/
theorem exec_keeps_parameters {s t : State} {i : Instr} (h : exec i s = .next t) :
    t.variant = s.variant ∧ t.rom = s.rom ∧ t.bankrom = s.bankrom ∧ t.gfxTile = s.gfxTile ∧ t.gfxSpr = s.gfxSpr ∧
      t.penUse = s.penUse ∧ t.cfgErr = s.cfgErr := by
  by_cases hreset : i = .reset
  · subst hreset
    cases exec_next h with
    | reads hi _ => cases hi
    | discards hi => cases hi
    | reset => simp [resetSession]
  · obtain ⟨-, -, -, -, -, -, -, -, -, -, -, -, -, -, -, hcfg, hvar, hrom, hbank, htile, hspr, hpen, -⟩ :=
      onlyItsWritersChangeAPieceOfState s t i h hreset
    exact ⟨hvar, hrom, hbank, htile, hspr, hpen, hcfg⟩

/-- Settles O58. -/
theorem stepsKeepTheSessionParameters : Obligations.StepsKeepTheSessionParameters := by
  intro s t h
  refine step_keeps (fun u => u.variant = s.variant ∧ u.rom = s.rom ∧ u.bankrom = s.bankrom ∧ u.gfxTile = s.gfxTile ∧
    u.gfxSpr = s.gfxSpr ∧ u.penUse = s.penUse ∧ u.cfgErr = s.cfgErr) (fun _ _ hu => hu) (fun _ _ _ hu => hu)
    (fun _ _ hu => hu) (fun _ _ _ _ hu => hu) (fun u i u' hu hi => ?_) ⟨rfl, rfl, rfl, rfl, rfl, rfl, rfl⟩ h
  obtain ⟨h1, h2, h3, h4, h5, h6, h7⟩ := exec_keeps_parameters hi
  rw [h1, h2, h3, h4, h5, h6, h7]
  exact hu

/-- A protection write leaves INVERT at 0x00 or 0xFF (41_bus_writes.md R172). -/
theorem invertAfter_legal {invert : Byte} (h : invert = 0x00 ∨ invert = 0xFF) (value : Long) :
    invertAfter invert value = 0x00 ∨ invertAfter invert value = 0xFF := by
  unfold invertAfter
  split_ifs
  · exact .inr rfl
  · exact .inl rfl
  · exact h

theorem exec_keeps_invert {s t : State} {i : Instr} (hs : InvertLegal s) (h : exec i s = .next t) : InvertLegal t := by
  by_cases hreset : i = .reset
  · subst hreset
    obtain ⟨_, _, h⟩ := accept_next h
    cases h
    exact .inl rfl
  by_cases hprotw : ∀ w a v, i ≠ .wrProtw w a v
  · obtain ⟨-, -, -, -, -, hinvert, -⟩ := onlyItsWritersChangeAPieceOfState s t i h hreset
    rw [InvertLegal, hinvert hprotw]
    exact hs
  · push Not at hprotw
    obtain ⟨w, a, v, rfl⟩ := hprotw
    rw [exec_wrProtw] at h
    obtain ⟨_, _, e, _, rfl⟩ := writeEntry_next h
    exact invertAfter_legal hs _

/-- Settles O54: only a protection write and RESET write INVERT. -/
theorem stepsKeepInvertLegal : Obligations.StepsKeepInvertLegal := by
  intro s t hs h
  exact step_keeps InvertLegal (fun _ _ hu => hu) (fun _ _ _ hu => hu) (fun _ _ hu => hu) (fun _ _ _ _ hu => hu)
    (fun u i u' hu hi => exec_keeps_invert hu hi) hs h

@[simp] theorem layerDrawn_size (v : Variant) (k : Nat) : (layerDrawn v k).size = v.fbW * v.fbH := by
  simp [layerDrawn]

@[simp] theorem fbDrawn_size (v : Variant) (k : Nat) : (fbDrawn v k).size = v.fbW * v.fbH := by
  simp [fbDrawn]

/-- Every operation that writes a plane writes a whole one; COMP keeps the size of FB. -/
theorem exec_keeps_planesSized {s t : State} {i : Instr} (hs : PlanesSized s) (h : exec i s = .next t) :
    PlanesSized t := by
  by_cases hi : i ∈ [Instr.reset, .frame, .trend, .srend, .comp]
  · obtain ⟨hlayer, hfb⟩ := hs
    simp only [List.mem_cons, List.not_mem_nil, or_false] at hi
    rcases hi with rfl | rfl | rfl | rfl | rfl
    · obtain ⟨_, _, h⟩ := accept_next h
      cases h
      exact ⟨layerDrawn_size _ _, fbDrawn_size _ _⟩
    · obtain ⟨_, _, h⟩ := accept_next h
      cases h
      rw [runFrame_framed]
      exact ⟨renderedLayer_size _, finishedFb_size _⟩
    · cases h
      exact ⟨renderedLayer_size s, hfb⟩
    · cases h
      exact ⟨hlayer, renderedSprites_size s⟩
    · cases h
      exact ⟨hlayer, (compositeLayers_fb_size s).trans hfb⟩
  · simp only [List.mem_cons, List.not_mem_nil, or_false, not_or] at hi
    obtain ⟨hreset, hframe, htrend, hsrend, hcomp⟩ := hi
    obtain ⟨-, -, -, -, -, -, -, -, -, -, -, hlayer, hfb, -, -, -, hvar, -⟩ :=
      onlyItsWritersChangeAPieceOfState s t i h hreset
    rw [PlanesSized, hlayer hframe htrend, hfb hframe hsrend hcomp, hvar]
    exact hs

/-- Settles O55. -/
theorem stepsKeepPlanesSized : Obligations.StepsKeepPlanesSized := by
  intro s t hs h
  exact step_keeps PlanesSized (fun _ _ hu => hu) (fun _ _ _ hu => hu) (fun _ _ hu => hu) (fun _ _ _ _ hu => hu)
    (fun u i u' hu hi => exec_keeps_planesSized hu hi) hs h

/-- A command that completes ends at Idle, and appends to the trace unless it is RESET (42_frame_compositor.md R191,
R215; 41_bus_writes.md R170). -/
theorem exec_evt {s t : State} {i : Instr} (h : exec i s = .next t) :
    s.evt <+: t.evt ∨ (t.evt = [] ∧ t.draws = s.draws + 1) := by
  by_cases hreset : i = .reset
  · subst hreset
    obtain ⟨_, _, h⟩ := accept_next h
    cases h
    exact .inr ⟨rfl, rfl⟩
  by_cases hframe : i = .frame
  · subst hframe
    obtain ⟨_, _, h⟩ := accept_next h
    cases h
    obtain ⟨d, tc, vi, ly, fb, pc, f, hf⟩ := runFrame_eq (noReply s)
    rw [hf]
    exact .inl (List.prefix_append _ _)
  by_cases hkick : ∀ w a v, i ≠ .wrSndkick w a v
  · obtain ⟨-, -, -, -, -, -, -, -, -, -, -, -, -, -, hevt, -⟩ := onlyItsWritersChangeAPieceOfState s t i h hreset
    rw [hevt hkick hframe]
    exact .inl (List.prefix_refl _)
  · push Not at hkick
    obtain ⟨w, a, v, rfl⟩ := hkick
    rw [exec_wrSndkick] at h
    obtain ⟨_, _, e, _, rfl⟩ := writeEntry_next h
    exact .inl (List.prefix_append _ _)

/-- Settles O59: from Idle a step rests, does a host action, or runs a command. -/
theorem stepsFromIdleEndAtIdle : Obligations.StepsFromIdleEndAtIdle := by
  intro s t hidle h
  cases step_next h with
  | rests => exact ⟨hidle, .inl (List.prefix_refl _)⟩
  | setsPort rest n x => exact ⟨hidle, .inl (List.prefix_refl _)⟩
  | setsSndStat rest x => exact ⟨hidle, .inl (List.prefix_refl _)⟩
  | command rest i _ _ hi => exact ⟨(exec_phase hi).elim (fun hp => hp.trans hidle) id, (exec_evt hi :)⟩
  | micro i u hp _ _ => exact absurd hidle hp

/-! The canonical form of the stores (log 3). -/

theorem memory_wf_withMemory {s : State} {r : Region} {m : Memory} (hs : ∀ r', Memory.wf r' (memoryOf s r'))
    (hm : Memory.wf r m) (r' : Region) : Memory.wf r' (memoryOf (withMemory s r m) r') := by
  by_cases hr : r' = r
  · subst hr
    rwa [memoryOf_withMemory_same]
  · rw [memoryOf_withMemory_other s hr]
    exact hs r'

theorem storesCanonical_setByteAt {s : State} (hs : StoresCanonical s) (r : Region) (off : Nat) (b : Byte) :
    StoresCanonical (setByteAt s r off b) := by
  obtain ⟨hmem, hrgb, htile, hports⟩ := hs
  refine ⟨memory_wf_withMemory hmem (Store.set_wf (hmem r) off b), ?_, ?_, ?_⟩
  · simpa using hrgb
  · simpa using htile
  · simpa using hports

theorem storesCanonical_storeLanes {s : State} (hs : StoresCanonical s) (r : Region) (off : Nat) (be : Lanes) (d : Word) :
    StoresCanonical (storeLanes s r off be d) := by
  cases be with
  | hi => exact storesCanonical_setByteAt hs r off _
  | lo => exact storesCanonical_setByteAt hs r (off + 1) _
  | both => exact storesCanonical_setByteAt (storesCanonical_setByteAt hs r off _) r (off + 1) _

theorem storesCanonical_markDirty {s : State} (hs : StoresCanonical s) (c : Nat) : StoresCanonical (markDirty s c) := by
  obtain ⟨hmem, htables⟩ := hs
  exact ⟨fun r => by rw [memoryOf_markDirty]; exact hmem r, htables⟩

theorem storesCanonical_setRgb {s : State} (hs : StoresCanonical s) (i : Nat) (c : Rgb) :
    StoresCanonical (setRgb s i c) := by
  obtain ⟨hmem, hrgb, htables⟩ := hs
  exact ⟨fun r => by rw [memoryOf_setRgb]; exact hmem r, Store.set_wf hrgb i c, htables⟩

theorem storesCanonical_noReply {s : State} (hs : StoresCanonical s) : StoresCanonical (noReply s) := by
  obtain ⟨hmem, htables⟩ := hs
  exact ⟨fun r => by rw [memoryOf_noReply]; exact hmem r, htables⟩

theorem storesCanonical_resetSession {s : State} (hs : StoresCanonical s) : StoresCanonical (resetSession s) := by
  obtain ⟨hmem, -, -, hports⟩ := hs
  refine ⟨fun r => ?_, Store.drawn_wf _ _, Store.drawn_wf _ _, hports⟩
  cases r with
  | rom => exact hmem .rom
  | bankrom => exact hmem .bankrom
  | _ => exact Store.drawn_wf _ _

/-- A state with the byte arrays and PALRGB and IN of another, and TCACHE after a TCUPD of it. -/
theorem storesCanonical_refreshed {s t : State} (hs : StoresCanonical s) (hm : ∀ r, memoryOf t r = memoryOf s r)
    (hr : t.palrgb = s.palrgb) (hc : t.tcache = (refreshedTables s).1) (hp : t.ports = s.ports) : StoresCanonical t := by
  obtain ⟨hmem, hrgb, htile, hports⟩ := hs
  exact ⟨fun r => by rw [hm]; exact hmem r, by rwa [hr], by rw [hc]; exact refreshedTables_wf htile, by rwa [hp]⟩

theorem storesCanonical_congr {s t : State} (hs : StoresCanonical s) (hm : ∀ r, memoryOf t r = memoryOf s r)
    (hr : t.palrgb = s.palrgb) (hc : t.tcache = s.tcache) (hp : t.ports = s.ports) : StoresCanonical t := by
  unfold StoresCanonical
  simp only [hm, hr, hc, hp]
  exact hs

theorem exec_keeps_storesCanonical {s t : State} {i : Instr} (hs : StoresCanonical s) (h : exec i s = .next t) :
    StoresCanonical t := by
  have hn := storesCanonical_noReply hs
  cases exec_next h with
  | ram e _ => exact writeCycles_keeps StoresCanonical (fun u c hu _ => storesCanonical_storeLanes hu ..) hn
  | video e _ =>
    exact writeCycles_keeps StoresCanonical
      (fun u c hu _ => storesCanonical_markDirty (storesCanonical_storeLanes hu ..) _) hn
  | sprite e _ => exact writeCycles_keeps StoresCanonical (fun u c hu _ => storesCanonical_storeLanes hu ..) hn
  | palette e _ =>
    exact writeCycles_keeps StoresCanonical
      (fun u c hu _ => storesCanonical_setRgb (storesCanonical_storeLanes hu ..) _ _) hn
  | frame =>
    rw [runFrame_framed]
    exact storesCanonical_refreshed hn (fun r => by cases r <;> rfl) rfl rfl rfl
  | reset => exact storesCanonical_resetSession hn
  | tcupd => exact storesCanonical_refreshed hs (fun r => by cases r <;> rfl) rfl rfl rfl
  | _ => exact storesCanonical_congr hs (fun r => by cases r <;> rfl) rfl rfl rfl

/-- Settles O53: every write to a store is one of `Store.set`, which keeps the canonical form. -/
theorem stepsKeepStoresCanonical : Obligations.StepsKeepStoresCanonical := by
  intro s t hs h
  refine step_keeps StoresCanonical (fun u _ hu => ?_) (fun u n x hu => ?_) (fun u _ hu => ?_) (fun u _ _ _ hu => ?_)
    (fun u i u' hu hi => exec_keeps_storesCanonical hu hi) hs h
  · exact storesCanonical_congr hu (fun r => by cases r <;> rfl) rfl rfl rfl
  · obtain ⟨hmem, hrgb, htile, hports⟩ := hu
    exact ⟨fun r => by cases r <;> exact hmem _, hrgb, htile, Store.set_wf hports n x⟩
  · exact storesCanonical_congr hu (fun r => by cases r <;> rfl) rfl rfl rfl
  · exact storesCanonical_congr hu (fun r => by cases r <;> rfl) rfl rfl rfl

end Sys2Proof.Machine
end

section
/-! The two invariants of 10_state.md R47. (b): a clean cell's cache entry is the decode of its bytes, because a video
cycle at an even offset touches the bytes of one cell alone and marks it. (a): a palette entry that is in sync stays so,
because a palette cycle at an even offset expands exactly the word it stores. -/

namespace Sys2Proof.Machine

/-! Invariant (b). -/

/-- A cell's decode depends on the variant and its own four bytes (30_encoding.md R103). -/
theorem decodedCell_congr {s t : State} {c : Nat} (hv : t.variant = s.variant)
    (hb : ∀ o, o / 4 = c → byteAt t .vram o = byteAt s .vram o) : decodedCell t c = decodedCell s c := by
  simp only [decodedCell, wordAt, hv]
  rw [hb (4 * c) (by omega), hb (4 * c + 1) (by omega), hb (4 * c + 2) (by omega), hb (4 * c + 2 + 1) (by omega)]

theorem cleanCellsDecoded_congr {s t : State} (hv : t.variant = s.variant) (hm : t.vram = s.vram)
    (hd : t.dirty = s.dirty) (hc : t.tcache = s.tcache) (hs : CleanCellsDecoded s) : CleanCellsDecoded t := by
  intro c hcell hclean
  rw [hv] at hcell
  rw [hd] at hclean
  rw [decodedCell_congr hv fun o _ => byteAt_congr (r := .vram) hm o, ← hs c hcell hclean, tileAt, tileAt, hc]

/-- A video cycle at an even offset marks the one cell whose bytes it can change (41_bus_writes.md R165). -/
theorem writeCycleVideo_keeps_clean {off : Nat} (be : Lanes) (d : Word) {s : State} (heven : off % 2 = 0)
    (hs : CleanCellsDecoded s) : CleanCellsDecoded (writeCycleVideo off be d s) := by
  intro c hcell hclean
  obtain ⟨hclean, hother⟩ : bitAt s.dirty c = false ∧ off / 4 ≠ c := by simpa [writeCycleVideo] using hclean
  have hbytes : ∀ o, o / 4 = c → byteAt (writeCycleVideo off be d s) .vram o = byteAt s .vram o := by
    intro o ho
    rw [writeCycleVideo, byteAt_markDirty, byteAt_storeLanes, if_neg (by omega), if_neg (by omega)]
  have hvar : (writeCycleVideo off be d s).variant = s.variant := by simp [writeCycleVideo]
  rw [decodedCell_congr hvar hbytes, ← hs c (hvar ▸ hcell) hclean, tileAt, tileAt]
  simp [writeCycleVideo]

/-- TCUPD keeps a clean cell's entry and decodes every dirty one (42_frame_compositor.md R193). -/
theorem updateTiles_keeps_clean {s : State} (hs : CleanCellsDecoded s) : CleanCellsDecoded (updateTiles s) := by
  intro c hcell _
  have hdecode : decodedCell (updateTiles s) c = decodedCell s c := decodedCell_congr rfl fun o _ => by simp
  rw [updateTiles_decodes, hdecode]
  split_ifs with h
  · rfl
  · exact hs c hcell (by simpa using fun hdirty => h ⟨hcell, hdirty⟩)

/-- After RESET no cell is clean (10_state.md R48). -/
theorem resetSession_clean (s : State) : CleanCellsDecoded (resetSession s) := by
  intro c hcell hclean
  have : c < s.variant.nCells := hcell
  simp [resetSession, this] at hclean

/-- The tables of a frame are those of its TCUPD. -/
theorem runFrame_keeps_clean {s : State} (hs : CleanCellsDecoded s) : CleanCellsDecoded (runFrame s) := by
  rw [runFrame_framed]
  exact cleanCellsDecoded_congr (s := updateTiles s) rfl rfl rfl rfl (updateTiles_keeps_clean hs)

theorem exec_keeps_clean {s t : State} {i : Instr} (hc : Configured s) (hs : CleanCellsDecoded s)
    (h : exec i s = .next t) : CleanCellsDecoded t := by
  have hn : CleanCellsDecoded (noReply s) := cleanCellsDecoded_congr rfl rfl rfl rfl hs
  by_cases hi : i = .reset ∨ i = .frame ∨ i = .tcupd
  · rcases hi with rfl | rfl | rfl
    · obtain ⟨_, _, h⟩ := accept_next h
      cases h
      exact resetSession_clean _
    · obtain ⟨_, _, h⟩ := accept_next h
      cases h
      exact runFrame_keeps_clean hn
    · cases h
      exact updateTiles_keeps_clean hs
  simp only [not_or] at hi
  obtain ⟨hreset, hframe, htcupd⟩ := hi
  by_cases hvideo : ∀ w a v, i ≠ .wrVideo w a v
  · obtain ⟨-, hvram, -, -, -, -, -, hdirty, htcache, -, -, -, -, -, -, -, hvar, -⟩ :=
      onlyItsWritersChangeAPieceOfState s t i h hreset
    exact cleanCellsDecoded_congr hvar (hvram hvideo) (hdirty hvideo hframe htcupd) (htcache hframe htcupd) hs
  · push Not at hvideo
    obtain ⟨w, a, v, rfl⟩ := hvideo
    rw [exec_wrVideo] at h
    obtain ⟨_, _, e, he, rfl⟩ := writeEntry_next h
    obtain ⟨hfound, hkind⟩ := selectEntry_eq_some.1 he
    exact writeCycles_found_keeps CleanCellsDecoded (.inr rfl) hc hfound (r := .vram) (by rw [hkind]; rfl)
      (fun off be d u heven hu => writeCycleVideo_keeps_clean be d heven hu) hn

/-- Settles O56. -/
theorem stepsKeepCleanCellsDecoded : Obligations.StepsKeepCleanCellsDecoded := by
  intro s t hc hs h
  refine step_keeps (fun u => Configured u ∧ CleanCellsDecoded u) (fun _ _ hu => ⟨hu.1, ?_⟩) (fun _ _ _ hu => ⟨hu.1, ?_⟩)
    (fun _ _ hu => ⟨hu.1, ?_⟩) (fun _ _ _ _ hu => ⟨hu.1, ?_⟩) (fun u i u' hu hi => ⟨?_, exec_keeps_clean hu.1 hu.2 hi⟩)
    ⟨hc, hs⟩ h
  case refine_5 => rw [Configured, (exec_keeps_parameters hi).1]; exact hu.1
  all_goals exact cleanCellsDecoded_congr rfl rfl rfl rfl hu.2

/-! Invariant (a). -/

theorem entryInSync_congr {s t : State} {i : Nat} (hv : t.variant = s.variant) (hm : t.palram = s.palram)
    (hr : t.palrgb = s.palrgb) (hs : EntryInSync i s) : EntryInSync i t := by
  rw [EntryInSync, wordAt_congr (s := t) (t := s) (r := .palram) hm, hv, ← hs, rgbAt, rgbAt, hr]

/-- The word at an offset after both lanes of a cycle are stored there. -/
theorem wordAt_storeLanes_both (s : State) (r : Region) (off : Nat) (d : Word) :
    wordAt (storeLanes s r off .both d) r off = d := by
  simp [wordAt, byteAt_storeLanes, hasHi, hasLo, highByte_append_lowByte]

/-- A word at another even offset is left alone by a cycle at an even offset. -/
theorem wordAt_storeLanes_other (s : State) (r : Region) {off o : Nat} (be : Lanes) (d : Word) (heven : off % 2 = 0)
    (ho : o % 2 = 0) (hne : o ≠ off) : wordAt (storeLanes s r off be d) r o = wordAt s r o := by
  rw [wordAt, byteAt_storeLanes, byteAt_storeLanes, if_neg (by omega), if_neg (by omega), if_neg (by omega),
    if_neg (by omega), wordAt]

theorem rgbAt_setRgb (s : State) (i j : Nat) (c : Rgb) : rgbAt (setRgb s i c) j = if j = i then c else rgbAt s j := by
  rw [rgbAt, setRgb_palrgb, Store.get_set, rgbAt]

/-- A palette cycle at an even offset leaves the entry it touches in sync (41_bus_writes.md R167). -/
theorem writeCyclePalette_syncs {off : Nat} (be : Lanes) (d : Word) (s : State) (heven : off % 2 = 0) :
    EntryInSync (off / 2) (writeCyclePalette off be d s) := by
  have hoff : 2 * (off / 2) = off := by omega
  simp [EntryInSync, writeCyclePalette, rgbAt_setRgb, hoff, wordAt_storeLanes_both]

/-- A palette cycle at an even offset keeps every entry in sync that was. -/
theorem writeCyclePalette_keeps_sync {off : Nat} (be : Lanes) (d : Word) {s : State} {i : Nat} (heven : off % 2 = 0)
    (hs : EntryInSync i s) : EntryInSync i (writeCyclePalette off be d s) := by
  by_cases hi : i = off / 2
  · rw [hi]
    exact writeCyclePalette_syncs be d s heven
  · have hword := wordAt_storeLanes_other s .palram .both (mergeLanes (wordAt s .palram off) be d) heven
      (o := 2 * i) (by omega) (by omega)
    simp only [EntryInSync, writeCyclePalette, rgbAt_setRgb, if_neg hi, setRgb_variant, storeLanes_variant,
      wordAt_setRgb, hword, ← hs]
    simp [rgbAt]

theorem exec_keeps_sync {s t : State} {j : Instr} {i : Nat} (hc : Configured s) (hs : EntryInSync i s)
    (h : exec j s = .next t) (hreset : j ≠ .reset) : EntryInSync i t := by
  by_cases hpal : ∀ w a v, j ≠ .wrPalette w a v
  · obtain ⟨-, -, -, hpalette, -, -, -, -, -, -, -, -, -, -, -, -, hvar, -⟩ :=
      onlyItsWritersChangeAPieceOfState s t j h hreset
    obtain ⟨hpalram, hpalrgb⟩ := hpalette hpal
    exact entryInSync_congr hvar hpalram hpalrgb hs
  · push Not at hpal
    obtain ⟨w, a, v, rfl⟩ := hpal
    rw [exec_wrPalette] at h
    obtain ⟨_, _, e, he, rfl⟩ := writeEntry_next h
    obtain ⟨hfound, hkind⟩ := selectEntry_eq_some.1 he
    exact writeCycles_found_keeps (EntryInSync i) (.inr rfl) hc hfound (r := .palram) (by rw [hkind]; rfl)
      (fun off be d u heven hu => writeCyclePalette_keeps_sync be d heven hu) (entryInSync_congr rfl rfl rfl hs)

/-- RESET draws new contents (10_state.md R48; log 3). -/
theorem exec_reset_draws {s t : State} (h : exec .reset s = .next t) : t.draws = s.draws + 1 := by
  obtain ⟨_, _, h⟩ := accept_next h
  cases h
  rfl

theorem step_keeps_sync {s t : State} {i : Nat} (hc : Configured s) (hs : EntryInSync i s) (h : step s = .next t)
    (hdraws : t.draws = s.draws) : EntryInSync i t := by
  cases step_next h with
  | rests => exact hs
  | setsPort rest n x => exact entryInSync_congr rfl rfl rfl hs
  | setsSndStat rest x => exact entryInSync_congr rfl rfl rfl hs
  | command rest j _ _ hj =>
    refine exec_keeps_sync (s := { s with inbox := rest }) hc (entryInSync_congr rfl rfl rfl hs) hj fun hreset => ?_
    subst hreset
    have := exec_reset_draws hj
    simp only at this
    omega
  | micro j u _ _ hj =>
    obtain ⟨p, f, ev, hadv⟩ := advancePhase_eq u
    rw [hadv] at hdraws ⊢
    refine entryInSync_congr (s := u) rfl rfl rfl (exec_keeps_sync hc hs hj fun hreset => ?_)
    subst hreset
    have := exec_reset_draws hj
    simp only at hdraws
    omega

/-- The entries that a write to a found palette entry touches are in sync after it, at each width. -/
theorem writeCycles_palette_syncs {v : Variant} {w : Width} {a : Addr} {x : Long} {e : MapEntry} (s : State)
    (hc : configCheck v = none) (hfound : lookup v.wmap (busAddr w a) = some e) (hkind : e.kind = kindCode .palette) :
    EntryInSync (entryOffset e (evenAddr a) / 2) (writeCycles writeCyclePalette w a x e s) ∧
      (w = .w32 → insideEntry e (evenAddr a + 2) = true →
        EntryInSync (entryOffset e (evenAddr a + 2) / 2) (writeCycles writeCyclePalette w a x e s)) := by
  have hregion : storageRegion e.kind = some .palram := by rw [hkind]; rfl
  have hinside : insideEntry e (evenAddr a) = true := by simpa using found_inside (.inr rfl) hc hfound
  have heven : entryOffset e (evenAddr a) % 2 = 0 := by simpa using found_offset_even (.inr rfl) hc hfound hregion
  cases w with
  | w8 =>
    refine ⟨?_, fun h => by cases h⟩
    rcases Nat.mod_two_eq_zero_or_one a.toNat with h2 | h2
    · rw [writeCycles_w8_even _ a x s hinside h2]; exact writeCyclePalette_syncs _ _ _ heven
    · rw [writeCycles_w8_odd _ a x s hinside h2]; exact writeCyclePalette_syncs _ _ _ heven
  | w16 =>
    refine ⟨?_, fun h => by cases h⟩
    rw [writeCycles_w16 _ a x s hinside]
    exact writeCyclePalette_syncs _ _ _ heven
  | w32 =>
    rw [writeCycles_w32 _ a x s hinside]
    dsimp only
    by_cases h2 : insideEntry e (evenAddr a + 2) = true
    · have heven2 : entryOffset e (evenAddr a + 2) % 2 = 0 := by
        simpa using found_second_even (.inr rfl) hc hfound hregion (by simpa using h2)
      rw [if_pos h2]
      exact ⟨writeCyclePalette_keeps_sync _ _ heven2 (writeCyclePalette_syncs _ _ _ heven),
        fun _ _ => writeCyclePalette_syncs _ _ _ heven2⟩
    · rw [if_neg h2]
      exact ⟨writeCyclePalette_syncs _ _ _ heven, fun _ h => absurd h h2⟩

/-- Settles O57. -/
theorem stepsKeepThePaletteInSync : Obligations.StepsKeepThePaletteInSync := by
  refine ⟨fun s t i hc hs h hdraws => step_keeps_sync hc hs h hdraws, fun s t w a v e hc hfound h => ?_⟩
  rw [exec_wrPalette] at h
  obtain ⟨_, _, e', he, rfl⟩ := writeEntry_next h
  obtain ⟨hfound', hkind⟩ := selectEntry_eq_some.1 he
  obtain rfl : e' = e := Option.some.inj (hfound'.symm.trans hfound)
  exact writeCycles_palette_syncs (noReply s) hc hfound hkind

end Sys2Proof.Machine
end

section
/-! Reads of a found entry (40_bus_reads.md §1 to §3): the first cycle is inside the entry, so each width's result is put
together from the entry's word, and only the second cycle of a 32-bit read can be open bus. -/

namespace Sys2Proof.Machine

/-! The result at each width. -/

section Result

variable (openByte : Byte) {e : MapEntry} (word : Addr → Word) (a : Addr) (hi : insideEntry e (evenAddr a) = true)
include hi

theorem readResult_w8 : readResult openByte e word .w8 a =
    (if a.getLsbD 0 then lowByte (word (evenAddr a)) else highByte (word (evenAddr a))).setWidth 32 := by
  simp [readResult, readCycle, hi]

theorem readResult_w16 : readResult openByte e word .w16 (evenAddr a) = (word (evenAddr a)).setWidth 32 := by
  simp [readResult, readCycle, hi]

theorem readResult_w32 : readResult openByte e word .w32 (evenAddr a) =
    word (evenAddr a) ++
      (if insideEntry e (evenAddr a + 2) then word (evenAddr a + 2) else openByte ++ openByte) := by
  simp [readResult, readCycle, hi]

end Result

/-- A read of a found entry of its kind completes, and replies with the result of its width. -/
theorem readEntry_found {k : Kind} (word : State → MapEntry → Addr → Word) {w : Width} {a : Addr} {s : State}
    {e : MapEntry} (hs : Accepting s) (hfound : lookup s.variant.rmap (busAddr w a) = some e)
    (hkind : e.kind = kindCode k) :
    readEntry k word w a s = .next (respond s (readResult s.variant.openBusByte e (word s e) w (busAddr w a))) :=
  readEntry_of word hs.1 hs.2 (selectEntry_eq_some.2 ⟨hfound, hkind⟩)

/-! The six storage kinds. -/

/-- The storage kinds, each with its region and its read (40_bus_reads.md §2). -/
def storageReads : List (Kind × Region × (Width → Addr → Instr)) :=
  [(.rom, .rom, .rdRom), (.ram, .wram, .rdRam), (.bankrom, .bankrom, .rdBankrom), (.video, .vram, .rdVideo),
    (.sprite, .sprram, .rdSprite), (.palette, .palram, .rdPalette)]

/-- The word of a storage entry at a cycle, with the bank base of banked ROM (40_bus_reads.md R132 to R137). -/
def regionWord (k : Kind) (r : Region) (s : State) (e : MapEntry) (wa : Addr) : Word :=
  wordAt s r ((if k = .bankrom then bankBaseOf s.variant e.arg0.toNat else 0) + entryOffset e wa)

theorem storageWord_eq_regionWord {k : Kind} (hk : k ≠ .bankrom) (r : Region) : storageWord r = regionWord k r := by
  funext s e wa
  rw [regionWord, if_neg hk, Nat.zero_add, storageWord]

/-- Each storage read is `readEntry` with the word of its region. -/
theorem exec_storageRead {p : Kind × Region × (Width → Addr → Instr)} (hp : p ∈ storageReads) (w : Width) (a : Addr)
    (s : State) : exec (p.2.2 w a) s = readEntry p.1 (regionWord p.1 p.2.1) w a s := by
  simp only [storageReads, List.mem_cons, List.not_mem_nil, or_false] at hp
  rcases hp with rfl | rfl | rfl | rfl | rfl | rfl
  case inr.inr.inl => rfl
  all_goals
    rw [← storageWord_eq_regionWord (by decide)]
    rfl

/-- A read of a found storage entry, before its result is put together. -/
theorem exec_storageRead_found {p : Kind × Region × (Width → Addr → Instr)} (hp : p ∈ storageReads) {w : Width} {a : Addr}
    {s : State} {e : MapEntry} (hs : Accepting s) (hfound : lookup s.variant.rmap (busAddr w a) = some e)
    (hkind : e.kind = kindCode p.1) :
    exec (p.2.2 w a) s = .next (respond s
      (readResult s.variant.openBusByte e (regionWord p.1 p.2.1 s e) w (busAddr w a))) := by
  rw [exec_storageRead hp, readEntry_found _ hs hfound hkind]

/-- The lane of an address picks the byte at its own offset (20_memory.md R62, R63). -/
theorem lane_wordAt (s : State) (r : Region) (off : Nat) (a : Addr) :
    (if a.getLsbD 0 then lowByte (wordAt s r off) else highByte (wordAt s r off)) =
      byteAt s r (off + a.toNat % 2) := by
  rw [wordAt, lowByte_append, highByte_append, getLsbD_zero_eq]
  rcases Nat.mod_two_eq_zero_or_one a.toNat with h | h <;> simp [h]

/-- Settles O11. -/
theorem storageByteReadsReturnTheByte : Obligations.StorageByteReadsReturnTheByte := by
  intro s a e hs hc hfound p hp hkind
  rw [exec_storageRead_found hp (w := .w8) hs hfound hkind, busAddr,
    readResult_w8 _ _ a (found_inside (.inl rfl) hc hfound), regionWord, lane_wordAt, Nat.add_assoc, Nat.add_assoc,
    ← found_byteOffset (.inl rfl) hc hfound]
  rfl

/-- Settles O12. -/
theorem storageWordReadsReturnTwoBytes : Obligations.StorageWordReadsReturnTwoBytes := by
  intro s a e hs hc hfound p hp hkind off hoff
  have hinside : insideEntry e (evenAddr a) = true := by
    simpa using found_inside (a := evenAddr a) (.inl rfl) hc hfound
  rw [exec_storageRead_found hp (w := .w16) hs hfound hkind, busAddr, readResult_w16 _ _ a hinside, hoff]
  rfl

/-- Settles O13. -/
theorem storageLongReadsReturnTwoCycles : Obligations.StorageLongReadsReturnTwoCycles := by
  intro s a e hs hc hfound p hp hkind bank off off2 hbank hoff hoff2
  have hinside : insideEntry e (evenAddr a) = true := by
    simpa using found_inside (a := evenAddr a) (.inl rfl) hc hfound
  rw [exec_storageRead_found hp (w := .w32) hs hfound hkind, busAddr, readResult_w32 _ _ a hinside, hoff, hoff2, hbank]
  rfl

/-! The six handlers, and the rotary parameters. -/

/-- A handler whose word is the same at every cycle: each width of it (40_bus_reads.md R138 to R143). -/
theorem readEntry_handler {k : Kind} {word : State → MapEntry → Addr → Word} {w : Width} {a : Addr} {s : State}
    {e : MapEntry} {h : Word} (hs : Accepting s) (hc : Configured s)
    (hfound : lookup s.variant.rmap (busAddr w a) = some e) (hkind : e.kind = kindCode k)
    (hword : ∀ wa, word s e wa = h) :
    readEntry k word w a s = .next (respond s (match w with
      | .w8 => (if a.getLsbD 0 then lowByte h else highByte h).setWidth 32
      | .w16 => h.setWidth 32
      | .w32 => h ++ (if insideEntry e (evenAddr a + 2) then h
          else s.variant.openBusByte ++ s.variant.openBusByte))) := by
  have hinside : insideEntry e (evenAddr a) = true := by simpa using found_inside (.inl rfl) hc hfound
  rw [readEntry_found word hs hfound hkind]
  congr 2
  cases w with
  | w8 => exact (readResult_w8 _ _ a hinside).trans (by rw [hword])
  | w16 => exact (readResult_w16 _ _ a hinside).trans (by rw [hword])
  | w32 => exact (readResult_w32 _ _ a hinside).trans (by rw [hword, hword])

/-- A word appended to bits above it, in arithmetic. -/
theorem toNat_append_eq_add {m n : Nat} (x : BitVec m) (y : BitVec n) : (x ++ y).toNat = 2 ^ n * x.toNat + y.toNat := by
  rw [BitVec.toNat_append, ← Nat.shiftLeft_add_eq_or_of_lt y.isLt, Nat.shiftLeft_eq, Nat.mul_comm]

theorem rotPlace_reference {v : Variant} (hv : v.rotPlace = .reference) (m : BitVec 12) :
    (rotPlace v m).toNat = 0xF000 + m.toNat := by
  rw [rotPlace, hv]
  exact toNat_append_eq_add 0xF#4 m

theorem rotloPack_reference {v : Variant} (hv : v.rotloPack = .reference) (m0 m1 : BitVec 12) :
    (rotloPack v m0 m1).toNat = 0xFF00 + m1.toNat % 16 * 16 + m0.toNat % 16 := by
  simp only [rotloPack, hv, toNat_append_eq_add, BitVec.extractLsb'_toNat, Nat.shiftRight_zero, BitVec.toNat_ofNat]
  omega

/-- The handler kinds, each with its read and the word of its entry (40_bus_reads.md §3). -/
def handlerReads (s : State) (e : MapEntry) : List (Kind × (Width → Addr → Instr) × Word) :=
  [(.ctrl, .rdCtrl, ctrlWord s e 0), (.dip, .rdDip, dipWord s e 0), (.sndbusy, .rdSndbusy, sndbusyWord s e 0),
    (.rot, .rdRot, rotWord s e 0), (.rotlo, .rdRotlo, rotloWord s e 0), (.protr, .rdProtr, protrWord s e 0)]

/-- Each handler read is `readEntry` with a word that is the same at every cycle. -/
theorem exec_handlerRead {s : State} {e : MapEntry} {p : Kind × (Width → Addr → Instr) × Word}
    (hp : p ∈ handlerReads s e) (w : Width) (a : Addr) : ∃ word : State → MapEntry → Addr → Word,
      exec (p.2.1 w a) s = readEntry p.1 word w a s ∧ ∀ wa, word s e wa = p.2.2 := by
  simp only [handlerReads, List.mem_cons, List.not_mem_nil, or_false] at hp
  rcases hp with rfl | rfl | rfl | rfl | rfl | rfl
  · exact ⟨ctrlWord, rfl, fun _ => rfl⟩
  · exact ⟨dipWord, rfl, fun _ => rfl⟩
  · exact ⟨sndbusyWord, rfl, fun _ => rfl⟩
  · exact ⟨rotWord, rfl, fun _ => rfl⟩
  · exact ⟨rotloWord, rfl, fun _ => rfl⟩
  · exact ⟨protrWord, rfl, fun _ => rfl⟩

/-- Settles O14. -/
theorem handlerReadsReturnTheirWord : Obligations.HandlerReadsReturnTheirWord := by
  refine ⟨fun s w a e hs hc hfound p hp hkind => ?_, fun v => ⟨rotPlace_reference, rotloPack_reference⟩⟩
  obtain ⟨word, hexec, hword⟩ := exec_handlerRead (show p ∈ handlerReads s e from hp) w a
  rw [hexec, readEntry_handler hs hc hfound hkind hword]
  cases w <;> rfl

/-- Settles O15: the 1 that the mask complements stands at the index, and nowhere else. -/
theorem rotaryMaskHasOneZeroBit : Obligations.RotaryMaskHasOneZeroBit := by
  intro x
  have hx : x.toNat < 256 := x.isLt
  refine ⟨by omega, fun j hj => ?_⟩
  have hone : (1#12 <<< rotIdx x).getLsbD j = decide (j = rotIdx x) := by
    rw [BitVec.getLsbD_shiftLeft, BitVec.getLsbD_one]
    by_cases h : j = rotIdx x <;> simp [h] <;> omega
  rw [rotMask, BitVec.getLsbD_not, hone]
  change _ ↔ j = rotIdx x
  simp [hj]

end Sys2Proof.Machine
end

section
/-! Writes to a found entry (41_bus_writes.md §2, §3). Of a storage kind: what one cycle does to each byte, then the
cycles of each width put together, the second of a 32-bit write reaching other bytes than the first. Of a side-effect
kind: one effect on the zero-extended value. -/

namespace Sys2Proof.Machine

/-- A write to a found entry of its kind completes, with the effect of its kind. -/
theorem writeEntry_found {k : Kind} (effect : MapEntry → State → State) {w : Width} {a : Addr} {s : State} {e : MapEntry}
    (hs : Accepting s) (hfound : lookup s.variant.wmap (busAddr w a) = some e) (hkind : e.kind = kindCode k) :
    writeEntry k effect w a s = .next (effect e (noReply s)) :=
  writeEntry_of effect hs.1 hs.2 (selectEntry_eq_some.2 ⟨hfound, hkind⟩)

/-- Settles O19: the cycles of banked ROM store nothing. -/
theorem bankedRomWriteIsDiscarded : Obligations.BankedRomWriteIsDiscarded := by
  intro s w a v e hs hfound hkind
  rw [exec_wrBankrom, writeEntry_found _ hs hfound hkind, writeCycles_rom]
  rfl

/-! The side-effect kinds, on the zero-extended value. -/

/-- The bits of the zero-extended value: those of the written width (30_encoding.md R93). -/
theorem zextValue_getLsbD (w : Width) (v : Long) (i : Nat) :
    (zextValue w v).getLsbD i = (decide (i < widthBits w) && v.getLsbD i) := by
  cases w with
  | w8 =>
    simp only [zextValue, widthBits, BitVec.getLsbD_setWidth, BitVec.getLsbD_extractLsb', Nat.zero_add]
    by_cases h : i < 8
    · simp [h, show i < 32 by omega]
    · simp [h]
  | w16 =>
    simp only [zextValue, widthBits, BitVec.getLsbD_setWidth, BitVec.getLsbD_extractLsb', Nat.zero_add]
    by_cases h : i < 16
    · simp [h, show i < 32 by omega]
    · simp [h]
  | w32 =>
    by_cases h : i < 32
    · simp [zextValue, widthBits, h]
    · simp [zextValue, widthBits, h, BitVec.getLsbD_of_ge v i (by omega)]

theorem zextValue_low8 (w : Width) (v : Long) : (zextValue w v).extractLsb' 0 8 = v.extractLsb' 0 8 := by
  apply BitVec.eq_of_getLsbD_eq
  intro i hi
  have : i < widthBits w := by cases w <;> simp only [widthBits] <;> omega
  simp [hi, zextValue_getLsbD, this]

/-- An 8-bit kick latches 0; the others bits 15 to 8 (41_bus_writes.md R170). -/
theorem latchOf_zextValue (w : Width) (v : Long) :
    latchOf (zextValue w v) = if w = .w8 then 0x00 else v.extractLsb' 8 8 := by
  cases w with
  | w8 =>
    apply BitVec.eq_of_getLsbD_eq
    intro i hi
    rw [latchOf, BitVec.getLsbD_extractLsb', zextValue_getLsbD, widthBits,
      decide_eq_false (show ¬ 8 + i < 8 by omega)]
    simp
  | w16 =>
    apply BitVec.eq_of_getLsbD_eq
    intro i hi
    rw [latchOf, BitVec.getLsbD_extractLsb', zextValue_getLsbD, widthBits, decide_eq_true (show 8 + i < 16 by omega)]
    simp
  | w32 => rfl

/-- Only a 32-bit value has an upper half that can be other than zero. -/
theorem zextValue_high16 (w : Width) (v : Long) :
    (zextValue w v).extractLsb' 16 16 = if w = .w32 then v.extractLsb' 16 16 else 0 := by
  have hzero : widthBits w ≤ 16 → (zextValue w v).extractLsb' 16 16 = 0 := by
    intro hw
    apply BitVec.eq_of_getLsbD_eq
    intro i hi
    rw [BitVec.getLsbD_extractLsb', zextValue_getLsbD, decide_eq_false (show ¬ 16 + i < widthBits w by omega)]
    simp
  cases w with
  | w8 => exact hzero (by decide)
  | w16 => exact hzero (by decide)
  | w32 => rfl

/-- Settles O25. -/
theorem soundKickLatchesAndSignals : Obligations.SoundKickLatchesAndSignals := by
  intro s w a v e l hs hfound hkind hl
  rw [exec_wrSndkick, writeEntry_found _ hs hfound hkind, latchOf_zextValue, ← hl]
  rfl

/-- Settles O26: bits 3 and 2 are within every width. -/
theorem flipWriteSetsBothFlags : Obligations.FlipWriteSetsBothFlags := by
  intro s w a v e hs hfound hkind
  have hbit : ∀ i, i < 8 → (zextValue w v).getLsbD i = v.getLsbD i := by
    intro i hi
    have : i < widthBits w := by cases w <;> simp only [widthBits] <;> omega
    simp [zextValue_getLsbD, this]
  rw [exec_wrFlip, writeEntry_found _ hs hfound hkind]
  simp only [flipOf, sprflipOf, hbit 3 (by omega), hbit 2 (by omega)]
  rfl

/-- Settles O27. -/
theorem protectionWriteSetsInvert : Obligations.ProtectionWriteSetsInvert := by
  intro s w a v e hs hfound hkind
  have hinvert : invertAfter s.invert (zextValue w v) =
      if w = .w32 ∧ v.extractLsb' 16 16 ≠ 0 then s.invert else if v.extractLsb' 0 8 = 0x07 then 0xFF else 0x00 := by
    rw [invertAfter, zextValue_high16, zextValue_low8, unlockByte]
    by_cases hw : w = .w32 <;> by_cases hv : v.extractLsb' 16 16 = 0#16 <;> simp [hw, hv]
  rw [exec_wrProtw, writeEntry_found _ hs hfound hkind, ← hinvert]
  rfl

/-! The storage kinds, one cycle. -/

/-- The byte at each offset after a cycle whose enabled lanes store `hi` and `lo`. -/
def lanesStored (off : Nat) (be : Lanes) (hi lo : Byte) (old : Nat → Byte) (o : Nat) : Byte :=
  if o = off ∧ hasHi be then hi else if o = off + 1 ∧ hasLo be then lo else old o

/-- The cycles of a storage kind store in region r, at even offsets, the lanes `lanes` of the enabled ones, the high one
as `hi` gives it and the low one verbatim. -/
def CycleStores (cycle : Nat → Lanes → Word → State → State) (r : Region) (lanes : Lanes → Word → Lanes)
    (hi : Nat → Word → Byte) : Prop :=
  ∀ (off : Nat) (be : Lanes) (d : Word) (s : State) (o : Nat), off % 2 = 0 →
    byteAt (cycle off be d s) r o = lanesStored off (lanes be d) (hi off d) (lowByte d) (byteAt s r) o

theorem byteAt_storeLanes_same (s : State) (r : Region) (off : Nat) (be : Lanes) (d : Word) (o : Nat) :
    byteAt (storeLanes s r off be d) r o = lanesStored off be (highByte d) (lowByte d) (byteAt s r) o := by
  simp [byteAt_storeLanes, lanesStored]

/-- A RAM cycle stores its lanes verbatim (41_bus_writes.md R164). -/
theorem writeCycleRam_stores : CycleStores writeCycleRam .wram (fun be _ => be) (fun _ d => highByte d) :=
  fun off be d s o _ => byteAt_storeLanes_same s .wram off be d o

/-- A video cycle of both lanes drops a high byte of 0xFF (41_bus_writes.md R165). -/
theorem writeCycleVideo_stores : CycleStores writeCycleVideo .vram videoLanes (fun _ d => highByte d) := by
  intro off be d s o _
  rw [writeCycleVideo, byteAt_markDirty, byteAt_storeLanes_same]

/-- A sprite cycle forces 0xFF into the high byte at a multiple of 4 (41_bus_writes.md R166). -/
theorem writeCycleSprite_stores : CycleStores writeCycleSprite .sprram (fun be _ => be)
    (fun off d => if off % 4 = 0 then 0xFF else highByte d) := by
  intro off be d s o heven
  have hbit : off.testBit 1 = decide (off % 4 ≠ 0) := by
    rw [Nat.testBit_eq_decide_div_mod_eq]
    exact decide_eq_decide.2 (by omega)
  rw [writeCycleSprite, byteAt_storeLanes_same, spriteData, hbit]
  by_cases h : off % 4 = 0 <;> simp [h]

/-- A palette cycle stores its lanes and puts the old bytes of the others back (41_bus_writes.md R167). -/
theorem writeCyclePalette_stores : CycleStores writeCyclePalette .palram (fun be _ => be) (fun _ d => highByte d) := by
  intro off be d s o _
  rw [writeCyclePalette, byteAt_setRgb, byteAt_storeLanes_same, mergeLanes, wordAt]
  by_cases h0 : o = off
  · subst h0
    cases be <;> simp [lanesStored, hasHi, hasLo]
  · by_cases h1 : o = off + 1
    · subst h1
      cases be <;> simp [lanesStored, hasHi, hasLo]
    · simp [lanesStored, h0, h1]

/-! The storage kinds, at each width. -/

/-- The lane of an 8-bit write (20_memory.md R63). -/
def byteLane (a : Addr) : Lanes := if a.toNat % 2 = 1 then .lo else .hi

/-- The data of an 8-bit write's one cycle, on its lane (20_memory.md R65). -/
def byteData (a : Addr) (v : Long) : Word :=
  if a.toNat % 2 = 1 then 0#8 ++ v.extractLsb' 0 8 else v.extractLsb' 0 8 ++ 0#8

/-- An 8-bit write is one cycle on the lane of its address. -/
theorem writeCycles_w8 (cycle : Nat → Lanes → Word → State → State) (a : Addr) (v : Long) {e : MapEntry} (s : State)
    (hi : insideEntry e (evenAddr a) = true) :
    writeCycles cycle .w8 a v e s = cycle (entryOffset e (evenAddr a)) (byteLane a) (byteData a v) s := by
  rcases Nat.mod_two_eq_zero_or_one a.toNat with h | h
  · rw [writeCycles_w8_even cycle a v s hi h]
    simp [byteLane, byteData, h]
  · rw [writeCycles_w8_odd cycle a v s hi h]
    simp [byteLane, byteData, h]

/-- The lane of a byte is at the byte's own offset. -/
theorem lanesStored_byteLane (off : Nat) (a : Addr) (hi lo : Byte) (old : Nat → Byte) (o : Nat) :
    lanesStored off (byteLane a) hi lo old o =
      if o = off + a.toNat % 2 then (if a.toNat % 2 = 1 then lo else hi) else old o := by
  rcases Nat.mod_two_eq_zero_or_one a.toNat with h | h <;> simp [lanesStored, byteLane, h, hasHi, hasLo]

section Stores

variable {cycle : Nat → Lanes → Word → State → State} {r : Region} {lanes : Lanes → Word → Lanes}
  {hi : Nat → Word → Byte} (hcycle : CycleStores cycle r lanes hi)
  {vr : Variant} {a : Addr} {e : MapEntry} (hc : configCheck vr = none) (hregion : storageRegion e.kind = some r)
include hcycle hc hregion

/-- The one byte of an 8-bit write, where no quirk masks its lane. -/
theorem byteAt_writeCycles_w8 (hfound : lookup vr.wmap a = some e) (v : Long)
    (hlane : ∀ d, lanes (byteLane a) d = byteLane a) (s : State) (o : Nat) :
    byteAt (writeCycles cycle .w8 a v e s) r o =
      if o = e.base.toNat + (a.toNat - e.start.toNat) then
        (if a.toNat % 2 = 1 then v.extractLsb' 0 8 else hi (entryOffset e (evenAddr a)) (v.extractLsb' 0 8 ++ 0#8))
      else byteAt s r o := by
  rw [writeCycles_w8 _ _ _ _ (found_inside (.inr rfl) hc hfound),
    hcycle _ _ _ _ _ (found_offset_even (.inr rfl) hc hfound hregion), hlane, lanesStored_byteLane,
    found_byteOffset (.inr rfl) hc hfound]
  rcases Nat.mod_two_eq_zero_or_one a.toNat with h | h <;> simp [byteData, h]

variable (hfound : lookup vr.wmap (evenAddr a) = some e)
include hfound

/-- The two bytes of a 16-bit write. -/
theorem byteAt_writeCycles_w16 (v : Long) (s : State) (o : Nat) :
    byteAt (writeCycles cycle .w16 a v e s) r o =
      lanesStored (entryOffset e (evenAddr a)) (lanes .both (v.extractLsb' 0 16))
        (hi (entryOffset e (evenAddr a)) (v.extractLsb' 0 16)) (v.extractLsb' 0 8) (byteAt s r) o := by
  have hinside : insideEntry e (evenAddr a) = true := by simpa using found_inside (.inr rfl) hc hfound
  have heven : entryOffset e (evenAddr a) % 2 = 0 := by simpa using found_offset_even (.inr rfl) hc hfound hregion
  rw [writeCycles_w16 _ _ _ _ hinside, hcycle _ _ _ _ _ heven, lowByte_lowWord]

/-- The four bytes of a 32-bit write: the second cycle reaches none of the first one's, and is dropped outside the
entry. -/
theorem byteAt_writeCycles_w32 (v : Long) (s : State) (o : Nat) {off off2 : Nat} {second : Bool} {l l2 : Lanes}
    (hoff : off = entryOffset e (evenAddr a)) (hoff2 : off2 = entryOffset e (evenAddr a + 2))
    (hsecond : second = insideEntry e (evenAddr a + 2)) (hl : l = lanes .both (v.extractLsb' 16 16))
    (hl2 : l2 = lanes .both (v.extractLsb' 0 16)) :
    byteAt (writeCycles cycle .w32 a v e s) r o =
      if o = off ∧ hasHi l then hi off (v.extractLsb' 16 16)
      else if o = off + 1 ∧ hasLo l then v.extractLsb' 16 8
      else if second ∧ o = off2 ∧ hasHi l2 then hi off2 (v.extractLsb' 0 16)
      else if second ∧ o = off2 + 1 ∧ hasLo l2 then v.extractLsb' 0 8
      else byteAt s r o := by
  have hinside : insideEntry e (evenAddr a) = true := by simpa using found_inside (.inr rfl) hc hfound
  have heven : off % 2 = 0 := by simpa [hoff] using found_offset_even (.inr rfl) hc hfound hregion
  rw [writeCycles_w32 _ _ _ _ hinside, ← hsecond, ← hoff, ← hoff2]
  dsimp only
  cases second with
  | false => simp [hcycle _ _ _ _ _ heven, lanesStored, ← hl]
  | true =>
    have hinside2 : insideEntry e (evenAddr (evenAddr a) + 2) = true := by rw [evenAddr_evenAddr, ← hsecond]
    have heven2 : off2 % 2 = 0 := by simpa [hoff2] using found_second_even (.inr rfl) hc hfound hregion hinside2
    have hne : off2 ≠ off := by
      simpa [hoff, hoff2] using (found_second_disjoint (.inr rfl) hc hfound hinside2).1
    rw [if_pos rfl, hcycle _ _ _ _ _ heven2, ← hl2, lanesStored, hcycle _ _ _ _ _ heven, ← hl, lanesStored]
    simp only [lowByte_lowWord, lowByte_highWord, true_and]
    split_ifs <;> first | rfl | omega

end Stores

/-! Work RAM. -/

theorem exec_wrRam_found {s : State} {w : Width} {a : Addr} (v : Long) {e : MapEntry} (hs : Accepting s)
    (hfound : lookup s.variant.wmap (busAddr w a) = some e) (hkind : e.kind = kindCode .ram) :
    ∃ t, exec (.wrRam w a v) s = .next t ∧ t = { s with wram := t.wram, rdata := none } ∧
      t = writeCycles writeCycleRam w a v e (noReply s) := by
  refine ⟨_, by rw [exec_wrRam, writeEntry_found _ hs hfound hkind], ?_, rfl⟩
  obtain ⟨m, hm⟩ := writeCycles_ram_eq w a v e (noReply s)
  rw [hm]
  rfl

/-- Settles O20. -/
theorem ramWriteStoresTheBytes : Obligations.RamWriteStoresTheBytes := by
  intro s a v e hs hc hkind
  have hregion : storageRegion e.kind = some .wram := by rw [hkind]; rfl
  refine ⟨fun hfound => ?_, fun hfound => ?_, fun hfound => ?_⟩
  · obtain ⟨t, hexec, hframe, ht⟩ := exec_wrRam_found (w := .w8) v hs hfound hkind
    refine ⟨t, hexec, hframe, fun o => ?_⟩
    rw [ht, byteAt_writeCycles_w8 writeCycleRam_stores hc hregion hfound v (fun _ => rfl)]
    simp
  · obtain ⟨t, hexec, hframe, ht⟩ := exec_wrRam_found (w := .w16) v hs hfound hkind
    refine ⟨t, hexec, hframe, fun o => ?_⟩
    rw [ht, byteAt_writeCycles_w16 writeCycleRam_stores hc hregion hfound]
    simp [lanesStored, hasHi, hasLo, evenAddr]
  · obtain ⟨t, hexec, hframe, ht⟩ := exec_wrRam_found (w := .w32) v hs hfound hkind
    refine ⟨t, hexec, hframe, fun o => ?_⟩
    rw [ht, byteAt_writeCycles_w32 writeCycleRam_stores hc hregion hfound v _ o rfl rfl rfl rfl rfl]
    simp [hasHi, hasLo, evenAddr]

/-! Sprite memory. -/

theorem exec_wrSprite_found {s : State} {w : Width} {a : Addr} (v : Long) {e : MapEntry} (hs : Accepting s)
    (hfound : lookup s.variant.wmap (busAddr w a) = some e) (hkind : e.kind = kindCode .sprite) :
    ∃ t, exec (.wrSprite w a v) s = .next t ∧ t = { s with sprram := t.sprram, rdata := none } ∧
      t = writeCycles writeCycleSprite w a v e (noReply s) := by
  refine ⟨_, by rw [exec_wrSprite, writeEntry_found _ hs hfound hkind], ?_, rfl⟩
  obtain ⟨m, hm⟩ := writeCycles_sprite_eq w a v e (noReply s)
  rw [hm]
  rfl

/-- Settles O23. -/
theorem spriteWriteForcesTheAttributeByte : Obligations.SpriteWriteForcesTheAttributeByte := by
  intro s a v e hs hc hkind
  have hregion : storageRegion e.kind = some .sprram := by rw [hkind]; rfl
  refine ⟨fun hfound => ?_, fun hfound => ?_, fun hfound => ?_⟩
  · obtain ⟨t, hexec, hframe, ht⟩ := exec_wrSprite_found (w := .w8) v hs hfound hkind
    refine ⟨t, hexec, hframe, fun o => ?_⟩
    have hbyte := found_byteOffset (.inr rfl) hc hfound
    have heven := found_offset_even (.inr rfl) hc hfound hregion
    rw [ht, byteAt_writeCycles_w8 writeCycleSprite_stores hc hregion hfound v (fun _ => rfl), byteAt_noReply]
    by_cases ho : o = e.base.toNat + (a.toNat - e.start.toNat)
    · rw [if_pos ho, if_pos ho]
      rcases Nat.mod_two_eq_zero_or_one a.toNat with h | h
      · rw [if_neg (by omega), show o = entryOffset e (evenAddr a) by omega, highByte_append]
      · rw [if_pos h, if_neg (by omega)]
    · rw [if_neg ho, if_neg ho]
  · obtain ⟨t, hexec, hframe, ht⟩ := exec_wrSprite_found (w := .w16) v hs hfound hkind
    refine ⟨t, hexec, hframe, fun o => ?_⟩
    rw [ht, byteAt_writeCycles_w16 writeCycleSprite_stores hc hregion hfound]
    simp only [lanesStored, hasHi, hasLo, and_true, highByte_lowWord, byteAt_noReply]
    rw [show a &&& 0xFFFFFE = evenAddr a from rfl]
    grind
  · obtain ⟨t, hexec, hframe, ht⟩ := exec_wrSprite_found (w := .w32) v hs hfound hkind
    refine ⟨t, hexec, hframe, fun o => ?_⟩
    rw [ht, byteAt_writeCycles_w32 writeCycleSprite_stores hc hregion hfound v _ o rfl rfl rfl rfl rfl]
    simp only [hasHi, hasLo, and_true, highByte_lowWord, highByte_highWord, byteAt_noReply]
    rw [show a &&& 0xFFFFFE = evenAddr a from rfl]
    grind

/-! Video memory. -/

theorem exec_wrVideo_found {s : State} {w : Width} {a : Addr} (v : Long) {e : MapEntry} (hs : Accepting s)
    (hfound : lookup s.variant.wmap (busAddr w a) = some e) (hkind : e.kind = kindCode .video) :
    ∃ t, exec (.wrVideo w a v) s = .next t ∧ t = { s with vram := t.vram, dirty := t.dirty, rdata := none } ∧
      t = writeCycles writeCycleVideo w a v e (noReply s) := by
  refine ⟨_, by rw [exec_wrVideo, writeEntry_found _ hs hfound hkind], ?_, rfl⟩
  obtain ⟨m, d, hm⟩ := writeCycles_video_eq w a v e (noReply s)
  rw [hm]
  rfl

/-- A video cycle marks the cell of its offset, whatever it stores (41_bus_writes.md R165). -/
theorem writeCycleVideo_dirty (off : Nat) (be : Lanes) (d : Word) (s : State) (c : Nat) :
    bitAt (writeCycleVideo off be d s).dirty c = (bitAt s.dirty c || decide (c = off / 4)) := by
  simp [writeCycleVideo, eq_comm]

/-- The lanes of a cycle of both: the high one is stored unless it is 0xFF. -/
theorem videoLanes_both (d : Word) : (hasHi (videoLanes .both d) = true ↔ highByte d ≠ 0xFF) ∧
    hasLo (videoLanes .both d) = true := by
  by_cases h : highByte d = 0xFF
  · simp [videoLanes, h, hasHi, hasLo]
  · rw [videoLanes, if_neg fun hd => h hd.2]
    exact ⟨iff_of_true rfl h, rfl⟩

theorem videoLanes_byteLane (a : Addr) (d : Word) : videoLanes (byteLane a) d = byteLane a := by
  unfold videoLanes byteLane
  split_ifs <;> simp_all

/-- Settles O21. -/
theorem videoWriteStoresAndMarksTheCell : Obligations.VideoWriteStoresAndMarksTheCell := by
  intro s a v e hs hc hkind
  have hregion : storageRegion e.kind = some .vram := by rw [hkind]; rfl
  refine ⟨fun hfound => ?_, fun hfound => ?_⟩
  · obtain ⟨t, hexec, hframe, ht⟩ := exec_wrVideo_found (w := .w8) v hs hfound hkind
    have hbyte := found_byteOffset (.inr rfl) hc hfound
    have heven := found_offset_even (.inr rfl) hc hfound hregion
    refine ⟨t, hexec, hframe, fun o => ?_, fun c => ?_⟩
    · rw [ht, byteAt_writeCycles_w8 writeCycleVideo_stores hc hregion hfound v (videoLanes_byteLane a)]
      simp
    · rw [ht, writeCycles_w8 _ _ _ _ (found_inside (.inr rfl) hc hfound), writeCycleVideo_dirty, noReply_dirty, hbyte,
        show (entryOffset e (evenAddr a) + a.toNat % 2) / 4 = entryOffset e (evenAddr a) / 4 by omega]
  · obtain ⟨t, hexec, hframe, ht⟩ := exec_wrVideo_found (w := .w16) v hs hfound hkind
    have hinside : insideEntry e (evenAddr a) = true := by
      simpa using found_inside (a := evenAddr a) (.inr rfl) hc hfound
    refine ⟨t, hexec, hframe, fun o => ?_, fun c => ?_⟩
    · rw [ht, byteAt_writeCycles_w16 writeCycleVideo_stores hc hregion hfound, lanesStored]
      simp only [videoLanes_both, highByte_lowWord, and_true]
      rfl
    · rw [ht, writeCycles_w16 _ _ _ _ hinside, writeCycleVideo_dirty]
      rfl

/-- Settles O22. -/
theorem videoLongWriteIsTwoCycles : Obligations.VideoLongWriteIsTwoCycles := by
  intro s a v e off off2 second hs hc hkind hfound hoff hoff2 hsecond
  have hregion : storageRegion e.kind = some .vram := by rw [hkind]; rfl
  have hinside : insideEntry e (evenAddr a) = true := by
    simpa using found_inside (a := evenAddr a) (.inr rfl) hc hfound
  obtain ⟨t, hexec, hframe, ht⟩ := exec_wrVideo_found (w := .w32) v hs hfound hkind
  refine ⟨t, hexec, hframe, fun o => ?_, fun c => ?_⟩
  · rw [ht, byteAt_writeCycles_w32 writeCycleVideo_stores hc hregion hfound v _ o hoff hoff2 hsecond rfl rfl]
    simp only [videoLanes_both, highByte_lowWord, highByte_highWord, and_true, byteAt_noReply]
  · rw [ht, writeCycles_w32 _ _ _ _ hinside, show entryOffset e (evenAddr a) = off from hoff.symm,
      show insideEntry e (evenAddr a + 2) = second from hsecond.symm,
      show entryOffset e (evenAddr a + 2) = off2 from hoff2.symm]
    dsimp only
    cases second <;> simp [writeCycleVideo_dirty]

/-! Palette memory. -/

theorem exec_wrPalette_found {s : State} {w : Width} {a : Addr} (v : Long) {e : MapEntry} (hs : Accepting s)
    (hfound : lookup s.variant.wmap (busAddr w a) = some e) (hkind : e.kind = kindCode .palette) :
    ∃ t, exec (.wrPalette w a v) s = .next t ∧ t = { s with palram := t.palram, palrgb := t.palrgb, rdata := none } ∧
      t = writeCycles writeCyclePalette w a v e (noReply s) := by
  refine ⟨_, by rw [exec_wrPalette, writeEntry_found _ hs hfound hkind], ?_, rfl⟩
  obtain ⟨m, p, hm⟩ := writeCycles_palette_eq w a v e (noReply s)
  rw [hm]
  rfl

/-- A palette cycle expands the word it stores into the triple of its entry (41_bus_writes.md R167). -/
theorem rgbAt_writeCyclePalette (off : Nat) (be : Lanes) (d : Word) (s : State) (i : Nat) :
    rgbAt (writeCyclePalette off be d s) i =
      if i = off / 2 then materialize s.variant (mergeLanes (wordAt s .palram off) be d) else rgbAt s i := by
  rw [writeCyclePalette, rgbAt_setRgb]
  simp [rgbAt]

theorem mergeLanes_both (old d : Word) : mergeLanes old .both d = d := by
  simp [mergeLanes, hasHi, hasLo, highByte_append_lowByte]

/-- The triples after a 32-bit palette write: its two cycles touch two different entries. -/
theorem rgbAt_writeCycles_palette_w32 {vr : Variant} {a : Addr} {e : MapEntry} (hc : configCheck vr = none)
    (hfound : lookup vr.wmap (evenAddr a) = some e) (hregion : storageRegion e.kind = some .palram) (v : Long) (s : State)
    (i : Nat) : rgbAt (writeCycles writeCyclePalette .w32 a v e s) i =
      if i = entryOffset e (evenAddr a) / 2 then materialize s.variant (v.extractLsb' 16 16)
      else if insideEntry e (evenAddr a + 2) ∧ i = entryOffset e (evenAddr a + 2) / 2 then
        materialize s.variant (v.extractLsb' 0 16)
      else rgbAt s i := by
  have hinside : insideEntry e (evenAddr a) = true := by
    simpa using found_inside (a := evenAddr a) (.inr rfl) hc hfound
  rw [writeCycles_w32 _ _ _ _ hinside]
  dsimp only
  by_cases hsecond : insideEntry e (evenAddr a + 2) = true
  · have hinside2 : insideEntry e (evenAddr (evenAddr a) + 2) = true := by rwa [evenAddr_evenAddr]
    have heven : entryOffset e (evenAddr a) % 2 = 0 := by
      simpa using found_offset_even (a := evenAddr a) (.inr rfl) hc hfound hregion
    have heven2 : entryOffset e (evenAddr a + 2) % 2 = 0 := by
      simpa using found_second_even (a := evenAddr a) (.inr rfl) hc hfound hregion hinside2
    have hne : entryOffset e (evenAddr a + 2) ≠ entryOffset e (evenAddr a) := by
      simpa using (found_second_disjoint (a := evenAddr a) (.inr rfl) hc hfound hinside2).1
    have hvar : (writeCyclePalette (entryOffset e (evenAddr a)) .both (v.extractLsb' 16 16) s).variant = s.variant := by
      simp [writeCyclePalette]
    rw [if_pos hsecond, rgbAt_writeCyclePalette, rgbAt_writeCyclePalette, mergeLanes_both, mergeLanes_both, hvar]
    by_cases hi : i = entryOffset e (evenAddr a + 2) / 2
    · rw [if_pos hi, if_neg (by omega), if_pos ⟨hsecond, hi⟩]
    · simp only [hi, if_false, and_false]
  · simp only [hsecond, if_false, Bool.false_eq_true, false_and, rgbAt_writeCyclePalette, mergeLanes_both]

/-! The fields of a palette word. -/

theorem palFields_fields555 {v : Variant} (hv : v.palFields = .fields555) (x : Word) :
    (palFields v x).r.toNat = x.toNat % 32 ∧ (palFields v x).g.toNat = x.toNat / 32 % 32 ∧
      (palFields v x).b.toNat = x.toNat / 1024 % 32 := by
  simp [palFields, hv, Nat.shiftRight_eq_div_pow]

/-- The word 0 is black under every layout (30_encoding.md R112). -/
theorem palFields_zero (v : Variant) : palFields v 0 = ⟨0, 0, 0⟩ := by
  unfold palFields
  split
  · decide
  · decide
  · rw [meetingExamples, if_pos rfl]

/-- The R field of another layout is never empty (log 2). -/
theorem redField_other_ne_zero (k : Nat) (rField : Word) : redField (.other k rField) ≠ 0 := by
  by_cases h : rField = 0#16
  · simp [redField, h]
  · simp [redField, h]

/-- A bit of a mask is set in every word that has the whole mask. -/
theorem getLsbD_of_and_eq {x m : Word} (h : x &&& m = m) {i : Nat} (hi : m.getLsbD i = true) : x.getLsbD i = true := by
  have := congrArg (BitVec.getLsbD · i) h
  simp only [BitVec.getLsbD_and, hi, Bool.and_true] at this
  exact this

/-- A field all of whose bits are set. -/
theorem extractLsb'_eq_allOnes {x : Word} {p n : Nat} (h : ∀ i, i < n → x.getLsbD (p + i) = true) :
    x.extractLsb' p n = BitVec.allOnes n := by
  apply BitVec.eq_of_getLsbD_eq
  intro i hi
  rw [BitVec.getLsbD_extractLsb', h i hi, BitVec.getLsbD_allOnes, Bool.and_true]

/-- An all-ones R field is r5 = 0x1F under every layout (30_encoding.md R112). -/
theorem palFields_red {v : Variant} {x : Word} (h : x &&& redField v.palFields = redField v.palFields) :
    (palFields v x).r = 0x1F := by
  unfold palFields
  cases hl : v.palFields with
  | fields555 =>
    rw [hl] at h
    have hmask : ∀ i, i < 5 → (redField .fields555).getLsbD (0 + i) = true := by decide
    exact extractLsb'_eq_allOnes fun i hi => getLsbD_of_and_eq h (hmask i hi)
  | fields444low =>
    rw [hl] at h
    have hmask : ∀ i, i < 4 → (redField .fields444low).getLsbD (8 + i) = true := by decide
    have hmask' : ∀ i, i < 1 → (redField .fields444low).getLsbD (14 + i) = true := by decide
    change x.extractLsb' 8 4 ++ x.extractLsb' 14 1 = _
    rw [extractLsb'_eq_allOnes fun i hi => getLsbD_of_and_eq h (hmask i hi),
      extractLsb'_eq_allOnes fun i hi => getLsbD_of_and_eq h (hmask' i hi)]
    rfl
  | other k rField =>
    rw [hl] at h
    have hx : x ≠ 0 := by
      rintro rfl
      exact redField_other_ne_zero k rField (by simpa using h.symm)
    change (meetingExamples _ _ x).r = 0x1F
    rw [meetingExamples, if_neg hx, if_pos h]

/-- Settles O24: the entries a write touches are in sync after it, and every other triple is left alone. -/
theorem paletteWriteMergesAndMaterializes : Obligations.PaletteWriteMergesAndMaterializes := by
  refine ⟨fun s a v e hs hc hkind => ?_, fun v =>
    ⟨palFields_fields555, palFields_zero v, fun hv => by rw [hv]; rfl, fun _ => palFields_red⟩⟩
  have hregion : storageRegion e.kind = some .palram := by rw [hkind]; rfl
  refine ⟨fun hfound => ?_, fun hfound => ?_, fun hfound => ?_⟩
  · obtain ⟨t, hexec, hframe, ht⟩ := exec_wrPalette_found (w := .w8) v hs hfound hkind
    have hvar : t.variant = s.variant := by rw [hframe]
    have hentry : (e.base.toNat + (a.toNat - e.start.toNat)) / 2 = entryOffset e (evenAddr a) / 2 := by
      have := found_byteOffset (.inr rfl) hc hfound
      have := found_offset_even (.inr rfl) hc hfound hregion
      omega
    refine ⟨t, hexec, hframe, fun o => ?_, fun i => ?_⟩
    · rw [ht, byteAt_writeCycles_w8 writeCyclePalette_stores hc hregion hfound v (fun _ => rfl)]
      simp
    · rw [hentry]
      split_ifs with hi
      · have hsync := (writeCycles_palette_syncs (w := .w8) (x := v) (noReply s) hc hfound hkind).1
        rw [← ht, ← hi, EntryInSync, hvar] at hsync
        exact hsync
      · rw [ht, writeCycles_w8 _ _ _ _ (found_inside (.inr rfl) hc hfound), rgbAt_writeCyclePalette, if_neg hi]
        rfl
  · obtain ⟨t, hexec, hframe, ht⟩ := exec_wrPalette_found (w := .w16) v hs hfound hkind
    have hinside : insideEntry e (evenAddr a) = true := by
      simpa using found_inside (a := evenAddr a) (.inr rfl) hc hfound
    refine ⟨t, hexec, hframe, fun o => ?_, fun i => ?_⟩
    · rw [ht, byteAt_writeCycles_w16 writeCyclePalette_stores hc hregion hfound, lanesStored]
      simp [hasHi, hasLo, evenAddr]
    · rw [ht, writeCycles_w16 _ _ _ _ hinside, rgbAt_writeCyclePalette, mergeLanes_both]
      rfl
  · obtain ⟨t, hexec, hframe, ht⟩ := exec_wrPalette_found (w := .w32) v hs hfound hkind
    refine ⟨t, hexec, hframe, fun o => ?_, fun i => ?_⟩
    · rw [ht, byteAt_writeCycles_w32 writeCyclePalette_stores hc hregion hfound v _ o rfl rfl rfl rfl rfl]
      simp [hasHi, hasLo, evenAddr]
    · rw [ht, rgbAt_writeCycles_palette_w32 hc hfound hregion]
      rfl

end Sys2Proof.Machine
end

section
/-! The data formats in arithmetic: tile decode of variant A, the fields of a sprite row, and sprite positions
(30_encoding.md §3, 42_frame_compositor.md §5). -/

namespace Sys2Proof.Machine

/-- Settles O33. -/
theorem tileDecodeAJoinsTheNibble : Obligations.TileDecodeAJoinsTheNibble := by
  intro t a
  refine ⟨?_, ?_⟩
  · have htile : (decodeCell .a t a).tile.toNat = 2 ^ 8 * (a.toNat >>> 4 % 2 ^ 4) + t.toNat >>> 0 % 2 ^ 8 := by
      rw [← BitVec.extractLsb'_toNat, ← BitVec.extractLsb'_toNat]
      exact toNat_append_eq_add _ _
    rw [htile, Nat.shiftRight_eq_div_pow, Nat.shiftRight_zero]
    omega
  · exact BitVec.extractLsb'_toNat ..

/-- Settles O34, by the two flip modes. -/
theorem spriteRowFields : Obligations.SpriteRowFields := by
  intro v f b cw tw
  refine ⟨BitVec.extractLsb'_toNat .., fun hmode => ?_, fun hmode => ?_⟩
  · simp [unpackRow, tileWordFields, hmode]
  · cases f <;> simp [unpackRow, tileWordFields, hmode]

/-! Sprite positions. -/

/-- A wrapped position is its raw value, up to a multiple of 512, in the 512 places from -256 on
(42_frame_compositor.md R207). -/
theorem wrapPosition_spec (raw : Nat) :
    -256 ≤ wrapPosition raw ∧ wrapPosition raw ≤ 255 ∧ (wrapPosition raw - raw) % 512 = 0 := by
  unfold wrapPosition
  omega

theorem wrapPosition_add_512 (raw : Nat) : wrapPosition (raw + 512) = wrapPosition raw := by
  unfold wrapPosition
  omega

/-- The bias of the Y axis cancels: what is left is the negation. -/
theorem wrapPositionY_eq_neg (raw : Nat) : wrapPositionY raw = -wrapPosition raw := by
  unfold wrapPositionY
  dsimp only
  omega

theorem sprPosFields_reference {v : Variant} (hv : v.sprPos = .reference) (xw yw : Word) :
    sprPosFields v xw yw = (xw.toNat % 256 * 16 + yw.toNat / 4096, yw.toNat) := by
  have hx : (xw.extractLsb' 0 8 ++ yw.extractLsb' 12 4).toNat = xw.toNat % 256 * 16 + yw.toNat / 4096 := by
    have hy : yw.toNat < 2 ^ 16 := yw.isLt
    rw [toNat_append_eq_add, BitVec.extractLsb'_toNat, BitVec.extractLsb'_toNat, Nat.shiftRight_zero,
      Nat.shiftRight_eq_div_pow]
    omega
  rw [sprPosFields, hv]
  exact Prod.ext hx rfl

/-- Settles O35. -/
theorem spritePositionsWrapAndFlip : Obligations.SpritePositionsWrapAndFlip := by
  refine ⟨fun raw => ?_, fun v xw yw => ⟨fun hv => sprPosFields_reference hv xw yw, rfl, rfl, ?_⟩⟩
  · obtain ⟨hlow, hhigh, hmod⟩ := wrapPosition_spec raw
    rw [wrapPositionY_eq_neg, wrapPositionY_eq_neg, wrapPosition_add_512]
    exact ⟨hlow, hhigh, rfl, by omega, by omega, rfl, rfl, hmod⟩
  · obtain ⟨hxlow, hxhigh, -⟩ := wrapPosition_spec (sprPosFields v xw yw).1
    obtain ⟨hylow, hyhigh, -⟩ := wrapPosition_spec (sprPosFields v xw yw).2
    simp only [spritePos, flipCoordinate, if_true, wrapPositionY_eq_neg]
    omega

end Sys2Proof.Machine
end

section
/-! TCUPD, PVIS and PCHG (42_frame_compositor.md §2, §3): the decode cache after the dirty cells are decoded, and which
visibility bits the shown rows set. -/

namespace Sys2Proof.Machine

/-! TCUPD. -/

/-- Settles O36. -/
theorem tileUpdateRefreshesDirtyCells : Obligations.TileUpdateRefreshesDirtyCells := by
  intro s
  refine ⟨updateTiles s, rfl, rfl, fun c hc => ⟨by simp only [updateTiles_clears, hc]; simp, ?_⟩, fun c hc => ⟨?_, ?_⟩,
    updateTiles_keeps_clean⟩
  · simp only [updateTiles_decodes, hc, true_and]
    rfl
  · simp only [updateTiles_clears, hc]
    simp
  · simp only [updateTiles_decodes, hc, false_and, if_false]

/-! PVIS. -/

/-- A loop whose every turn sets the bits P of its element sets those of all. -/
theorem bitAt_foldl {β : Type} {f : Nat → β → Nat} {P : β → Prop} {j : Nat}
    (hf : ∀ m b, bitAt (f m b) j = true ↔ bitAt m j = true ∨ P b) (l : List β) (m : Nat) :
    bitAt (l.foldl f m) j = true ↔ bitAt m j = true ∨ ∃ b ∈ l, P b := by
  induction l generalizing m with
  | nil => simp
  | cons b rest ih => rw [List.foldl_cons, ih, hf]; simp [or_assoc]

/-- Row i of a slot makes a palette index visible: it is shown, and the index is that of a pen its tile uses
(42_frame_compositor.md R194). -/
def RowMarks (s : State) (sl : Slot) (i j : Nat) : Prop :=
  rowShown s.variant (spriteRow s sl i) = true ∧
    ∃ p, p < 16 ∧ (penUseAt s (spriteRow s sl i).tile).getLsbD p = true ∧
      j = paletteIndex s.variant.sprPalBase (spriteRow s sl i).colour.toNat p

theorem bitAt_markRow (s : State) (sl : Slot) (vis i j : Nat) :
    bitAt (markRow s sl vis i) j = true ↔ bitAt vis j = true ∨ RowMarks s sl i j := by
  unfold markRow RowMarks
  dsimp only
  split_ifs with hshown
  · rw [bitAt_foldl (P := fun p => (penUseAt s (spriteRow s sl i).tile).getLsbD p = true ∧
      j = paletteIndex s.variant.sprPalBase (spriteRow s sl i).colour.toNat p)]
    · simp [hshown, pensPerColour]
    · intro m p
      split_ifs with hpen <;> simp [hpen, eq_comm (a := j)]
  · simp [hshown]

theorem mem_slotsOf {banks : List Nat} {sl : Slot} :
    sl ∈ slotsOf banks ↔ sl.bank ∈ banks ∧ sl.half < 2 ∧ sl.index < 32 := by
  obtain ⟨b, h, n⟩ := sl
  simp [slotsOf, halvesPerBank, slotsPerHalf]

/-- The bits PVIS sets. -/
theorem bitAt_visibility (s : State) (j : Nat) : bitAt (visibility s) j = true ↔
    j = s.variant.transparentSlot ∨ ∃ sl ∈ slotsOf s.variant.pvisBanks, ∃ i, i < 16 ∧ RowMarks s sl i j := by
  have hslot : ∀ vis sl, bitAt ((List.range rowsPerSlot).foldl (markRow s sl) vis) j = true ↔
      bitAt vis j = true ∨ ∃ i, i < 16 ∧ RowMarks s sl i j := by
    intro vis sl
    rw [bitAt_foldl fun m i => bitAt_markRow s sl m i j]
    simp [rowsPerSlot]
  rw [visibility, bitAt_setBit, Bool.or_eq_true, bitAt_foldl hslot]
  simp [or_comm, eq_comm (a := j)]

/-- A row is shown when its colour is not 0 and its tile number is in range (42_frame_compositor.md R194, R206). -/
theorem rowShown_iff {v : Variant} {r : SpriteRow} : rowShown v r = true ↔ r.colour ≠ 0 ∧ r.tile ≤ v.sprTileMax := by
  simp [rowShown]

/-- Settles O37: the slots and the rows of PVIS, spelled out. -/
theorem visibilityIsThePensOfShownRows : Obligations.VisibilityIsThePensOfShownRows := by
  intro s
  refine ⟨rebuildVisibility s, rfl, rfl, fun i => ?_⟩
  rw [rebuildVisibility_visb, bitAt_visibility]
  refine or_congr_right ⟨?_, ?_⟩
  · rintro ⟨⟨b, h, n⟩, hsl, j, hj, hshown, p, hp, hpen, rfl⟩
    obtain ⟨hb, hh, hn⟩ := mem_slotsOf.1 hsl
    obtain ⟨hcolour, htile⟩ := rowShown_iff.1 hshown
    exact ⟨b, hb, h, hh, n, hn, j, hj, _, rfl, hcolour, htile, p, hp, hpen, rfl⟩
  · rintro ⟨b, hb, h, hh, n, hn, j, hj, r, rfl, hcolour, htile, p, hp, hpen, rfl⟩
    exact ⟨⟨b, h, n⟩, mem_slotsOf.2 ⟨hb, hh, hn⟩, j, hj, rowShown_iff.2 ⟨hcolour, htile⟩, p, hp, hpen, rfl⟩

/-! PCHG. -/

/-- The palette changed when some visibility bit did (42_frame_compositor.md R196). -/
theorem paletteChanged_iff {m n : Nat} : paletteChanged m n = true ↔ ∃ i, bitAt m i ≠ bitAt n i := by
  rw [paletteChanged, bne_iff_ne, ← not_forall, not_iff_not]
  exact ⟨fun h _ => by rw [h], bitmap_ext⟩

/-- Settles O38. -/
theorem paletteChangeComparesTheTables : Obligations.PaletteChangeComparesTheTables :=
  fun s => ⟨applyPaletteChange s, rfl, rfl, paletteChanged_iff⟩

end Sys2Proof.Machine
end

section
/-! The planes (42_frame_compositor.md §4 to §6): a place of a plane shows the last pixel put on it, so what LAYER and FB
show follows from which pixels each cell, each row and each opaque place of the tile layer puts, and in which order. -/

namespace Sys2Proof.Machine

/-- An entry of a filled plane. -/
theorem planeFilled_get {α : Type} {v : Variant} {x y : Nat} (hx : x < v.fbW) (hy : y < v.fbH) (a : α) :
    (planeFilled v a)[planeIndex v x y]? = some a := by
  simp [planeFilled, planeIndex_lt hx hy]

/-! TREND. -/

/-- The pixels a cell puts: one for each opaque pixel of its tile, where the tile is in range (42_frame_compositor.md
R200). -/
theorem mem_tilePuts {s : State} {c : Nat} {q : Put (Option Nat)} :
    q ∈ tilePuts s c ↔ (tileAt s c).tile.toNat < s.variant.tileCount ∧
      ∃ px py, px < s.variant.tileW ∧ py < s.variant.tileH ∧
        tilePen s (tileAt s c).tile.toNat px py ≠ s.variant.tileTransparentPen ∧
        q = (tilePixelPos s.variant s.flip (cellPos s.variant c).1 (cellPos s.variant c).2 px py,
          some (paletteIndex s.variant.tilePalBase (tileAt s c).colour.toNat
            (tilePen s (tileAt s c).tile.toNat px py).toNat)) := by
  unfold tilePuts
  split_ifs with htile
  · simp only [List.mem_flatMap, Prod.exists, mem_cellPlaces, htile, true_and]
    refine exists_congr fun px => exists_congr fun py => ?_
    split_ifs with hpen <;> simp [hpen, and_assoc]
  · simp [htile]

/-- Different pixels of a cell fall on different places. -/
theorem tilePixelPos_inj {v : Variant} {flip : Bool} {cx cy px py px' py' : Nat}
    (h : tilePixelPos v flip cx cy px py = tilePixelPos v flip cx cy px' py') : px = px' ∧ py = py' := by
  unfold tilePixelPos at h
  cases flip <;> simp only [Bool.false_eq_true, if_false, if_true, Prod.mk.injEq] at h <;> omega

/-- Where a tile pixel falls, as two equations of coordinates (42_frame_compositor.md R202). -/
theorem tilePixelPos_eq_iff {v : Variant} {flip : Bool} {cx cy px py x y : Nat} :
    tilePixelPos v flip cx cy px py = ((x : Int), (y : Int)) ↔
      ∃ X Y : Nat, X = cx * v.tileW + px ∧ Y = cy * v.tileH + py ∧
        (x : Int) = (if flip then (v.fbW : Int) - 1 - X else X) ∧
        (y : Int) = (if flip then (v.fbH : Int) - 1 - Y else Y) := by
  have hpos : tilePixelPos v flip cx cy px py = (if flip then (v.fbW : Int) - 1 - (cx * v.tileW + px : Nat)
      else (cx * v.tileW + px : Nat), if flip then (v.fbH : Int) - 1 - (cy * v.tileH + py : Nat)
      else (cy * v.tileH + py : Nat)) := by
    cases flip <;> simp [tilePixelPos]
  rw [hpos, Prod.mk.injEq]
  constructor
  · rintro ⟨hx, hy⟩
    exact ⟨_, _, rfl, rfl, hx.symm, hy.symm⟩
  · rintro ⟨X, Y, rfl, rfl, hx, hy⟩
    exact ⟨hx.symm, hy.symm⟩

theorem layerAt_renderTiles {s : State} {x y : Nat} {o : Option Nat}
    (h : (renderedLayer s)[planeIndex s.variant x y]? = some o) : layerAt (renderTiles s) x y = o := by
  rw [layerAt, renderTiles_layer, renderTiles_variant, h, Option.getD_some]

/-- Settles O39: of the cells that put a pixel on a place, TREND draws the highest-numbered last. -/
theorem tileLayerShowsTheTopmostCell : Obligations.TileLayerShowsTheTopmostCell := by
  intro s
  refine ⟨renderTiles s, rfl, rfl, fun paints hpaints x y hx hy => ?_⟩
  have hput : ∀ c, c < s.variant.nCells → ∀ q ∈ tilePuts s c, q.1 = ((x : Int), (y : Int)) →
      ∃ px py, paints c px py x y := by
    intro c hc q hq hplace
    obtain ⟨htile, px, py, hpx, hpy, hpen, rfl⟩ := mem_tilePuts.1 hq
    exact ⟨px, py, (hpaints ..).2 ⟨hc, htile, hpx, hpy, hpen, tilePixelPos_eq_iff.1 hplace⟩⟩
  refine ⟨fun hnone => layerAt_renderTiles ?_, fun c px py hp htop => layerAt_renderTiles ?_⟩
  · rw [renderedLayer_eq, putAll_miss (planeFilled_size ..) hx hy, planeFilled_get hx hy]
    intro q hq hplace
    obtain ⟨c, hc, hq⟩ := List.mem_flatMap.1 hq
    obtain ⟨px, py, hp⟩ := hput c (List.mem_range.1 hc) q hq hplace
    exact hnone c px py hp
  · obtain ⟨hc, htile, hpx, hpy, hpen, hplace⟩ := (hpaints ..).1 hp
    rw [renderedLayer_eq, range_split hc]
    refine putAll_lastTurn (planeFilled_size ..) hx hy
      ⟨_, mem_tilePuts.2 ⟨htile, px, py, hpx, hpy, hpen, rfl⟩, tilePixelPos_eq_iff.2 hplace⟩ ?_ ?_
    · intro q hq hsame
      obtain ⟨-, px', py', -, -, -, rfl⟩ := mem_tilePuts.1 hq
      obtain ⟨rfl, rfl⟩ := tilePixelPos_inj (hsame.trans (tilePixelPos_eq_iff.2 hplace).symm)
      rfl
    · intro c' hc' q hq hsame
      obtain ⟨k, hk, rfl⟩ := List.mem_map.1 hc'
      have hk := List.mem_range.1 hk
      obtain ⟨px', py', hp'⟩ := hput (c + 1 + k) (by omega) q hq hsame
      exact htop _ px' py' (by omega) hp'

/-! SREND. -/

/-- The row as SREND draws it: its flips are complemented when the screen is flipped (42_frame_compositor.md R209). -/
def drawnRow (s : State) (sl : Slot) (j : Nat) : SpriteRow := flippedRow s.flip (spriteRow s sl j)

/-- The place of the upper left pixel of a row (42_frame_compositor.md R206, R210). -/
def rowPlace (s : State) (sl : Slot) (j : Nat) : Int × Int :=
  let pos := spritePos s.variant s.flip (wordAt s .sprram (slotBase sl)) (wordAt s .sprram (slotBase sl + 2))
  (pos.1, rowY s.flip pos.2 j)

/-- The pen of a pixel of a row, at its flipped source place (42_frame_compositor.md R211). -/
def rowPen (s : State) (sl : Slot) (j px py : Nat) : Pen :=
  spritePen s (drawnRow s sl j).tile (flipSource (drawnRow s sl j).fx px) (flipSource (drawnRow s sl j).fy py)

/-- The pixels a row puts: one for each opaque pixel inside the clip rectangle, where the row is shown
(42_frame_compositor.md R206, R211). -/
theorem mem_rowPuts {s : State} {sl : Slot} {j : Nat} {q : Put Nat} :
    q ∈ rowPuts s sl j ↔ rowShown s.variant (drawnRow s sl j) = true ∧
      ∃ px py, px < 16 ∧ py < 16 ∧ rowPen s sl j px py ≠ s.variant.sprTransparentPen ∧
        insideClip s.variant.vis ((rowPlace s sl j).1 + px) ((rowPlace s sl j).2 + py) = true ∧
        q = (((rowPlace s sl j).1 + px, (rowPlace s sl j).2 + py),
          paletteIndex s.variant.sprPalBase (drawnRow s sl j).colour.toNat (rowPen s sl j px py).toNat) := by
  unfold rowPuts
  change q ∈ (if rowShown s.variant (drawnRow s sl j) = true then _ else _) ↔ _
  split_ifs with hshown
  · simp only [List.mem_flatMap, Prod.exists, mem_cellPlaces, hshown, true_and]
    refine exists_congr fun px => exists_congr fun py => ?_
    change _ ∧ q ∈ (if rowPen s sl j px py ≠ s.variant.sprTransparentPen ∧
      insideClip s.variant.vis ((rowPlace s sl j).1 + px) ((rowPlace s sl j).2 + py) = true then
        [(((rowPlace s sl j).1 + (px : Int), (rowPlace s sl j).2 + (py : Int)),
          paletteIndex s.variant.sprPalBase (drawnRow s sl j).colour.toNat (rowPen s sl j px py).toNat)] else []) ↔ _
    split_ifs with hput
    · simp [hput, sprCell, and_assoc]
    · simp only [List.not_mem_nil, and_false, false_iff]
      rintro ⟨-, -, hpen, hclip, -⟩
      exact hput ⟨hpen, hclip⟩
  · exact iff_of_false List.not_mem_nil fun h => hshown h.1

/-- An opaque pixel of a shown row falls on a place inside the clip rectangle. -/
def RowPaints (s : State) (sl : Slot) (j px py x y : Nat) : Prop :=
  rowShown s.variant (drawnRow s sl j) = true ∧ px < 16 ∧ py < 16 ∧ rowPen s sl j px py ≠ s.variant.sprTransparentPen ∧
    insideClip s.variant.vis x y = true ∧ (rowPlace s sl j).1 + px = x ∧ (rowPlace s sl j).2 + py = y

/-- The palette index a pixel of a row puts (42_frame_compositor.md R211). -/
def rowIndex (s : State) (sl : Slot) (j px py : Nat) : Nat :=
  paletteIndex s.variant.sprPalBase (drawnRow s sl j).colour.toNat (rowPen s sl j px py).toNat

theorem mem_rowPuts_of_paints {s : State} {sl : Slot} {j px py x y : Nat} (h : RowPaints s sl j px py x y) :
    (((x : Int), (y : Int)), rowIndex s sl j px py) ∈ rowPuts s sl j := by
  obtain ⟨hshown, hpx, hpy, hpen, hclip, hx, hy⟩ := h
  exact mem_rowPuts.2 ⟨hshown, px, py, hpx, hpy, hpen, by rwa [hx, hy], by rw [hx, hy, rowIndex]⟩

theorem rowPaints_of_mem {s : State} {sl : Slot} {j x y : Nat} {q : Put Nat} (hq : q ∈ rowPuts s sl j)
    (hplace : q.1 = ((x : Int), (y : Int))) : ∃ px py, RowPaints s sl j px py x y ∧ q.2 = rowIndex s sl j px py := by
  obtain ⟨hshown, px, py, hpx, hpy, hpen, hclip, rfl⟩ := mem_rowPuts.1 hq
  obtain ⟨hx, hy⟩ := Prod.mk.inj hplace
  rw [hx, hy] at hclip
  exact ⟨px, py, ⟨hshown, hpx, hpy, hpen, hclip, hx, hy⟩, rfl⟩

/-- Different pixels of a row fall on different places. -/
theorem rowPaints_inj {s : State} {sl : Slot} {j px py px' py' x y : Nat} (h : RowPaints s sl j px py x y)
    (h' : RowPaints s sl j px' py' x y) : px = px' ∧ py = py' := by
  obtain ⟨-, -, -, -, -, hx, hy⟩ := h
  obtain ⟨-, -, -, -, -, hx', hy'⟩ := h'
  omega

/-- No pixel of a slot falls on a place when no row's does. -/
theorem slotPuts_miss {s : State} {sl : Slot} {x y : Nat} (h : ∀ j, j < 16 → ∀ px py, ¬ RowPaints s sl j px py x y) :
    ∀ q ∈ slotPuts s sl, q.1 ≠ ((x : Int), (y : Int)) := by
  intro q hq hplace
  obtain ⟨j, hj, hq⟩ := List.mem_flatMap.1 hq
  obtain ⟨px, py, hpaints, -⟩ := rowPaints_of_mem hq hplace
  exact h j (List.mem_range.1 hj) px py hpaints

/-- A place on which no pixel of a shown row falls shows TRANSPARENT_SLOT. -/
theorem renderedSprites_background {s : State} {x y : Nat} (hx : x < s.variant.fbW) (hy : y < s.variant.fbH)
    (h : ∀ sl ∈ slotsOf s.variant.bankOrder, ∀ j, j < 16 → ∀ px py, ¬ RowPaints s sl j px py x y) :
    (renderedSprites s)[planeIndex s.variant x y]? = some s.variant.transparentSlot := by
  rw [renderedSprites_eq, putAll_miss (planeFilled_size ..) hx hy, planeFilled_get hx hy]
  intro q hq
  obtain ⟨sl, hsl, hq⟩ := List.mem_flatMap.1 hq
  exact slotPuts_miss (h sl hsl) q hq

/-- A place shows the pixel of the last row of the last slot that puts one on it. -/
theorem renderedSprites_last {s : State} {x y : Nat} (hx : x < s.variant.fbW) (hy : y < s.variant.fbH)
    {before after : List Slot} {sl : Slot} {j px py : Nat} (hslots : slotsOf s.variant.bankOrder = before ++ sl :: after)
    (hj : j < 16) (hpaints : RowPaints s sl j px py x y)
    (hafter : ∀ sl' ∈ after, ∀ j', j' < 16 → ∀ px' py', ¬ RowPaints s sl' j' px' py' x y)
    (hrows : ∀ j', j' < 16 → j < j' → ∀ px' py', ¬ RowPaints s sl j' px' py' x y) :
    (renderedSprites s)[planeIndex s.variant x y]? = some (rowIndex s sl j px py) := by
  rw [renderedSprites_eq, hslots, List.flatMap_append, List.flatMap_cons, putAll_append, putAll_append,
    putAll_miss (by simp) hx hy]
  · rw [slotPuts, show rowsPerSlot = 16 from rfl, range_split hj]
    refine putAll_lastTurn (by simp) hx hy ⟨_, mem_rowPuts_of_paints hpaints, rfl⟩ ?_ ?_
    · intro q hq hplace
      obtain ⟨px', py', hpaints', hindex⟩ := rowPaints_of_mem hq hplace
      obtain ⟨rfl, rfl⟩ := rowPaints_inj hpaints hpaints'
      exact hindex
    · intro j' hj' q hq hplace
      obtain ⟨k, hk, rfl⟩ := List.mem_map.1 hj'
      have hk := List.mem_range.1 hk
      obtain ⟨px', py', hpaints', -⟩ := rowPaints_of_mem hq hplace
      exact hrows (j + 1 + k) (by omega) (by omega) px' py' hpaints'
  · intro q hq
    obtain ⟨sl', hsl', hq⟩ := List.mem_flatMap.1 hq
    exact slotPuts_miss (hafter sl' hsl') q hq

theorem pixelAt_renderSprites {s : State} {x y i : Nat}
    (h : (renderedSprites s)[planeIndex s.variant x y]? = some i) : pixelAt (renderSprites s) x y = i := by
  rw [pixelAt, renderSprites_fb, renderSprites_variant, h, Option.getD_some]

/-- A pixel of a row on a place, spelled out (42_frame_compositor.md R206 to R211). -/
theorem rowPaints_iff {s : State} {sl : Slot} {j px py x y : Nat} :
    RowPaints s sl j px py x y ↔ px < 16 ∧ py < 16 ∧ (drawnRow s sl j).colour ≠ 0 ∧
      (drawnRow s sl j).tile ≤ s.variant.sprTileMax ∧ rowPen s sl j px py ≠ s.variant.sprTransparentPen ∧
      s.variant.vis.x0 ≤ x ∧ x ≤ s.variant.vis.x1 ∧ s.variant.vis.y0 ≤ y ∧ y ≤ s.variant.vis.y1 ∧
      (rowPlace s sl j).1 + px = x ∧ (rowPlace s sl j).2 + py = y := by
  simp only [RowPaints, rowShown_iff, insideClip, decide_eq_true_iff, Int.ofNat_le]
  tauto

/-- Settles O40. -/
theorem spriteLayerShowsTheLastDrawn : Obligations.SpriteLayerShowsTheLastDrawn := by
  intro s
  refine ⟨renderSprites s, rfl, rfl, fun base slots unpacked row paints hbase hslots hunpacked hrow hpaints x y hx hy => ?_⟩
  obtain rfl : base = slotBase := funext hbase
  have hslots' : slots = slotsOf s.variant.bankOrder := hslots
  have hdrawn : row = drawnRow s := by
    funext sl j
    rw [hrow, hunpacked, drawnRow, flippedRow]
    cases s.flip <;> rfl
  subst hdrawn
  have hiff : ∀ sl j px py, paints sl j px py x y ↔ j < 16 ∧ RowPaints s sl j px py x y := by
    intro sl j px py
    rw [hpaints, rowPaints_iff]
    simp only [exists_eq_left]
    rfl
  refine ⟨fun hnone => pixelAt_renderSprites (renderedSprites_background hx hy fun sl hsl j hj px py h => ?_),
    fun before sl after j px py hsplit hp hafter hrows => ?_⟩
  · exact hnone sl (hslots' ▸ hsl) j px py ((hiff ..).2 ⟨hj, h⟩)
  · obtain ⟨hj, hp⟩ := (hiff ..).1 hp
    refine (pixelAt_renderSprites (renderedSprites_last hx hy (hslots' ▸ hsplit) hj hp
      (fun sl' hsl' j' hj' px' py' h => hafter sl' hsl' j' px' py' ((hiff ..).2 ⟨hj', h⟩))
      (fun j' hj' hlt px' py' h => hrows j' px' py' hlt ((hiff ..).2 ⟨hj', h⟩)))).trans ?_
    rfl

/-! What SREND draws is visible to PVIS. -/

/-- An entry of a plane is what it was, or one of the pixels put on it. -/
theorem putAll_get_mem {α : Type} {v : Variant} {plane : Array α} (hs : plane.size = v.fbW * v.fbH) {x y : Nat}
    (hx : x < v.fbW) (hy : y < v.fbH) (l : List (Put α)) :
    (putAll v plane l)[planeIndex v x y]? = plane[planeIndex v x y]? ∨
      ∃ q ∈ l, q.1 = ((x : Int), (y : Int)) ∧ (putAll v plane l)[planeIndex v x y]? = some q.2 := by
  induction l generalizing plane with
  | nil => exact .inl rfl
  | cons q rest ih =>
    change (putAll v (planePut v plane q.1.1 q.1.2 q.2) rest)[_]? = _ ∨ ∃ r ∈ _, _ ∧
      (putAll v (planePut v plane q.1.1 q.1.2 q.2) rest)[_]? = _
    rcases ih (plane := planePut v plane q.1.1 q.1.2 q.2) (by simpa using hs) with h | ⟨r, hr, hplace, h⟩
    · rw [h, planePut_get hs hx hy]
      split_ifs with hput
      · exact .inr ⟨q, List.mem_cons_self, Prod.ext hput.1 hput.2, rfl⟩
      · exact .inl rfl
    · exact .inr ⟨r, List.mem_cons_of_mem _ hr, hplace, h⟩

/-- An entry of SREND's frame is TRANSPARENT_SLOT or the index of a pixel of a row. -/
theorem pixelAt_renderSprites_cases {s : State} {x y : Nat} (hx : x < s.variant.fbW) (hy : y < s.variant.fbH) :
    pixelAt (renderSprites s) x y = s.variant.transparentSlot ∨
      ∃ sl ∈ slotsOf s.variant.bankOrder, ∃ j, j < 16 ∧ ∃ px py, RowPaints s sl j px py x y ∧
        pixelAt (renderSprites s) x y = rowIndex s sl j px py := by
  rcases putAll_get_mem (planeFilled_size s.variant s.variant.transparentSlot) hx hy
    ((slotsOf s.variant.bankOrder).flatMap (slotPuts s)) with h | ⟨q, hq, hplace, h⟩
  · rw [← renderedSprites_eq, planeFilled_get hx hy] at h
    exact .inl (pixelAt_renderSprites h)
  · rw [← renderedSprites_eq] at h
    obtain ⟨sl, hsl, hq⟩ := List.mem_flatMap.1 hq
    obtain ⟨j, hj, hq⟩ := List.mem_flatMap.1 hq
    obtain ⟨px, py, hpaints, hindex⟩ := rowPaints_of_mem hq hplace
    exact .inr ⟨sl, hsl, j, List.mem_range.1 hj, px, py, hpaints, hindex ▸ pixelAt_renderSprites h⟩

theorem flipSource_lt {f : Bool} {p : Nat} (h : p < 16) : flipSource f p < 16 := by
  unfold flipSource
  split_ifs <;> omega

/-- Where the pen-usage asset agrees with the graphics, the index of a drawn pixel is one that its row marks. -/
theorem rowMarks_of_paints {s : State} {sl : Slot} {j px py x y : Nat} (hpens : PenUseConsistent s)
    (h : RowPaints s sl j px py x y) : RowMarks s sl j (rowIndex s sl j px py) := by
  obtain ⟨hshown, hpx, hpy, -⟩ := h
  have htile : (drawnRow s sl j).tile = (spriteRow s sl j).tile := by
    unfold drawnRow flippedRow; split_ifs <;> rfl
  have hcolour : (drawnRow s sl j).colour = (spriteRow s sl j).colour := by
    unfold drawnRow flippedRow; split_ifs <;> rfl
  have hshown' := rowShown_iff.1 hshown
  rw [htile, hcolour] at hshown'
  refine ⟨rowShown_iff.2 hshown', (rowPen s sl j px py).toNat, (rowPen s sl j px py).isLt, ?_, by rw [rowIndex, hcolour]⟩
  refine (hpens _ hshown'.2 _ (rowPen s sl j px py).isLt).2 ⟨flipSource (drawnRow s sl j).fx px,
    flipSource_lt hpx, flipSource (drawnRow s sl j).fy py, flipSource_lt hpy, by rw [← htile, rowPen]⟩

/-- Settles O41. -/
theorem everyDrawnSpriteIndexIsVisible : Obligations.EveryDrawnSpriteIndexIsVisible := by
  intro s t u hpens hbanks hpvis hsrend x y hx hy
  cases hpvis
  cases hsrend
  rw [rebuildVisibility_visb, bitAt_visibility]
  rcases pixelAt_renderSprites_cases hx hy with h | ⟨sl, hsl, j, hj, px, py, hpaints, h⟩
  · exact .inl h
  · rw [h]
    obtain ⟨hbank, hslot⟩ := mem_slotsOf.1 hsl
    exact .inr ⟨sl, mem_slotsOf.2 ⟨hbanks _ hbank, hslot⟩, j, hj, rowMarks_of_paints hpens hpaints⟩

/-! COMP. -/

/-- The pixels COMP puts: the opaque places of the tile layer inside the clip rectangle (42_frame_compositor.md R213). -/
theorem mem_layerPuts {s : State} {x y : Nat} {q : Put Nat} (hplace : q.1 = ((x : Int), (y : Int))) :
    q ∈ layerPuts s ↔ (x, y) ∈ clipPlaces s.variant.vis ∧ layerAt s x y = some q.2 := by
  obtain ⟨place, i⟩ := q
  obtain rfl : place = ((x : Int), (y : Int)) := hplace
  simp only [layerPuts, List.mem_flatMap, Prod.exists]
  constructor
  · rintro ⟨x', y', hclip, hq⟩
    split at hq
    · next j hj =>
      obtain ⟨⟨hx, hy⟩, rfl⟩ : ((x : Int) = x' ∧ (y : Int) = y') ∧ i = j := by simpa using hq
      obtain rfl : x = x' := by omega
      obtain rfl : y = y' := by omega
      exact ⟨hclip, hj⟩
    · cases hq
  · rintro ⟨hclip, hlayer⟩
    exact ⟨x, y, hclip, by rw [hlayer]; exact List.mem_singleton_self _⟩

/-- Settles O42: at most one pixel is put on each place. -/
theorem compositePutsTheTileLayerOnTop : Obligations.CompositePutsTheTileLayerOnTop := by
  intro s _ ⟨_, hsize⟩
  refine ⟨compositeLayers s, rfl, rfl, fun x y hx hy => ?_⟩
  have hmiss : (∀ q ∈ layerPuts s, q.1 ≠ ((x : Int), (y : Int))) → pixelAt (compositeLayers s) x y = pixelAt s x y := by
    intro h
    rw [pixelAt, compositeLayers_putAll, compositeLayers_variant, putAll_miss hsize hx hy h, pixelAt]
  split_ifs with hvis
  · cases hlayer : layerAt s x y with
    | none => exact hmiss fun q hq hplace => by simpa [hlayer] using ((mem_layerPuts hplace).1 hq).2
    | some i =>
      have hclip : (x, y) ∈ clipPlaces s.variant.vis := mem_clipPlaces.2 ⟨⟨hvis.1, hvis.2.1⟩, hvis.2.2⟩
      have hput : (putAll s.variant s.fb (layerPuts s))[planeIndex s.variant x y]? = some i := by
        refine putAll_agree hsize hx hy ⟨(((x : Int), (y : Int)), i), (mem_layerPuts rfl).2 ⟨hclip, hlayer⟩, rfl⟩ ?_
        intro q hq hplace
        exact Option.some.inj (((mem_layerPuts hplace).1 hq).2.symm.trans hlayer)
      rw [pixelAt, compositeLayers_putAll, compositeLayers_variant, hput]
      rfl
  · refine hmiss fun q hq hplace => hvis ?_
    obtain ⟨⟨h1, h2⟩, h3⟩ := mem_clipPlaces.1 ((mem_layerPuts hplace).1 hq).1
    exact ⟨h1, h2, h3⟩

end Sys2Proof.Machine
end

section
/-! FRAME as a whole (42_frame_compositor.md §1, §6, §7): what it leaves in the compositor's tables, its pixels in raster
order, and that a second FRAME finds nothing to do. -/

namespace Sys2Proof.Machine

/-! Raster order. -/

/-- A rectangle listed row by row has its entry (i, j) at place j * w + i. -/
theorem getElem?_raster {α : Type} (f : Nat → Nat → α) {w i j : Nat} (hi : i < w) {h : Nat} (hj : j < h) :
    ((List.range h).flatMap fun j => (List.range w).map fun i => f i j)[j * w + i]? = some (f i j) := by
  have hlength : ∀ n, ((List.range n).flatMap fun j => (List.range w).map fun i => f i j).length = n * w := by
    intro n
    simp [List.length_flatMap]
  induction h with
  | zero => omega
  | succ h ih =>
    rw [List.range_succ, List.flatMap_append]
    by_cases hlast : j < h
    · have hlt : j * w + i < h * w := by
        calc j * w + i < j * w + w := by omega
          _ = (j + 1) * w := (Nat.succ_mul j w).symm
          _ ≤ h * w := Nat.mul_le_mul_right w hlast
      rw [List.getElem?_append_left (by rw [hlength]; exact hlt), ih hlast]
    · obtain rfl : j = h := by omega
      rw [List.getElem?_append_right (by rw [hlength]; omega), hlength, Nat.add_sub_cancel_left]
      simp [hi]

/-- The clip rectangle in raster order (42_frame_compositor.md R215). -/
theorem clipPlaces_length (c : Clip) : (clipPlaces c).length = (c.y1 + 1 - c.y0) * (c.x1 + 1 - c.x0) := by
  simp [clipPlaces, List.length_flatMap]

theorem getElem?_clipPlaces {c : Clip} {x y : Nat} (hx0 : c.x0 ≤ x) (hx1 : x ≤ c.x1) (hy0 : c.y0 ≤ y) (hy1 : y ≤ c.y1) :
    (clipPlaces c)[(y - c.y0) * (c.x1 + 1 - c.x0) + (x - c.x0)]? = some (x, y) := by
  rw [clipPlaces, getElem?_raster (fun i j => (c.x0 + i, c.y0 + j)) (by omega) (by omega)]
  simp only [Option.some.injEq, Prod.mk.injEq]
  omega

theorem framePixels_length (s : State) : (framePixels s).length =
    (s.variant.vis.y1 + 1 - s.variant.vis.y0) * (s.variant.vis.x1 + 1 - s.variant.vis.x0) := by
  rw [framePixels, List.length_map, clipPlaces_length]

theorem getElem?_framePixels {s : State} {x y : Nat} (hx0 : s.variant.vis.x0 ≤ x) (hx1 : x ≤ s.variant.vis.x1)
    (hy0 : s.variant.vis.y0 ≤ y) (hy1 : y ≤ s.variant.vis.y1) :
    (framePixels s)[(y - s.variant.vis.y0) * (s.variant.vis.x1 + 1 - s.variant.vis.x0) + (x - s.variant.vis.x0)]? =
      some (rgbAt s (pixelAt s x y)) := by
  rw [framePixels, List.getElem?_map, getElem?_clipPlaces hx0 hx1 hy0 hy1]
  rfl

/-! One FRAME. -/

theorem exec_frame (s : State) : exec .frame s = accept s (.next (runFrame (noReply s))) := rfl

/-- The end state of a FRAME: the finished frame of `framed`, with its event. -/
theorem exec_frame_next {s t : State} (h : exec .frame s = .next t) :
    s.cfgErr = false ∧ s.phase = .idle ∧
      t = emitEvent (framed (noReply s)) (.frame (framePixels (framed (noReply s)))) := by
  obtain ⟨hc, hp, h⟩ := accept_next h
  cases h
  exact ⟨hc, hp, runFrame_framed _⟩

/-- The pixels of a state do not depend on its events. -/
theorem framePixels_emitEvent (s : State) (e : Event) : framePixels (emitEvent s e) = framePixels s :=
  framePixels_congr rfl rfl rfl

/-- After a frame no cell is dirty (42_frame_compositor.md R193). -/
theorem framed_dirty (s : State) {c : Nat} (hc : c < s.variant.nCells) : bitAt (framed s).dirty c = false := by
  have := updateTiles_clears s c
  simpa [hc, framed] using this

/-- Settles O43. -/
theorem frameCompletesAndWritesOnlyItsTables : Obligations.FrameCompletesAndWritesOnlyItsTables := by
  intro s ⟨hc, hp⟩
  have hexec : exec .frame s = .next (runFrame (noReply s)) := by rw [exec_frame, accept_of hc hp]
  obtain ⟨-, -, ht⟩ := exec_frame_next hexec
  rw [ht] at hexec
  refine ⟨_, hexec, ?_, fun c hcell => framed_dirty (noReply s) hcell, paletteChanged_iff, framePixels_length _,
    fun x y hx0 hx1 hy0 hy1 => getElem?_framePixels hx0 hx1 hy0 hy1⟩
  rw [framePixels_emitEvent]
  simp only [emitEvent, framed, noReply, hp]

/-! A second FRAME. -/

/-- What a second frame computes from the tables of the first is what they hold (42_frame_compositor.md R220). -/
theorem framed_again {s t : State} (ev : List Event)
    (ht : t = { framed s with evt := ev }) : framed t = { t with palchg := false } := by
  have hvariant : t.variant = s.variant := by rw [ht]; rfl
  have htables : refreshedTables t = (t.tcache, t.dirty) :=
    refreshedTables_clean fun c hcell => by rw [hvariant] at hcell; rw [ht]; exact framed_dirty s hcell
  have htcache : t.tcache = (refreshedTables s).1 := by rw [ht]; rfl
  have hvis : visibility t = visibility s := by rw [ht]; exact visibility_congr rfl rfl rfl rfl
  have hlayer : renderedLayer (updateTiles t) = renderedLayer (updateTiles s) := by
    refine renderedLayer_congr hvariant (by rw [ht]; rfl) ?_ (by rw [ht]; rfl)
    rw [updateTiles_tcache, updateTiles_tcache, htables, htcache]
  have hsprites : renderedSprites t = renderedSprites s := by rw [ht]; exact renderedSprites_congr rfl rfl rfl rfl rfl
  have hfb : finishedFb t = finishedFb s := compositeLayers_congr hvariant hlayer hsprites
  have hprev : t.visbPrev = visibility s := by rw [ht]; rfl
  rw [framed, htables, hvis, hlayer, hfb, hprev, show paletteChanged (visibility s) (visibility s) = false by
    simp [paletteChanged]]
  rw [ht]
  rfl

/-- Settles O44. -/
theorem secondFrameRepeatsTheFirst : Obligations.SecondFrameRepeatsTheFirst := by
  intro s t u hfirst hsecond
  obtain ⟨-, -, ht⟩ := exec_frame_next hfirst
  obtain ⟨-, -, hu⟩ := exec_frame_next hsecond
  have hreply : noReply t = t := by rw [ht]; rfl
  rw [hreply, framed_again _ ht] at hu
  rw [hu, framePixels_congr (t := t) rfl rfl rfl]
  rfl

/-! The first FRAME after RESET. -/

theorem exec_reset_next {s t : State} (h : exec .reset s = .next t) :
    s.cfgErr = false ∧ s.phase = .idle ∧ t = resetSession (noReply s) := by
  obtain ⟨hc, hp, h⟩ := accept_next h
  cases h
  exact ⟨hc, hp, rfl⟩

/-- RESET makes every cell dirty (10_state.md R48). -/
theorem resetSession_dirty (s : State) (c : Nat) : bitAt (resetSession s).dirty c = true ↔ c < s.variant.nCells := by
  simp [resetSession]

/-- A frame decodes every dirty cell from the current bytes (42_frame_compositor.md R193). -/
theorem tileAt_framed {s : State} {c : Nat} (hc : c < s.variant.nCells) (hdirty : bitAt s.dirty c = true) :
    tileAt (framed s) c = decodedCell s c := by
  have := updateTiles_decodes s c
  rw [if_pos ⟨hc, hdirty⟩] at this
  exact this

/-- Settles O45: every cell was dirty. -/
theorem firstFrameAfterResetDecodesEveryCell : Obligations.FirstFrameAfterResetDecodesEveryCell := by
  intro s t u hreset hframe c hcell
  obtain ⟨-, -, ht⟩ := exec_reset_next hreset
  obtain ⟨-, -, hu⟩ := exec_frame_next hframe
  have hvariant : t.variant = s.variant := by rw [ht]; rfl
  have hcell' : c < (noReply t).variant.nCells := by rw [noReply_variant, hvariant]; exact hcell
  have hdirty : bitAt (noReply t).dirty c = true := by
    rw [noReply_dirty, ht]
    exact (resetSession_dirty _ c).2 hcell
  rw [hu]
  refine ⟨framed_dirty _ hcell', (tileAt_framed hcell' hdirty).trans ?_⟩
  rw [← hvariant]
  rfl

end Sys2Proof.Machine
end

section
/-! The step (20_memory.md R77, 30_encoding.md R102): the oldest command or host action at Idle, the sequencer's
micro-operation inside a frame, so that six steps make the atomic FRAME; and when operations complete or are refused. -/

namespace Sys2Proof.Machine

/-! Steps at Idle. -/

/-- Settles O5: at Idle a command is decoded and run, and the sequencer rests. -/
theorem stepRunsTheDecodedCommand : Obligations.StepRunsTheDecodedCommand := by
  intro s tw rest i ⟨hc, hp⟩ hinbox hdecode
  have hfetch : fetch s = .run i { s with inbox := rest } := by
    simp [fetch, hc, hp, hinbox, fetchInput, hdecode]
  rw [step, hfetch]
  exact retire_of_idle (s := { s with inbox := rest }) hp i

theorem fetch_input {s : State} {input : Input} {rest : List Input} (hs : Accepting s) (h : s.inbox = input :: rest) :
    fetch s = fetchInput { s with inbox := rest } input := by
  simp [fetch, hs.1, hs.2, h]

/-- Settles O9. -/
theorem hostActionsSetOnlyTheirInput : Obligations.HostActionsSetOnlyTheirInput := by
  intro s rest hs
  refine ⟨fun n x hinbox hn => ?_, fun x hinbox => ?_⟩
  · refine ⟨{ s with inbox := rest, ports := s.ports.set Config.hostPort n x }, ?_, rfl,
      fun m => Store.get_set Config.hostPort s.ports n m x⟩
    rw [step, fetch_input hs hinbox, fetchInput]
    simp [hn]
  · rw [step, fetch_input hs hinbox]
    rfl

/-! Steps inside a frame. -/

/-- Inside a frame a step runs the micro-operation of the sequencer's position and moves on. -/
theorem step_of_phase {s t : State} {i : Instr} {p : Phase} (hc : s.cfgErr = false) (hphase : s.phase = p)
    (hp : p ≠ .idle) (hmicro : decodeMicro (phaseMicroCode p) = .ok i) (h : exec i s = .next t) :
    step s = .next (advancePhase t) := by
  have hfetch : fetch s = .run i s := by simp [fetch, hc, hphase, hp, hmicro]
  rw [step, hfetch]
  simp only [h, retire]

/-- Settles O6: the code of each position is that of its micro-operation, none of which moves the sequencer itself. -/
theorem stepRunsThePhaseOfTheSequencer : Obligations.StepRunsThePhaseOfTheSequencer := by
  intro s hc
  refine ⟨fun hp => ⟨rfl, fun t h => ?_⟩, fun hp => ⟨rfl, fun t h => ?_⟩, fun hp => ⟨rfl, fun t h => ?_⟩,
    fun hp => ⟨rfl, fun t h => ?_⟩, fun hp => ⟨rfl, fun t h => ?_⟩, fun hp => ⟨rfl, fun t h => ?_⟩⟩
  all_goals
    rw [step_of_phase hc hp (by decide) rfl h]
    cases h
    simp only [advancePhase, hp, updateTiles_phase, rebuildVisibility_phase, applyPaletteChange_phase, renderTiles_phase,
      renderSprites_phase, compositeLayers_phase]
    rfl

theorem run_succ_of_step {s t : State} (h : step s = .next t) (k : Nat) :
    Host.Core.run Sys2Proof.core (k + 1) s = Host.Core.run Sys2Proof.core k t := by
  have hstep : Sys2Proof.core.step s = .next t := h
  exact (Host.Core.run.eq_def Sys2Proof.core (k + 1) s).trans (by simp only [hstep])

section
variable {s : State} (hc : s.cfgErr = false)
include hc

theorem run_updatingTiles (hp : s.phase = .updatingTiles) (k : Nat) :
    Host.Core.run Sys2Proof.core (k + 1) s = Host.Core.run Sys2Proof.core k (setPhase (updateTiles s) .rebuildingUsage) :=
  run_succ_of_step ((step_of_phase hc hp (by decide) rfl rfl).trans (by simp [advancePhase, hp])) k

theorem run_rebuildingUsage (hp : s.phase = .rebuildingUsage) (k : Nat) :
    Host.Core.run Sys2Proof.core (k + 1) s = Host.Core.run Sys2Proof.core k (setPhase (rebuildVisibility s) .applyingChange) :=
  run_succ_of_step ((step_of_phase hc hp (by decide) rfl rfl).trans (by simp [advancePhase, hp])) k

theorem run_applyingChange (hp : s.phase = .applyingChange) (k : Nat) :
    Host.Core.run Sys2Proof.core (k + 1) s = Host.Core.run Sys2Proof.core k (setPhase (applyPaletteChange s) .renderingTiles) :=
  run_succ_of_step ((step_of_phase hc hp (by decide) rfl rfl).trans (by simp [advancePhase, hp])) k

theorem run_renderingTiles (hp : s.phase = .renderingTiles) (k : Nat) :
    Host.Core.run Sys2Proof.core (k + 1) s = Host.Core.run Sys2Proof.core k (setPhase (renderTiles s) .drawingSprites) :=
  run_succ_of_step ((step_of_phase hc hp (by decide) rfl rfl).trans (by simp [advancePhase, hp])) k

theorem run_drawingSprites (hp : s.phase = .drawingSprites) (k : Nat) :
    Host.Core.run Sys2Proof.core (k + 1) s = Host.Core.run Sys2Proof.core k (setPhase (renderSprites s) .compositing) :=
  run_succ_of_step ((step_of_phase hc hp (by decide) rfl rfl).trans (by simp [advancePhase, hp])) k

theorem run_compositing (hp : s.phase = .compositing) (k : Nat) :
    Host.Core.run Sys2Proof.core (k + 1) s = Host.Core.run Sys2Proof.core k (finishFrame (compositeLayers s)) :=
  run_succ_of_step ((step_of_phase hc hp (by decide) rfl rfl).trans (by simp [advancePhase, hp])) k

end

/-- Settles O7: each of the six steps is the next phase of `runFrame`. -/
theorem frameEqualsItsSixPhases : Obligations.FrameEqualsItsSixPhases := by
  intro s ⟨hc, hp⟩
  refine ⟨runFrame (noReply s), by rw [exec_frame, accept_of hc hp], ?_⟩
  calc Host.Core.run Sys2Proof.core 6 (startFrame (noReply s))
    _ = Host.Core.run Sys2Proof.core 5 _ := run_updatingTiles (by simpa using hc) rfl 5
    _ = Host.Core.run Sys2Proof.core 4 _ := run_rebuildingUsage (by simpa using hc) rfl 4
    _ = Host.Core.run Sys2Proof.core 3 _ := run_applyingChange (by simpa using hc) rfl 3
    _ = Host.Core.run Sys2Proof.core 2 _ := run_renderingTiles (by simpa using hc) rfl 2
    _ = Host.Core.run Sys2Proof.core 1 _ := run_drawingSprites (by simpa using hc) rfl 1
    _ = Host.Core.run Sys2Proof.core 0 _ := run_compositing (by simpa using hc) rfl 0

/-! Completion and refusal. -/

theorem readEntry_completes {k : Kind} (word : State → MapEntry → Addr → Word) {w : Width} {a : Addr}
    {s : State} (hs : Accepting s) (h : readSelects s.variant k w a = true) (hk : k ≠ .openBus) :
    ∃ t, readEntry k word w a s = .next t := by
  obtain ⟨e, he⟩ := selectEntry_of_selectedKind hk (beq_iff_eq.1 h)
  exact ⟨_, readEntry_of word hs.1 hs.2 he⟩

theorem writeEntry_completes {k : Kind} (effect : MapEntry → State → State) {w : Width} {a : Addr}
    {v : Long} {s : State} (hs : Accepting s) (h : writeWellFormed s.variant k w a v = true) (hk : k ≠ .openBus) :
    ∃ t, writeEntry k effect w a s = .next t := by
  have hselects : writeSelects s.variant k w a = true := (Bool.and_eq_true_iff.1 h).1
  obtain ⟨e, he⟩ := selectEntry_of_selectedKind hk (beq_iff_eq.1 hselects)
  exact ⟨_, writeEntry_of effect hs.1 hs.2 he⟩

theorem openBusCommand_completes {m : List MapEntry} {w : Width} {a : Addr} {s : State} (t : State) (hs : Accepting s)
    (h : selectedKind m w a = kindCode .openBus) : openBusCommand m w a s t = .next t := by
  rw [openBusCommand, accept_of hs.1 hs.2, if_pos h]

/-- A well-formed operation completes: its address selects its kind (30_encoding.md R95, 60_exceptions.md R240). -/
theorem exec_completes {s : State} {i : Instr} (hs : Accepting s) (h : wellFormed s.variant i = true) :
    ∃ t, exec i s = .next t := by
  cases i with
  | rdOpen w a => exact ⟨_, openBusCommand_completes _ hs (beq_iff_eq.1 h)⟩
  | rdRom w a => exact readEntry_completes _ hs h (by decide)
  | rdRam w a => exact readEntry_completes _ hs h (by decide)
  | rdBankrom w a => exact readEntry_completes _ hs h (by decide)
  | rdVideo w a => exact readEntry_completes _ hs h (by decide)
  | rdSprite w a => exact readEntry_completes _ hs h (by decide)
  | rdPalette w a => exact readEntry_completes _ hs h (by decide)
  | rdCtrl w a => exact readEntry_completes _ hs h (by decide)
  | rdDip w a => exact readEntry_completes _ hs h (by decide)
  | rdSndbusy w a => exact readEntry_completes _ hs h (by decide)
  | rdRot w a => exact readEntry_completes _ hs h (by decide)
  | rdRotlo w a => exact readEntry_completes _ hs h (by decide)
  | rdProtr w a => exact readEntry_completes _ hs h (by decide)
  | wrOpen w a v => exact ⟨_, openBusCommand_completes _ hs (beq_iff_eq.1 (Bool.and_eq_true_iff.1 h).1)⟩
  | wrRom w a v => exact writeEntry_completes _ hs h (by decide)
  | wrRam w a v => exact writeEntry_completes _ hs h (by decide)
  | wrBankrom w a v => exact writeEntry_completes _ hs h (by decide)
  | wrVideo w a v => exact writeEntry_completes _ hs h (by decide)
  | wrSprite w a v => exact writeEntry_completes _ hs h (by decide)
  | wrPalette w a v => exact writeEntry_completes _ hs h (by decide)
  | wrSndkick w a v => exact exec_wrSndkick w a v s ▸ writeEntry_completes _ hs h (by decide)
  | wrFlip w a v => exact exec_wrFlip w a v s ▸ writeEntry_completes _ hs h (by decide)
  | wrProtw w a v => exact exec_wrProtw w a v s ▸ writeEntry_completes _ hs h (by decide)
  | frame => exact ⟨_, accept_of hs.1 hs.2 _⟩
  | reset => exact ⟨_, accept_of hs.1 hs.2 _⟩
  | tcupd => exact ⟨_, rfl⟩
  | pvis => exact ⟨_, rfl⟩
  | pchg => exact ⟨_, rfl⟩
  | trend => exact ⟨_, rfl⟩
  | srend => exact ⟨_, rfl⟩
  | comp => exact ⟨_, rfl⟩

/-- Settles O8. -/
theorem everyWellFormedOperationCompletes : Obligations.EveryWellFormedOperationCompletes := by
  intro s i hs h
  obtain ⟨t, ht⟩ := exec_completes hs h
  obtain ⟨hvar, -, -, -, -, -, hcfg⟩ := exec_keeps_parameters ht
  exact ⟨t, ht, ⟨hcfg.trans hs.1, (exec_phase ht).elim (fun hp => hp.trans hs.2) id⟩, hvar⟩

/-- Every command is guarded: CFG_ERR and PHASE decide before anything else (60_exceptions.md R240, R241). -/
theorem exec_command_accept (s : State) (w : Width) (a : Addr) (v : Long) :
    ∀ i ∈ [Instr.rdOpen w a, .rdRom w a, .rdRam w a, .rdBankrom w a, .rdVideo w a, .rdSprite w a, .rdPalette w a,
        .rdCtrl w a, .rdDip w a, .rdSndbusy w a, .rdRot w a, .rdRotlo w a, .rdProtr w a, .wrOpen w a v, .wrRom w a v,
        .wrRam w a v, .wrBankrom w a v, .wrVideo w a v, .wrSprite w a v, .wrPalette w a v, .wrSndkick w a v,
        .wrFlip w a v, .wrProtw w a v, .frame, .reset],
      ∃ r, exec i s = accept s r := by
  intro i hi
  simp only [List.mem_cons, List.not_mem_nil, or_false] at hi
  rcases hi with rfl | rfl | rfl | rfl | rfl | rfl | rfl | rfl | rfl | rfl | rfl | rfl | rfl | rfl | rfl | rfl | rfl |
    rfl | rfl | rfl | rfl | rfl | rfl | rfl | rfl
  all_goals exact ⟨_, rfl⟩

/-- Settles O49. -/
theorem commandsAreRefusedOutsideAnAcceptingSession : Obligations.CommandsAreRefusedOutsideAnAcceptingSession := by
  intro s w a v i hi
  obtain ⟨r, hr⟩ := exec_command_accept s w a v i hi
  refine ⟨fun hc => ⟨hr.trans (accept_noSession hc r), by simp [step, fetch, hc]⟩, fun hc hp => ?_⟩
  exact hr.trans (accept_frameInProgress hc hp r)

end Sys2Proof.Machine
end

section
/-! CONFIG, RESET and the session builder (42_frame_compositor.md §1, 60_exceptions.md R241, 70_reset_and_hazards.md
R276): what each check says of the variant, what CONFIG reports, and what a session starts with. -/

namespace Sys2Proof.Machine

/-! The checks, one by one. -/

theorem disjointEntries_iff {e f : MapEntry} : disjointEntries e f = true ↔ e.stop < f.start ∨ f.stop < e.start := by
  simp [disjointEntries]

theorem disjointEntries_false {e f : MapEntry} : disjointEntries e f = false ↔ e.start ≤ f.stop ∧ f.start ≤ e.stop := by
  simp only [disjointEntries, Bool.or_eq_false_iff, decide_eq_false_iff_not, BitVec.not_lt]
  exact and_comm

theorem kindIn_iff {ks : List Kind} {code : BitVec 8} : kindIn ks code = true ↔ code ∈ ks.map kindCode := by
  simp only [kindIn, List.any_eq_true, beq_iff_eq, List.mem_map]

theorem kindOk_iff {v : Variant} (d : Direction) (e : MapEntry) : kindOk d e = true ↔ EntryHolds v .kind d e := by
  cases d <;> exact kindIn_iff

/-- Banked ROM is the region of its own kind alone (20_memory.md R68). -/
theorem kind_bankrom_iff {e : MapEntry} {r : Region} (hr : storageRegion e.kind = some r) :
    e.kind = kindCode .bankrom ↔ r = .bankrom := by
  simp only [storageRegion, kindCode] at hr ⊢
  grind

theorem lastOffset_eq {v : Variant} {e : MapEntry} {r : Region} (hr : storageRegion e.kind = some r) :
    lastOffset v e = (if r = .bankrom then bankBaseOf v e.arg0.toNat else 0) + e.base.toNat +
      (e.stop.toNat - e.start.toNat) := by
  simp only [lastOffset, kind_bankrom_iff hr]

theorem backingOk_iff {v : Variant} (d : Direction) (e : MapEntry) :
    backingOk v e = true ↔ EntryHolds v .backing d e := by
  rw [EntryHolds, backingOk]
  cases hr : storageRegion e.kind with
  | none => simp
  | some r =>
    have heven : e.base.getLsbD 0 = false ↔ e.base.toNat % 2 = 0 := by simp [BitVec.getLsbD, Nat.testBit_zero]
    have hbank : (r != .bankrom || decide (e.arg0.toNat < nRomBanks v)) = true ↔
        (r = .bankrom → e.arg0.toNat < v.bankBase.length) := by
      rw [show v.bankBase.length = nRomBanks v from rfl]
      simp [imp_iff_not_or]
    simp only [Bool.and_eq_true, Bool.not_eq_true', heven, hbank, decide_eq_true_eq, lastOffset_eq hr,
      Option.some.injEq, forall_eq', and_assoc]

theorem portsOk_iff {v : Variant} (d : Direction) (e : MapEntry) : portsOk v e = true ↔ EntryHolds v .port d e := by
  have hport : kindIn [.dip, .rot, .protr] e.kind = true ↔ e.kind = 0x11 ∨ e.kind = 0x13 ∨ e.kind = 0x15 := by
    simp [kindIn_iff, kindCode]
  simp only [portsOk, hport, EntryHolds, List.mem_cons, List.not_mem_nil, or_false]
  change (if e.kind = 0x10 then _ else if e.kind = 0x14 then _ else _) = true ↔ _
  generalize e.kind = k
  split_ifs with hctrl hrotlo hone
  · subst hctrl
    simp
    omega
  · subst hrotlo
    simp
  · rcases hone with rfl | rfl | rfl <;> simp
  · grind

/-! CONFIG by its codes. -/

/-- The codes of 60_exceptions.md R241, in their order. -/
def configCodes : List ConfigCode := [.range, .kind, .overlap, .backing, .port, .palette, .banks, .geometry]

/-- The checks of CONFIG that stand under a code. -/
def checksOf (v : Variant) : ConfigCode → List (Option ConfigError)
  | .range => [firstEntry v .range fun _ e => rangeOk e]
  | .kind => [firstEntry v .kind kindOk]
  | .overlap => [firstOverlap v]
  | .backing => [firstEntry v .backing fun _ e => backingOk v e]
  | .port => [firstEntry v .port fun _ e => portsOk v e]
  | .palette =>
    [failing (decide (v.tilePalBase + 16 * 16 ≤ v.nColors)) .palette .tilePalBase,
     failing (decide (v.sprPalBase + 16 * 128 ≤ v.nColors)) .palette .sprPalBase,
     failing (decide (v.transparentSlot < v.nColors)) .palette .transparentSlot]
  | .banks =>
    [failing (v.bankOrder.all (fun b => decide (b < v.nBanks)) && noRepeats v.bankOrder) .banks .bankOrder,
     failing (v.pvisBanks.all fun b => decide (b < v.nBanks)) .banks .pvisBanks]
  | .geometry =>
    [failing ((List.range v.nCells).all (cellOk v)) .geometry .cellPos,
     failing (visOk v) .geometry .vis,
     failing (decide (v.tileCount ≤ 0x1000)) .geometry .tileCount]

theorem configFailures_eq (v : Variant) : configFailures v = configCodes.flatMap (checksOf v) := rfl

/-- What the checks under a code report. -/
def reportOf (v : Variant) (code : ConfigCode) : Option ConfigError := (checksOf v code).findSome? id

theorem findSome?_flatMap {α β γ : Type} (f : α → List β) (g : β → Option γ) (l : List α) :
    (l.flatMap f).findSome? g = l.findSome? fun a => (f a).findSome? g := by
  induction l with
  | nil => rfl
  | cons a l ih =>
    rw [List.flatMap_cons, List.findSome?_append, ih, List.findSome?_cons]
    cases (f a).findSome? g <;> rfl

theorem configCheck_eq (v : Variant) : configCheck v = configCodes.findSome? (reportOf v) := by
  rw [configCheck, configFailures_eq, findSome?_flatMap]
  rfl

theorem firstEntry_none_iff {v : Variant} {code : ConfigCode} {ok : Direction → MapEntry → Bool}
    (hok : ∀ d e, ok d e = true ↔ EntryHolds v code d e) :
    firstEntry v code ok = none ↔ ∀ d, ∀ e ∈ mapOf v d, EntryHolds v code d e := by
  simp only [firstEntry_none, hok]
  exact ⟨fun ⟨hr, hw⟩ d => by cases d <;> assumption, fun h => ⟨h .read, h .write⟩⟩

theorem cellOk_iff {v : Variant} {c : Nat} :
    cellOk v c = true ↔ ((cellPos v c).1 + 1) * v.tileW ≤ v.fbW ∧ ((cellPos v c).2 + 1) * v.tileH ≤ v.fbH := by
  simp [cellOk]

theorem visOk_iff {v : Variant} :
    visOk v = true ↔ v.vis.x0 ≤ v.vis.x1 ∧ v.vis.x1 < v.fbW ∧ v.vis.y0 ≤ v.vis.y1 ∧ v.vis.y1 < v.fbH := by
  simp [visOk, and_assoc]

theorem cellsOk_iff {v : Variant} : (List.range v.nCells).all (cellOk v) = true ↔
    ∀ c, c < v.nCells → ((cellPos v c).1 + 1) * v.tileW ≤ v.fbW ∧ ((cellPos v c).2 + 1) * v.tileH ≤ v.fbH := by
  simp only [List.all_eq_true, List.mem_range, cellOk_iff]

theorem bankOrderOk_iff {v : Variant} :
    (v.bankOrder.all (fun b => decide (b < v.nBanks)) && noRepeats v.bankOrder) = true ↔
      (∀ b ∈ v.bankOrder, b < v.nBanks) ∧ v.bankOrder.Nodup := by
  simp [noRepeats_iff]

theorem pvisBanksOk_iff {v : Variant} :
    (v.pvisBanks.all fun b => decide (b < v.nBanks)) = true ↔ ∀ b ∈ v.pvisBanks, b < v.nBanks := by
  simp

/-- The checks under a code report nothing exactly when the code's check holds. -/
theorem reportOf_none {v : Variant} {code : ConfigCode} : reportOf v code = none ↔ CheckHolds v code := by
  rw [reportOf, List.findSome?_eq_none_iff]
  cases code with
  | range => simpa [checksOf, CheckHolds] using firstEntry_none_iff (code := .range) fun _ _ => rangeOk_iff
  | kind => simpa [checksOf, CheckHolds] using firstEntry_none_iff kindOk_iff
  | overlap =>
    simp only [checksOf, List.mem_singleton, forall_eq, id, firstOverlap_none, disjointEntries_iff]
    exact ⟨fun ⟨hr, hw⟩ d => by cases d <;> assumption, fun h => ⟨h .read, h .write⟩⟩
  | backing => simpa [checksOf, CheckHolds] using firstEntry_none_iff backingOk_iff
  | port => simpa [checksOf, CheckHolds] using firstEntry_none_iff portsOk_iff
  | palette => simp [checksOf, failing_none, CheckHolds]
  | banks => simp [checksOf, failing_none, CheckHolds, noRepeats_iff]
  | geometry => simp [checksOf, failing_none, CheckHolds, visOk_iff, cellOk_iff]

theorem configCheck_none_iff_checkHolds {v : Variant} :
    configCheck v = none ↔ ∀ code ∈ configCodes, CheckHolds v code := by
  simp only [configCheck_eq, List.findSome?_eq_none_iff, reportOf_none]

/-- Settles O50. -/
theorem configPassesExactlyWhenEveryCheckHolds : Obligations.ConfigPassesExactlyWhenEveryCheckHolds := by
  intro v
  have hdir : ∀ {p : Direction → Prop}, (∀ d, p d) ↔ p .read ∧ p .write :=
    ⟨fun h => ⟨h .read, h .write⟩, fun ⟨hr, hw⟩ d => by cases d <;> assumption⟩
  rw [configCheck_none_iff_checkHolds]
  simp only [configCodes, List.forall_mem_cons, List.not_mem_nil, CheckHolds, EntryHolds, hdir, and_assoc,
    false_implies, implies_true, and_true]
  grind

/-! What CONFIG reports. -/

theorem mem_checksOf_of_reportOf {v : Variant} {code : ConfigCode} {err : ConfigError}
    (h : reportOf v code = some err) : some err ∈ checksOf v code := by
  obtain ⟨a, ha, rfl⟩ := List.exists_of_findSome?_eq_some h
  exact ha

/-- The checks under a code report that code. -/
theorem reportOf_code {v : Variant} {code : ConfigCode} {err : ConfigError} (h : reportOf v code = some err) :
    err.code = code := by
  have hmem := mem_checksOf_of_reportOf h
  cases code <;> simp only [checksOf, List.mem_cons, List.not_mem_nil, or_false] at hmem
  case range | kind | backing | port => exact (firstEntry_some hmem.symm).1
  case overlap => exact (firstOverlap_some hmem.symm).1
  case palette | geometry =>
    rcases hmem with hmem | hmem | hmem <;> (obtain ⟨-, rfl⟩ := failing_some.1 hmem.symm; rfl)
  case banks => rcases hmem with hmem | hmem <;> (obtain ⟨-, rfl⟩ := failing_some.1 hmem.symm; rfl)

/-- A per-entry check names its earliest failing entry. -/
theorem firstEntry_reports {v : Variant} {code : ConfigCode} {ok : Direction → MapEntry → Bool} {err : ConfigError}
    (hok : ∀ d e, ok d e = true ↔ EntryHolds v code d e) (h : firstEntry v code ok = some err) :
    ∃ d i e, err.place = .entry d i ∧ (mapOf v d)[i]? = some e ∧ ¬ EntryHolds v code d e ∧
      (∀ j f, j < i → (mapOf v d)[j]? = some f → EntryHolds v code d f) ∧
      (d = .write → ∀ f ∈ v.rmap, EntryHolds v code .read f) := by
  simpa only [← hok, Bool.not_eq_true] using (firstEntry_some h).2

theorem not_of_eq_false {b : Bool} {p : Prop} (h : b = false) (hp : b = true ↔ p) : ¬ p := by
  rw [← hp, h]; decide

/-- Settles O60: CONFIG reports what the first code whose checks report anything reports. -/
theorem configReportsTheLowestCodeFirst : Obligations.ConfigReportsTheLowestCodeFirst := by
  intro v err h
  rw [configCheck_eq, List.findSome?_eq_some_iff] at h
  obtain ⟨before, code, after, hcodes, hreport, hbefore⟩ := h
  obtain rfl := reportOf_code hreport
  have hmem := mem_checksOf_of_reportOf hreport
  refine ⟨⟨before, after, hcodes, fun c hc => reportOf_none.1 (hbefore c hc), fun hholds => ?_⟩, fun hcode => ?_,
    fun hcode => ?_, fun hcode => ?_, fun hcode => ?_, fun hcode => ?_⟩
  · rw [reportOf_none.2 hholds] at hreport
    cases hreport
  · rcases hcode with hcode | hcode | hcode | hcode <;> rw [hcode] at hmem ⊢ <;>
      simp only [checksOf, List.mem_singleton] at hmem
    · exact firstEntry_reports (fun _ _ => rangeOk_iff) hmem.symm
    · exact firstEntry_reports kindOk_iff hmem.symm
    · exact firstEntry_reports backingOk_iff hmem.symm
    · exact firstEntry_reports portsOk_iff hmem.symm
  · rw [hcode] at hmem
    simp only [checksOf, List.mem_singleton] at hmem
    obtain ⟨-, d, i, j, e, f, hplace, hij, he, hf, hoverlap, hfirst, hread⟩ := firstOverlap_some hmem.symm
    simp only [disjointEntries_iff] at hfirst hread
    exact ⟨d, i, j, e, f, hplace, hij, he, hf, (disjointEntries_false.1 hoverlap).1,
      (disjointEntries_false.1 hoverlap).2, hfirst, hread⟩
  all_goals
    rw [hcode] at hmem
    simp only [checksOf, List.mem_cons, List.not_mem_nil, or_false, eq_comm (a := some err), failing_some] at hmem
  · obtain ⟨hfails, rfl⟩ | ⟨hfails, rfl⟩ | ⟨hfails, rfl⟩ := hmem
    · exact .inl ⟨rfl, of_decide_eq_false hfails⟩
    · exact .inr (.inl ⟨rfl, of_decide_eq_false hfails⟩)
    · exact .inr (.inr ⟨rfl, of_decide_eq_false hfails⟩)
  · obtain ⟨hfails, rfl⟩ | ⟨hfails, rfl⟩ := hmem
    · exact .inl ⟨rfl, not_of_eq_false hfails bankOrderOk_iff⟩
    · exact .inr ⟨rfl, not_of_eq_false hfails pvisBanksOk_iff⟩
  · obtain ⟨hfails, rfl⟩ | ⟨hfails, rfl⟩ | ⟨hfails, rfl⟩ := hmem
    · exact .inl ⟨rfl, not_of_eq_false hfails cellsOk_iff⟩
    · exact .inr (.inl ⟨rfl, not_of_eq_false hfails visOk_iff⟩)
    · exact .inr (.inr ⟨rfl, of_decide_eq_false hfails⟩)

/-! What a passed CONFIG says of lookups and storage cycles. -/

/-- Two entries of a map of disjoint ranges that hold one address are one entry. -/
theorem eq_of_holds {m : List MapEntry} {e f : MapEntry} {a : Addr}
    (hm : m.Pairwise fun e f => disjointEntries e f = true) (he : e ∈ m) (hf : f ∈ m)
    (hea : e.start ≤ a ∧ a ≤ e.stop) (hfa : f.start ≤ a ∧ a ≤ f.stop) : e = f := by
  have hoverlap : ∀ {e f : MapEntry}, e.start ≤ a ∧ a ≤ e.stop → f.start ≤ a ∧ a ≤ f.stop → ¬ disjointEntries e f :=
    fun h1 h2 => by
      simp only [disjointEntries_iff, BitVec.le_def, BitVec.lt_def] at *
      omega
  induction hm with
  | nil => cases he
  | cons hhead _ ih =>
    rcases List.mem_cons.1 he with rfl | he' <;> rcases List.mem_cons.1 hf with rfl | hf'
    · rfl
    · exact absurd (hhead f hf') (hoverlap hea hfa)
    · exact absurd (hhead e he') (hoverlap hfa hea)
    · exact ih he' hf'

/-- Settles O51. -/
theorem lookupFindsTheOnlyEntry : Obligations.LookupFindsTheOnlyEntry := by
  intro v m e a hv hm
  refine ⟨lookup_some, fun ⟨he, hea⟩ => ?_⟩
  cases hfound : lookup m a with
  | none => exact absurd hea (lookup_eq_none_iff.1 hfound e he)
  | some f =>
    obtain ⟨hf, hfa⟩ := lookup_some hfound
    have hdisjoint : m.Pairwise fun e f => disjointEntries e f = true := by
      obtain ⟨hr, hw⟩ := configured_disjoint hv
      rcases hm with rfl | rfl <;> assumption
    rw [eq_of_holds hdisjoint he hf hea hfa]

/-- Settles O52: a cycle inside an entry ends at or before the entry's last offset. -/
theorem storageCyclesStayInsideTheirRegion : Obligations.StorageCyclesStayInsideTheirRegion := by
  intro v e r wa hv he hr hinside
  obtain ⟨-, -, hlast⟩ := (backingOk_iff .read e).1 (configured_backingOk hv he) r hr
  simp only [insideEntry, Bool.and_eq_true, decide_eq_true_eq, BitVec.le_def] at hinside
  rw [entryOffset]
  omega

/-! RESET and the session builder. -/

/-- Settles O46. -/
theorem resetSetsTheResetValues : Obligations.ResetSetsTheResetValues := by
  intro s ⟨hc, hp⟩
  exact ⟨resetSession (noReply s), accept_of hc hp _, rfl, resetSession_dirty (noReply s),
    layerDrawn_size _ _, fbDrawn_size _ _⟩

theorem startSession_of_passed {p : SessionParams} (h : configCheck p.variant = none) :
    startSession p = .next (resetSession (noReply (beforeConfig p))) := by
  have hconfig : config (beforeConfig p) = beforeConfig p := by
    rw [config, show (beforeConfig p).variant = p.variant from rfl, h]
    rfl
  rw [startSession, hconfig, show configCheck (beforeConfig p).variant = none from h]
  rfl

theorem startSession_of_failed {p : SessionParams} {err : ConfigError} (h : configCheck p.variant = some err) :
    startSession p = .fault (.configError err) := by
  rw [startSession, show configCheck (config (beforeConfig p)).variant = some err from h]

/-- Settles O48. -/
theorem sessionIsBuiltExactlyWhenConfigPasses : Obligations.SessionIsBuiltExactlyWhenConfigPasses := by
  intro p
  refine ⟨fun err h => startSession_of_failed h, fun h => ⟨_, startSession_of_passed h, ⟨rfl, rfl⟩, rfl, rfl, rfl, rfl,
    rfl, rfl, rfl, rfl, rfl, rfl, rfl, rfl, rfl, rfl, rfl, rfl, ⟨layerDrawn_size _ _, fbDrawn_size _ _⟩, ?_⟩⟩
  exact resetSession_dirty (noReply (beforeConfig p))

theorem reset_dirty (c : Nat) : bitAt State.reset.dirty c = true ↔ c < 1024 :=
  resetSession_dirty State.reset c

/-- Settles O47. -/
theorem startStateHasTheResetValues : Obligations.StartStateHasTheResetValues := by
  refine ⟨rfl, rfl, rfl, rfl, rfl, rfl, rfl, reset_dirty, fun i => bitAt_zero i, fun i => bitAt_zero i, rfl, ?_,
    ⟨layerDrawn_size _ _, fbDrawn_size _ _⟩, .inl rfl, fun c hc hclean => ?_, witness_Configured.1,
    startSession_of_passed witness_Configured.1⟩
  · exact ⟨fun r => by cases r <;> exact Store.drawn_wf _ _, Store.drawn_wf _ _, Store.drawn_wf _ _, Store.drawn_wf _ _⟩
  · rw [(reset_dirty c).2 hc] at hclean
    cases hclean

end Sys2Proof.Machine
end
